-- ==== Sys2Proof/Word.lean ====
section
/-! DEFINITION. The words of the block: one raw sample as it stands in a memory cell, and the dispatch key. -/

namespace Sys2Proof

/-- One memory cell's contents: the raw sample `RAW[i]`, 0 or 1, held in a byte (20_memory.md R32). -/
abbrev Byte := BitVec 8

/-- The 16-bit dispatch key `K` (30_encoding.md R57). -/
abbrev Key := BitVec 16

/-- The six index bits `K[5:0]` of a dispatch key (30_encoding.md R57). -/
abbrev KeyIndex := BitVec 6

end Sys2Proof
end

