-- ==== Sys2Proof/Syntax.lean ====
section
/-! DEFINITION. The bit roles, the block's instructions: one constructor for each row of the role table
(30_encoding.md R58, spec/opcode_table.json). -/

namespace Sys2Proof

/-- A bit role (30_encoding.md R58). A row whose index range holds more than one position carries the
index `K[5:0]` of the key that selected it; by R57 that index is the position counter of the phase, which the
role's meaning reads from the state (R59: a role has no immediates, its one operand is the sampled bit).
The key bits a row's mask leaves out are no part of the role. -/
inductive Instr where
  /-- DSTUFF: a dynamic stuff bit (44_stuffing.md R110). -/
  | dstuff
  /-- FSB: a fixed stuff bit of the FD CRC phase (44_stuffing.md R113). -/
  | fsb
  /-- SOF: start of frame (42_header.md R87). -/
  | sof
  /-- ID: one of the first 11 identifier bits (42_header.md R88). -/
  | id (index : KeyIndex)
  /-- B12: the RTR / SRR / RRS position (42_header.md R89). -/
  | b12
  /-- IDE: identifier extension (42_header.md R90). -/
  | ide
  /-- FDF.B: the FDF position of an 11-bit frame (42_header.md R91). -/
  | fdfB
  /-- DLC.C11: a DLC bit of a Classic-11 frame (42_header.md R97). -/
  | dlcC11 (index : KeyIndex)
  /-- RES.F11: the reserved bit of an FD-11 frame (42_header.md R92). -/
  | resF11
  /-- BRS.F11: bit rate switch of an FD-11 frame (42_header.md R93). -/
  | brsF11
  /-- ESI.F11: error state indicator of an FD-11 frame (42_header.md R94). -/
  | esiF11
  /-- DLC.F11: a DLC bit of an FD-11 frame (42_header.md R97). -/
  | dlcF11 (index : KeyIndex)
  /-- IDX: one of the low 18 identifier bits of a 29-bit frame (42_header.md R95). -/
  | idx (index : KeyIndex)
  /-- B32: the RTR / RRS position of a 29-bit frame (42_header.md R96). -/
  | b32
  /-- FDF.E: the FDF position of a 29-bit frame (42_header.md R91). -/
  | fdfE
  /-- RES.E: the reserved bit at position 34 of a 29-bit frame (42_header.md R92). -/
  | resE
  /-- DLC.C29: a DLC bit of a Classic-29 frame (42_header.md R97). -/
  | dlcC29 (index : KeyIndex)
  /-- BRS.F29: bit rate switch of an FD-29 frame (42_header.md R93). -/
  | brsF29
  /-- ESI.F29: error state indicator of an FD-29 frame (42_header.md R94). -/
  | esiF29
  /-- DLC.F29: a DLC bit of an FD-29 frame (42_header.md R97). -/
  | dlcF29 (index : KeyIndex)
  /-- DATA: a data bit (43_data_crc_trailer.md R98). -/
  | data (index : KeyIndex)
  /-- CRC.C: a bit of the 15-bit CRC of a Classic frame (43_data_crc_trailer.md R100). -/
  | crcC (index : KeyIndex)
  /-- STC: a bit of the Gray-coded stuff count (43_data_crc_trailer.md R101). -/
  | stc (index : KeyIndex)
  /-- PAR: the parity bit of the stuff count (43_data_crc_trailer.md R102). -/
  | par
  /-- CRC.FD: a bit of the 17-bit or 21-bit CRC of an FD frame (43_data_crc_trailer.md R103). -/
  | crcFd (index : KeyIndex)
  /-- DL1: the CRC delimiter (43_data_crc_trailer.md R105). -/
  | dl1
  /-- ACK: the acknowledge slot (43_data_crc_trailer.md R106). -/
  | ack
  /-- DL2: the ACK delimiter (43_data_crc_trailer.md R107). -/
  | dl2
  /-- EOF: one of the seven end-of-frame bits (43_data_crc_trailer.md R108). -/
  | eof (index : KeyIndex)
  deriving DecidableEq, Repr

end Sys2Proof
end

