-- ==== Sys2Proof/WellFormed.lean ====
section
/-! DEFINITION. Which roles the role table admits: the index ranges of its rows (30_encoding.md R58). -/

namespace Sys2Proof

/-- `lo ≤ index ≤ hi`, the index condition of a row of the role table (30_encoding.md R58). -/
def KeyIndex.within (index : KeyIndex) (lo hi : Nat) : Bool :=
  decide (lo ≤ index.toNat) && decide (index.toNat ≤ hi)

/-- A role is well formed when the index it carries lies in the index range of its row (30_encoding.md R58). -/
def Instr.wf : Instr → Bool
  | .dstuff => true
  | .fsb => true
  | .sof => true
  | .id index => KeyIndex.within index 1 11
  | .b12 => true
  | .ide => true
  | .fdfB => true
  | .dlcC11 index => KeyIndex.within index 15 18
  | .resF11 => true
  | .brsF11 => true
  | .esiF11 => true
  | .dlcF11 index => KeyIndex.within index 18 21
  | .idx index => KeyIndex.within index 14 31
  | .b32 => true
  | .fdfE => true
  | .resE => true
  | .dlcC29 index => KeyIndex.within index 35 38
  | .brsF29 => true
  | .esiF29 => true
  | .dlcF29 index => KeyIndex.within index 37 40
  | .data index => KeyIndex.within index 0 7
  | .crcC index => KeyIndex.within index 0 14
  | .stc index => KeyIndex.within index 0 2
  | .par => true
  | .crcFd index => KeyIndex.within index 4 24
  | .dl1 => true
  | .ack => true
  | .dl2 => true
  | .eof index => KeyIndex.within index 3 9

end Sys2Proof
end

