-- ==== Sys2Proof/Decode.lean ====
section
/-! DEFINITION. The decoder of dispatch keys, from the role table of 30_encoding.md R58, and the encoder written
from the same table. -/

namespace Sys2Proof

/-- Why a key is rejected: the decoder's one rejection, by name. -/
inductive DecodeReject where
  /-- No row of the role table accepts the key (30_encoding.md R58: a run cannot form such a key). -/
  | noRow
  deriving DecidableEq, Repr

/-- A row of the role table (30_encoding.md R58): a key `K` is the row's when `(K and mask) = pattern` and
`lo ≤ K[5:0] ≤ hi`; `role` is the bit role it selects. -/
structure RoleRow where
  pattern : Key
  mask : Key
  lo : Nat
  hi : Nat
  role : KeyIndex → Instr

/-- `K[5:0]`, the index field of a key (30_encoding.md R57). -/
def Key.index (k : Key) : KeyIndex := k.setWidth 6

/-- The row's acceptance condition (30_encoding.md R58). -/
def RoleRow.accepts (r : RoleRow) (k : Key) : Bool :=
  (k &&& r.mask == r.pattern) && KeyIndex.within (Key.index k) r.lo r.hi

/-- The rows of the two stuff-bit roles. -/
def stuffingRows : List RoleRow :=
  [⟨0x1000, 0x1000, 0, 63, fun _ => .dstuff⟩,
   ⟨0x6A00, 0xFA00, 0, 63, fun _ => .fsb⟩]

/-- The header rows common to all templates and those of 11-bit frames. -/
def headerRows11 : List RoleRow :=
  [⟨0x2000, 0xF800, 0, 0, fun _ => .sof⟩,
   ⟨0x2000, 0xF800, 1, 11, .id⟩,
   ⟨0x2000, 0xF800, 12, 12, fun _ => .b12⟩,
   ⟨0x2000, 0xF800, 13, 13, fun _ => .ide⟩,
   ⟨0x2000, 0xFC00, 14, 14, fun _ => .fdfB⟩,
   ⟨0x2000, 0xFE00, 15, 18, .dlcC11⟩,
   ⟨0x2200, 0xFE00, 15, 15, fun _ => .resF11⟩,
   ⟨0x2200, 0xFE00, 16, 16, fun _ => .brsF11⟩,
   ⟨0x2200, 0xFE00, 17, 17, fun _ => .esiF11⟩,
   ⟨0x2200, 0xFE00, 18, 21, .dlcF11⟩]

/-- The header rows of 29-bit frames. -/
def headerRows29 : List RoleRow :=
  [⟨0x2400, 0xFC00, 14, 31, .idx⟩,
   ⟨0x2400, 0xFC00, 32, 32, fun _ => .b32⟩,
   ⟨0x2400, 0xFC00, 33, 33, fun _ => .fdfE⟩,
   ⟨0x2400, 0xFC00, 34, 34, fun _ => .resE⟩,
   ⟨0x2400, 0xFE00, 35, 38, .dlcC29⟩,
   ⟨0x2600, 0xFE00, 35, 35, fun _ => .brsF29⟩,
   ⟨0x2600, 0xFE00, 36, 36, fun _ => .esiF29⟩,
   ⟨0x2600, 0xFE00, 37, 40, .dlcF29⟩]

/-- The rows of the DATA, CRC and TRAILER phases. -/
def tailRows : List RoleRow :=
  [⟨0x4000, 0xF800, 0, 7, .data⟩,
   ⟨0x6000, 0xFA00, 0, 14, .crcC⟩,
   ⟨0x6200, 0xFA00, 0, 2, .stc⟩,
   ⟨0x6200, 0xFA00, 3, 3, fun _ => .par⟩,
   ⟨0x6200, 0xFA00, 4, 24, .crcFd⟩,
   ⟨0x8000, 0xF800, 0, 0, fun _ => .dl1⟩,
   ⟨0x8000, 0xF800, 1, 1, fun _ => .ack⟩,
   ⟨0x8000, 0xF800, 2, 2, fun _ => .dl2⟩,
   ⟨0x8000, 0xF800, 3, 9, .eof⟩]

/-- The role table in the order of 30_encoding.md R58. -/
def roleTable : List RoleRow :=
  stuffingRows ++ headerRows11 ++ headerRows29 ++ tailRows

/-- The role of a key: the row of the table that accepts it (30_encoding.md R58; the rows are disjoint). -/
def decode (k : Key) : Except DecodeReject Instr :=
  match roleTable.find? (fun r => r.accepts k) with
  | some r => .ok (r.role (Key.index k))
  | none => .error .noRow

/-- A key of the given pattern with the given index in `K[5:0]`. -/
def keyOf (pattern : Key) (index : KeyIndex) : Key := pattern ||| index.setWidth 16

/-- A key of a role: its row's `match` value with the role's index in `K[5:0]` (30_encoding.md R58). The bits the
row's mask leaves out are 0. -/
def encode : Instr → Key
  | .dstuff => keyOf 0x1000 0
  | .fsb => keyOf 0x6A00 0
  | .sof => keyOf 0x2000 0
  | .id index => keyOf 0x2000 index
  | .b12 => keyOf 0x2000 12
  | .ide => keyOf 0x2000 13
  | .fdfB => keyOf 0x2000 14
  | .dlcC11 index => keyOf 0x2000 index
  | .resF11 => keyOf 0x2200 15
  | .brsF11 => keyOf 0x2200 16
  | .esiF11 => keyOf 0x2200 17
  | .dlcF11 index => keyOf 0x2200 index
  | .idx index => keyOf 0x2400 index
  | .b32 => keyOf 0x2400 32
  | .fdfE => keyOf 0x2400 33
  | .resE => keyOf 0x2400 34
  | .dlcC29 index => keyOf 0x2400 index
  | .brsF29 => keyOf 0x2600 35
  | .esiF29 => keyOf 0x2600 36
  | .dlcF29 index => keyOf 0x2600 index
  | .data index => keyOf 0x4000 index
  | .crcC index => keyOf 0x6000 index
  | .stc index => keyOf 0x6200 index
  | .par => keyOf 0x6200 3
  | .crcFd index => keyOf 0x6200 index
  | .dl1 => keyOf 0x8000 0
  | .ack => keyOf 0x8000 1
  | .dl2 => keyOf 0x8000 2
  | .eof index => keyOf 0x8000 index

/-- The decoder on a word numbered as spec/opcode_table.json numbers it. A key is one 16-bit word, so a word
with a bit above bit 15 is none; a row shorter than 16 bits has zeros above. -/
def decodeTableWord (nbits w : Nat) : Option Instr :=
  if nbits ≤ 16 ∧ w < 2 ^ 16 then (decode (BitVec.ofNat 16 w)).toOption else none

end Sys2Proof
end

