-- ==== Sys2Proof/Config.lean ====
section
/-! DEFINITION. What no rule fixes: the one free value of the model.
The parameters of a run (00_scope.md R5) are supplied by the host for each run and stand in `Machine.Params`. -/

namespace Sys2Proof.Config

/-- FREE VALUE (93_implementation_defined.md I12, "Any value may be stored"): what timing register number
`register` (0 `steadyStart`, 1 `samplePoint`, 2 `steadyEnd`, 3 `bitEnd`) of a frame whose start-of-frame edge
is at sample `sof` holds before the frame's first `begin` writes it (70_reset_and_hazards.md R145).
It has no body, so nothing can be proved of it; no rule reads it. Assumption log 3. -/
opaque timingBeforeBegin (register sof : Nat) : Rat

end Sys2Proof.Config
end

