-- ==== Sys2Proof/Machine/State.lean ====
section
/-! DEFINITION. The state of the block (10_state.md), as plain data, and the state after reset. -/

namespace Sys2Proof.Machine

/-- The sample memory `RAW` (20_memory.md R32): its cells in strictly rising order of sample index. A sample with
no cell reads as the fixed byte `Memory.unlisted` (Ops.lean), and no cell holds that byte, so a capture has
exactly one form. Assumption log 2. -/
abbrev Memory := List Host.Cell

/-- `run.mode` (10_state.md R16): what the next step does. -/
inductive Mode where
  | search
  | frame
  | done
  deriving DecidableEq, Repr

/-- `run.status` (10_state.md R16): the outcome of the run. -/
inductive Status where
  | running
  | completed
  | exhausted
  | aborted
  deriving DecidableEq, Repr

/-- `rate` (10_state.md R19): the active bit rate. -/
inductive Rate where
  | std
  | fd
  deriving DecidableEq, Repr

/-- `phase` (10_state.md R20): the state of the frame state machine. -/
inductive Phase where
  | header
  | data
  | crc
  | trailer
  | finished
  deriving DecidableEq, Repr

/-- A CRC width, 15, 17 or 21 (10_state.md R24, 45_crc.md R116). -/
inductive CrcWidth where
  | w15
  | w17
  | w21
  deriving DecidableEq, Repr

/-- The class of a CRC history entry (10_state.md R28). -/
inductive HistClass where
  | field
  | dstuff
  | payload
  deriving DecidableEq, Repr

/-- The name of a wire bit in row 1 (30_encoding.md R63). -/
inductive BitName where
  | sof
  | id (n : Nat)
  | rtr
  | srr
  | rrs
  | ide
  | fdf
  | r0
  | r1
  | res
  | brs
  | esi
  | dlc (n : Nat)
  | d (n : Nat)
  | stuff
  | fsb
  | sc (n : Nat)
  | par
  | crc (n : Nat)
  | dl1
  | ack
  | dl2
  | eof (n : Nat)
  deriving DecidableEq, Repr

/-- The kind of a field in row 2 (30_encoding.md R62). -/
inductive FieldKind where
  | id
  | dlc
  | data
  | stc
  | crc
  deriving DecidableEq, Repr

/-- An annotation record (30_encoding.md R62): `start` and `stop` are the rule's start and end sample indices,
`index` is the byte number of a DATA field and absent otherwise. -/
structure Annotation (ν : Type) where
  start : Nat
  stop : Nat
  name : ν
  index : Option Nat
  value : Nat
  error : Bool
  deriving DecidableEq, Repr

/-- A row-1 record, one for each wire bit. -/
abbrev BitRecord := Annotation BitName

/-- A row-2 record, one for each field. -/
abbrev FieldRecord := Annotation FieldKind

/-- A packet record (30_encoding.md R64). -/
structure Packet where
  id : BitVec 29
  is29Bit : Bool
  isFD : Bool
  brs : Bool
  rtr : Bool
  esi : Bool
  ack : Bool
  dlc : BitVec 4
  data : List Byte
  crcRecv : Option Nat
  crcCalc : Option Nat
  startSample : Nat
  endSample : Nat
  err : BitVec 6
  row1 : List BitRecord
  row2 : List FieldRecord
  deriving DecidableEq, Repr

/-- The parameters of a decode run (00_scope.md R5), fixed for the whole run: inputs of the host, held in the
state because a step takes nothing else; no step writes them. `abortPolls` lists the polls at which the host's
`ABORT` answers 1 (60_exceptions.md R136). Assumption log 1. -/
structure Params where
  /-- `N`, the number of samples. -/
  sampleCount : Nat
  /-- `IDLE_LEVEL`. -/
  idleLevel : Bool
  /-- `SPB_STD`. -/
  spbStd : Rat
  /-- `SPB_FD`. -/
  spbFd : Rat
  /-- `SPF_STD`. -/
  spfStd : Rat
  /-- `SPF_FD`. -/
  spfFd : Rat
  /-- `PS_PER_SAMPLE`, read by no rule but the range check (60_exceptions.md R140). -/
  psPerSample : Rat
  /-- `P_ACK_STEADY`. -/
  pAckSteady : Rat
  /-- The poll numbers `n` with `ABORT(n) = 1`. -/
  abortPolls : List Nat
  deriving DecidableEq, Repr

/-- The run state (10_state.md R16). -/
structure RunState where
  mode : Mode
  searchFrom : Nat
  pollCount : Nat
  status : Status
  deriving DecidableEq, Repr

/-- The timing context (10_state.md R19). -/
structure Timing where
  rate : Rate
  steadyStart : Rat
  samplePoint : Rat
  steadyEnd : Rat
  bitEnd : Rat
  ackExt : Bool
  deriving DecidableEq, Repr

/-- The position counters (10_state.md R21). -/
structure Position where
  h : Nat
  dbit : Nat
  k : Nat
  j : Nat
  t : Nat
  deriving DecidableEq, Repr

/-- The frame flags (10_state.md R22). -/
structure FrameFlags where
  ide : Bool
  fdf : Bool
  brs : Bool
  esi : Bool
  rtr : Bool
  ack : Bool
  ideKnown : Bool
  fdfKnown : Bool
  deriving DecidableEq, Repr

/-- The provisional header registers (10_state.md R23): a reference to a row-1 record is its place in row 1. -/
structure Provisional where
  b12 : Bool
  b32 : Bool
  a12 : Option Nat
  a32 : Option Nat
  deriving DecidableEq, Repr

/-- The datapath accumulators (10_state.md R24). -/
structure Accumulators where
  idAcc : BitVec 29
  dlcAcc : BitVec 4
  nbytes : Nat
  byteAcc : Byte
  data : List Byte
  crcW : Option CrcWidth
  crcRecv : BitVec 21
  stc : BitVec 3
  par : Bool
  crcRecvOut : Option Nat
  crcCalcOut : Option Nat
  deriving DecidableEq, Repr

/-- The stuff validator's state (10_state.md R25). -/
structure StuffState where
  dynEn : Bool
  runVal : Bool
  runLen : Nat
  dynCount : Nat
  prevBit : Bool
  deriving DecidableEq, Repr

/-- The annotation state (10_state.md R29): a reference to a row-2 record is its place in row 2. -/
structure Notes where
  row1 : List BitRecord
  row2 : List FieldRecord
  curField : Option Nat
  stcField : Option Nat
  startSample : Nat
  deriving DecidableEq, Repr

/-- The frame context (10_state.md R18 to R29): present only while a frame is in progress. -/
structure Frame where
  /-- The bit cursor's sample position (R18). -/
  bitStart : Rat
  phase : Phase
  timing : Timing
  pos : Position
  flags : FrameFlags
  prov : Provisional
  acc : Accumulators
  stuff : StuffState
  /-- Consecutive recessive wire bits (R26). -/
  recRun : Nat
  /-- The error bitset (R27, bits of 30_encoding.md R56). -/
  err : BitVec 6
  /-- The CRC history (R28). -/
  hist : List (Bool × HistClass)
  notes : Notes
  deriving DecidableEq, Repr

/-- The state: the host's inputs (`params`, `raw`) and `S = (run, ctx, out)` (10_state.md R14); `ctx` is absent
while no frame is in progress, and `out` is `out.packets` (R17). -/
structure State where
  params : Params
  raw : Memory
  run : RunState
  ctx : Option Frame
  out : List Packet
  deriving DecidableEq, Repr

/-- Why the machine stops. None of these is one of the block's error flags, which never stop it
(60_exceptions.md R134, R135). -/
inductive Fault where
  /-- Raised by `step` in mode `DONE`: the run has ended and there is no further step (41_frame_fsm.md R77).
  Safe: the state before the step is the run's final state. -/
  | runEnded
  /-- Raised by a role or by `step` in mode `FRAME` when there is no frame context
  (93_implementation_defined.md I11: "a read is a `fault`"). Safe: no run reaches it. -/
  | noFrameContext
  /-- Raised by a role applied where the sample point lies beyond the capture (20_memory.md R33: `RAW[i]` is
  defined for `i ≤ N-1` only). Safe: `step` ends the run first (40_bit_timing.md R69). -/
  | sampleBeyondCapture
  /-- Raised by `step` when no row of the role table accepts the dispatch key (30_encoding.md R58: "a model may
  treat it as an unreachable fault"). Safe: no run reaches it. -/
  | keyWithoutRow
  /-- Raised by a CRC role that needs the CRC width while `crcW = none`: the rule has no value to compute with.
  Safe: CRC-phase entry always selects a width (43_data_crc_trailer.md R99), so no run reaches it. -/
  | crcWidthUnselected
  deriving DecidableEq, Repr

/-- What the machine refuses. -/
inductive Refusal where
  /-- Raised by `exec` for a role without a meaning: none is left. Safe. -/
  | notModelled (mnemonic : String)
  /-- Raised by `step` when a parameter or a sample is out of the range of 00_scope.md R5: "a model refuses it
  before the first step" (R7). Safe. -/
  | parametersOutOfRange
  deriving DecidableEq, Repr

/-- The parameters of the model's reset state: an empty capture under the configuration the spec's vectors use
throughout, `cfgA` (95_test_vectors.md §0), one picosecond a sample and no abort. DESIGN CHOICE (unsafe): the
spec gives no parameter a value. Assumption log 1. -/
def Params.initial : Params where
  sampleCount := 0
  idleLevel := true
  spbStd := 10
  spbFd := 10
  spfStd := mkRat 7 10
  spfFd := mkRat 7 10
  psPerSample := 1
  pAckSteady := mkRat 1 2
  abortPolls := []

/-- The run state at run start (70_reset_and_hazards.md R144). -/
def RunState.initial : RunState where
  mode := .search
  searchFrom := 0
  pollCount := 0
  status := .running

/-- Run reset with the inputs of a run (70_reset_and_hazards.md R144): no frame context, no output. -/
def State.start (params : Params) (raw : Memory) : State where
  params := params
  raw := raw
  run := .initial
  ctx := none
  out := []

/-- The machine right after reset: run reset (70_reset_and_hazards.md R144) with an empty capture. -/
def State.reset : State := State.start .initial []

end Sys2Proof.Machine
end

