-- ==== Sys2Proof/Machine/Flags.lean ====
section
/-! DEFINITION. The error flags: their bits and the conditions that set them
(30_encoding.md R56, 46_errors_emitter.md R124). -/

namespace Sys2Proof.Machine

/-- The six error flags (30_encoding.md R56). -/
inductive ErrorFlag where
  | timing
  | crc
  | bitStatus
  | dynamicStuffing
  | fixedStuffing
  | stuffCountOrParity
  deriving DecidableEq, Repr

/-- The bit position of a flag in `err` (30_encoding.md R56). -/
def ErrorFlag.bit : ErrorFlag → Nat
  | .timing => 0
  | .crc => 1
  | .bitStatus => 2
  | .dynamicStuffing => 3
  | .fixedStuffing => 4
  | .stuffCountOrParity => 5

/-- `1 << bit(e)` (46_errors_emitter.md R123). -/
def ErrorFlag.mask (e : ErrorFlag) : BitVec 6 := 1#6 <<< e.bit

/-- The even parity over the three Gray bits of the stuff count (30_encoding.md R55). -/
def grayParity (g : BitVec 3) : Bool :=
  g.getLsbD 2 ^^ g.getLsbD 1 ^^ g.getLsbD 0

/-- `gray_decode(g)` (30_encoding.md R55). -/
def grayDecode (g : BitVec 3) : Nat :=
  let b2 := g.getLsbD 2
  let b1 := b2 ^^ g.getLsbD 1
  let b0 := b1 ^^ g.getLsbD 0
  4 * b2.toNat + 2 * b1.toNat + b0.toNat

/-- The stuff count as it is transmitted, the Gray code of `count mod 8` (table of 30_encoding.md R55). -/
def grayEncode (count : Nat) : BitVec 3 :=
  match count % 8 with
  | 0 => 0b000
  | 1 => 0b001
  | 2 => 0b011
  | 3 => 0b010
  | 4 => 0b110
  | 5 => 0b111
  | 6 => 0b101
  | _ => 0b100

/-- The stuff-count check at CRC completion fails: the count differs from `dynCount mod 8`, or the parity bit
from the parity of the Gray bits (43_data_crc_trailer.md R104). -/
def stuffCountWrong (f : Frame) : Bool :=
  grayDecode f.acc.stc != f.stuff.dynCount % 8 || f.acc.par != grayParity f.acc.stc

/-- A dynamic stuff bit that continues the run (44_stuffing.md R110). -/
def dynamicStuffWrong (f : Frame) (b : Bool) : Bool := b == f.stuff.runVal

/-- A fixed stuff bit equal to the wire bit before it (44_stuffing.md R113). -/
def fixedStuffWrong (f : Frame) (b : Bool) : Bool := b == f.stuff.prevBit

end Sys2Proof.Machine
end

