-- ==== Sys2Proof/Machine/Ops.lean ====
section
/-! DEFINITION. The named operations over memory and registers: rational arithmetic, the sample memory, edges, the
bit timing engine, the error flags, the annotation records and the run state. -/

namespace Sys2Proof.Machine

/-! ### Exact rationals (00_scope.md R11, R12)

`addQ`, `subQ` and `mulQ` are the exact sum, difference and product: `addQ a b = a + b` and so on
(Laws/Rational.lean). They are written over `mkRat` because the library's operations do not reduce by `decide`. -/

/-- `a + b`. -/
def addQ (a b : Rat) : Rat := mkRat (a.num * b.den + b.num * a.den) (a.den * b.den)

/-- `a - b`. -/
def subQ (a b : Rat) : Rat := mkRat (a.num * b.den - b.num * a.den) (a.den * b.den)

/-- `a * b`. -/
def mulQ (a b : Rat) : Rat := mkRat (a.num * b.num) (a.den * b.den)

/-- `rnd(x) = floor(x + 1/2)` (00_scope.md R12), as a sample index: every quantity of a run is non-negative
(92_eei_decisions.md D3), and a negative one would give 0. -/
def rnd (x : Rat) : Nat := (addQ x (mkRat 1 2)).floor.toNat

/-- A sample index as a sample position. -/
def position (i : Nat) : Rat := mkRat i 1

/-- The indices `i` with `lo ≤ i < hi`, rising. -/
def indices (lo hi : Nat) : List Nat := List.range' lo (hi - lo)

/-! ### Sample memory (20_memory.md) -/

/-- What a sample index without a cell reads as: raw level 1. Every capture has one form with this byte left out;
the host fills every sample before a run (R146), so no sample is unwritten. Assumption log 2. -/
def Memory.unlisted : Byte := 1

/-- `MemRead(i, 1)` (20_memory.md R33). -/
def Memory.read : Memory → Nat → Byte
  | [], _ => Memory.unlisted
  | c :: m, i => if c.1 = i then c.2 else Memory.read m i

/-- The host's fill of one sample before a run (70_reset_and_hazards.md R146). The block itself never writes the
sample memory (20_memory.md R34). -/
def Memory.write : Memory → Nat → Byte → Memory
  | [], i, v => if v = Memory.unlisted then [] else [(i, v)]
  | c :: m, i, v =>
    if c.1 < i then c :: Memory.write m i v
    else if c.1 = i then (if v = Memory.unlisted then m else (i, v) :: m)
    else if v = Memory.unlisted then c :: m
    else (i, v) :: c :: m

/-- The canonical form of the sample memory: indices strictly rising from `low`, and no cell holds the byte an
unlisted index reads as. -/
def Memory.wfFrom : Nat → Memory → Bool
  | _, [] => true
  | low, c :: m => decide (low ≤ c.1) && decide (c.2 ≠ Memory.unlisted) && Memory.wfFrom (c.1 + 1) m

/-- The sample memory is in its canonical form. -/
def Memory.wf (m : Memory) : Bool := Memory.wfFrom 0 m

/-- The cells of a list of raw samples that begins at index `i`. -/
def Memory.ofSamplesFrom : Nat → List Bool → Memory
  | _, [] => []
  | i, true :: samples => Memory.ofSamplesFrom (i + 1) samples
  | i, false :: samples => (i, 0) :: Memory.ofSamplesFrom (i + 1) samples

/-- The sample memory that holds the given raw samples from index 0. -/
def Memory.ofSamples (samples : List Bool) : Memory := Memory.ofSamplesFrom 0 samples

/-- `a ≤ x ≤ b`. -/
def between (x a b : Rat) : Bool := decide (a ≤ x) && decide (x ≤ b)

/-- Every parameter is in its range (00_scope.md R5, R7). -/
def Params.inRange (p : Params) : Bool :=
  decide (0 < p.spbStd) && decide (0 < p.spbFd) &&
  between p.spfStd (mkRat 1 2) (mkRat 9 10) && between p.spfFd (mkRat 1 2) (mkRat 9 10) &&
  decide (0 < p.psPerSample) && between p.pAckSteady (mkRat 1 5) (mkRat 4 5)

/-- Every listed sample is a sample of the capture and is 0 or 1 (00_scope.md R7). -/
def captureInRange (count : Nat) (m : Memory) : Bool :=
  m.all (fun c => decide (c.1 < count) && (decide (c.2 = 0) || decide (c.2 = 1)))

/-- A run with these inputs is not refused (00_scope.md R7). -/
def State.runnable (s : State) : Bool :=
  s.params.inRange && captureInRange s.params.sampleCount s.raw

/-- The raw byte of a level. -/
def rawOf (level : Bool) : Byte := if level then 1 else 0

/-- `L(i)`, the wire level of sample `i`: 1 (recessive) when `RAW[i] = IDLE_LEVEL` (30_encoding.md R45). -/
def level (s : State) (i : Nat) : Bool := Memory.read s.raw i == rawOf s.params.idleLevel

/-- `Edge(i)` (40_bit_timing.md R66). -/
def edge (s : State) (i : Nat) : Bool :=
  decide (1 ≤ i) && decide (i < s.params.sampleCount) && (level s i != level s (i - 1))

/-- `DomEdge(i)`, a recessive-to-dominant edge (40_bit_timing.md R66). -/
def domEdge (s : State) (i : Nat) : Bool :=
  decide (1 ≤ i) && decide (i < s.params.sampleCount) && (level s (i - 1) && !level s i)

/-! ### Bit timing engine (40_bit_timing.md) -/

/-- The samples-per-bit of a rate (10_state.md R19). -/
def Params.spb (p : Params) : Rate → Rat
  | .std => p.spbStd
  | .fd => p.spbFd

/-- The sample-point fraction of a rate (10_state.md R19). -/
def Params.spf (p : Params) : Rate → Rat
  | .std => p.spfStd
  | .fd => p.spfFd

/-- The timing registers after `begin(start)` (40_bit_timing.md R67, R68). -/
def beginTiming (p : Params) (start : Rat) (t : Timing) : Timing where
  rate := t.rate
  steadyStart := addQ start (mulQ (p.spb t.rate) (if t.ackExt then p.pAckSteady else mkRat 1 5))
  samplePoint := addQ start (mulQ (p.spb t.rate) (p.spf t.rate))
  steadyEnd := addQ start (mulQ (p.spb t.rate) (mkRat 4 5))
  bitEnd := addQ start (p.spb t.rate)
  ackExt := false

/-- `begin(bitStart)` (40_bit_timing.md R67). -/
def beginBit (p : Params) (f : Frame) : Frame :=
  { f with timing := beginTiming p f.bitStart f.timing }

/-- The rate `switchRate` selects (40_bit_timing.md R71). -/
def rateOf (toHigh : Bool) : Rate := if toHigh then .fd else .std

/-- `switchRate(toHigh)` (40_bit_timing.md R71). -/
def switchRate (p : Params) (toHigh : Bool) (f : Frame) : Frame :=
  { f with
    timing :=
      { f.timing with
        rate := rateOf toHigh
        steadyEnd := f.timing.samplePoint
        bitEnd := addQ f.timing.samplePoint (mulQ (p.spb (rateOf toHigh)) (subQ 1 (p.spf (rateOf toHigh))))
        ackExt := if toHigh then f.timing.ackExt else true } }

/-- The resynchronising edge of a bit, if there is one (40_bit_timing.md R72). -/
def resyncEdge (s : State) (f : Frame) : Option Nat :=
  (indices (rnd f.timing.samplePoint + 1)
    (min (rnd (addQ f.timing.bitEnd (mulQ (s.params.spb f.timing.rate) (mkRat 1 5)))) s.params.sampleCount)).find?
      (domEdge s)

/-- Resynchronisation (40_bit_timing.md R72). -/
def resync (s : State) (f : Frame) : Frame :=
  match resyncEdge s f with
  | none => f
  | some e => { f with timing := { f.timing with bitEnd := position e } }

/-- The signal changes inside the steady window of the bit (40_bit_timing.md R73). -/
def steadyViolated (s : State) (f : Frame) : Bool :=
  (indices (rnd f.timing.steadyStart + 1)
    (min (min (rnd f.timing.steadyEnd) (rnd f.timing.bitEnd) + 1) s.params.sampleCount)).any (edge s)

/-- The sample memory is exhausted for the bit (40_bit_timing.md R69): `rnd(samplePoint) > N - 1`. -/
def exhausted (p : Params) (f : Frame) : Bool := decide (p.sampleCount ≤ rnd f.timing.samplePoint)

/-- The advance to the next bit (40_bit_timing.md R74). -/
def advance (f : Frame) : Frame := { f with bitStart := f.timing.bitEnd }

/-! ### Annotation records (46_errors_emitter.md R126) -/

/-- The record with its error mark set. -/
def Annotation.marked {ν : Type} (a : Annotation ν) : Annotation ν := { a with error := true }

/-- The place of the current bit's row-1 record, the last one. -/
def Notes.currentBit (n : Notes) : Option Nat :=
  match n.row1.length with
  | 0 => none
  | i + 1 => some i

/-- A change of the row-1 record a reference names; a reference that is `none` names no record. -/
def Notes.changeBit (ref : Option Nat) (change : BitRecord → BitRecord) (n : Notes) : Notes :=
  match ref with
  | none => n
  | some i => { n with row1 := n.row1.modify i change }

/-- A change of the row-2 record a reference names; a reference that is `none` names no record. -/
def Notes.changeField (ref : Option Nat) (change : FieldRecord → FieldRecord) (n : Notes) : Notes :=
  match ref with
  | none => n
  | some i => { n with row2 := n.row2.modify i change }

/-- The error mark on a row-1 record. -/
def Notes.markBit (ref : Option Nat) (n : Notes) : Notes := n.changeBit ref Annotation.marked

/-- The error mark on the current bit's record. -/
def Notes.markCurrent (n : Notes) : Notes := n.markBit n.currentBit

/-- The error mark on the field being accumulated. -/
def Notes.markCurField (n : Notes) : Notes := n.changeField n.curField Annotation.marked

/-- The error mark on the stuff-count field. -/
def Notes.markStcField (n : Notes) : Notes := n.changeField n.stcField Annotation.marked

/-- A renaming of a row-1 record. -/
def Notes.renameBit (ref : Option Nat) (name : BitName) (n : Notes) : Notes :=
  n.changeBit ref (fun a => { a with name := name })

/-- The name of an identifier bit once IDE = 1 is read: `ID<n>` becomes `ID<n+18>` (42_header.md R90). -/
def BitName.extended : BitName → BitName
  | .id n => .id (n + 18)
  | name => name

/-- The renaming of the identifier bits read so far (42_header.md R90). -/
def Notes.renameIds (n : Notes) : Notes :=
  { n with row1 := n.row1.map (fun a => { a with name := a.name.extended }) }

/-- A new row-2 field opened with the current bit's record (46_errors_emitter.md R126). -/
def openField (kind : FieldKind) (index : Option Nat) (value : Nat) (f : Frame) : Frame :=
  match f.notes.row1.getLast? with
  | none => f
  | some a =>
    { f with
      notes :=
        { f.notes with
          row2 := f.notes.row2 ++ [⟨a.start, a.stop, kind, index, value, a.error⟩]
          curField := some f.notes.row2.length } }

/-- The current field extended with the current bit's record (46_errors_emitter.md R126). -/
def extendField (value : Nat) (f : Frame) : Frame :=
  match f.notes.row1.getLast? with
  | none => f
  | some a =>
    { f with
      notes := f.notes.changeField f.notes.curField
        (fun r => { r with stop := a.stop, value := value, error := r.error || a.error }) }

/-! ### Error flags: the block's only "raise" (46_errors_emitter.md R123, 60_exceptions.md R135)

There is no trap entry, no saved state and no trap return: setting a flag is all that an exception does. -/

/-- `SetError(e, a)` (46_errors_emitter.md R123): the flag, and the error mark of one record given as `mark`
(`id` for `SetError(e)`). -/
def setError (e : ErrorFlag) (mark : Notes → Notes) (f : Frame) : Frame :=
  { f with err := f.err ||| e.mask, notes := mark f.notes }

/-- `SetError(e, a)` when a condition holds. -/
def setErrorIf (condition : Bool) (e : ErrorFlag) (mark : Notes → Notes) (f : Frame) : Frame :=
  if condition then setError e mark f else f

/-- The steady-window check (40_bit_timing.md R73). -/
def steadyCheck (s : State) (f : Frame) : Frame :=
  setErrorIf (steadyViolated s f) .timing Notes.markCurrent f

/-! ### Run state (41_frame_fsm.md, 46_errors_emitter.md, 60_exceptions.md, 70_reset_and_hazards.md) -/

/-- `ABORT(n)` (60_exceptions.md R136). -/
def Params.abort (p : Params) (n : Nat) : Bool := p.abortPolls.contains n

/-- `abort_take()` (46_errors_emitter.md R131). -/
def abortTake (s : State) : State :=
  { s with run := { s.run with status := .aborted, mode := .done }, ctx := none }

/-- `abort_poll()` (60_exceptions.md R136). -/
def abortPoll (s : State) : State :=
  let polled := { s with run := { s.run with pollCount := s.run.pollCount + 1 } }
  if s.params.abort s.run.pollCount then abortTake polled else polled

/-- Exhaustion (46_errors_emitter.md R130): the frame in progress is discarded. -/
def exhaust (s : State) : State :=
  { s with run := { s.run with status := .exhausted, mode := .done }, ctx := none }

/-- The end of a search that finds no edge (41_frame_fsm.md R78). -/
def complete (s : State) : State :=
  { s with run := { s.run with status := .completed, mode := .done }, ctx := none }

/-- The packet of a frame (46_errors_emitter.md R129). -/
def packetOf (f : Frame) : Packet where
  id := f.acc.idAcc
  is29Bit := f.flags.ide
  isFD := f.flags.fdf
  brs := f.flags.brs
  rtr := f.flags.rtr
  esi := f.flags.esi
  ack := f.flags.ack
  dlc := f.acc.dlcAcc
  data := f.acc.data
  crcRecv := f.acc.crcRecvOut
  crcCalc := f.acc.crcCalcOut
  startSample := f.notes.startSample
  endSample := rnd f.timing.bitEnd
  err := f.err
  row1 := f.notes.row1
  row2 := f.notes.row2

/-- `Emit()` (46_errors_emitter.md R129, 41_frame_fsm.md R79). -/
def emit (s : State) (f : Frame) : State :=
  { s with
    out := s.out ++ [packetOf f]
    run := { s.run with searchFrom := rnd f.timing.bitEnd, mode := .search }
    ctx := none }

/-- The frame context `frame_reset(sof)` builds (70_reset_and_hazards.md R145). The four timing registers are not
written by it (93_implementation_defined.md I12): they hold free values until the first `begin`. -/
def frameReset (sof : Nat) : Frame where
  bitStart := position sof
  phase := .header
  timing :=
    { rate := .std
      steadyStart := Config.timingBeforeBegin 0 sof
      samplePoint := Config.timingBeforeBegin 1 sof
      steadyEnd := Config.timingBeforeBegin 2 sof
      bitEnd := Config.timingBeforeBegin 3 sof
      ackExt := false }
  pos := { h := 0, dbit := 0, k := 0, j := 0, t := 0 }
  flags :=
    { ide := false, fdf := false, brs := false, esi := false, rtr := false, ack := false,
      ideKnown := false, fdfKnown := false }
  prov := { b12 := false, b32 := false, a12 := none, a32 := none }
  acc :=
    { idAcc := 0, dlcAcc := 0, nbytes := 0, byteAcc := 0, data := [], crcW := none, crcRecv := 0, stc := 0,
      par := false, crcRecvOut := none, crcCalcOut := none }
  stuff := { dynEn := true, runVal := true, runLen := 0, dynCount := 0, prevBit := true }
  recRun := 0
  err := 0
  hist := []
  notes := { row1 := [], row2 := [], curField := none, stcField := none, startSample := sof }

/-- The edge a start-of-frame search finds (41_frame_fsm.md R78). -/
def sofEdge (s : State) : Option Nat :=
  (indices (max 1 s.run.searchFrom) s.params.sampleCount).find? (domEdge s)

/-- The end of a search whose poll did not abort (41_frame_fsm.md R78). -/
def findFrame (s : State) : State :=
  match sofEdge s with
  | none => complete s
  | some sof => { s with run := { s.run with mode := .frame }, ctx := some (frameReset sof) }

/-- The start-of-frame search (41_frame_fsm.md R78). -/
def searchStep (s : State) : State :=
  if s.params.abort s.run.pollCount then abortPoll s else findFrame (abortPoll s)

end Sys2Proof.Machine
end

