-- ==== Sys2Proof/Machine/Operands.lean ====
section
/-! DEFINITION. The operand of a role (the sampled bit), the shift registers it goes into, the tables that expand
what they hold, and the dispatch key formed from the registers. -/

namespace Sys2Proof.Machine

/-- The frame context of a state, which exists in mode `FRAME` only (10_state.md R14, R31). -/
def State.frame? (s : State) : Option Frame :=
  match s.run.mode with
  | .frame => s.ctx
  | .search => none
  | .done => none

/-- `b = L(rnd(samplePoint))`, the operand of every role (40_bit_timing.md R70); none where the sample lies
beyond the capture. -/
def sampleBit (s : State) (f : Frame) : Option Bool :=
  if exhausted s.params f then none else some (level s (rnd f.timing.samplePoint))

/-- `acc <- (acc << 1) or b`, kept in width (20_memory.md R35, 30_encoding.md R59). -/
def shiftIn {n : Nat} (acc : BitVec n) (b : Bool) : BitVec n := (acc <<< 1) ||| BitVec.ofNat n b.toNat

/-- `HL`, the header length in field bits of the template the IDE and FDF bits select (30_encoding.md R49). -/
def headerLength (ide fdf : Bool) : Nat :=
  match ide, fdf with
  | false, false => 19
  | false, true => 22
  | true, false => 39
  | true, true => 41

/-- `bytecount(fdf, d)` (30_encoding.md R54). -/
def byteCount (fdf : Bool) (d : BitVec 4) : Nat :=
  if d.toNat ≤ 8 then d.toNat
  else if fdf then
    match d.toNat with
    | 9 => 12
    | 10 => 16
    | 11 => 20
    | 12 => 24
    | 13 => 32
    | 14 => 48
    | _ => 64
  else 8

/-- The class of a wire bit (41_frame_fsm.md R81). -/
inductive BitClass where
  | field
  | dstuff
  | fsb
  deriving DecidableEq, Repr

/-- The class under which a wire bit enters the CRC history: a fixed stuff bit never does
(10_state.md R28, 44_stuffing.md R113). -/
def BitClass.hist : BitClass → Option HistClass
  | .field => some .field
  | .dstuff => some .dstuff
  | .fsb => none

/-- The bit is a dynamic stuff bit (44_stuffing.md R109). -/
def isDynamicStuff (f : Frame) : Bool := f.stuff.dynEn && f.stuff.runLen == 5

/-- The bit is a fixed stuff bit, when it is no dynamic one (44_stuffing.md R112). -/
def isFixedStuff (f : Frame) : Bool := f.phase == .crc && f.flags.fdf && f.pos.k % 5 == 0

/-- The classification of a wire bit (41_frame_fsm.md R81, 44_stuffing.md R109, R112). -/
def classify (f : Frame) : BitClass :=
  if isDynamicStuff f then .dstuff else if isFixedStuff f then .fsb else .field

/-- The encoding of a phase in `K[15:13]` (10_state.md R20, 30_encoding.md R57). -/
def Phase.code : Phase → BitVec 3
  | .header => 1
  | .data => 2
  | .crc => 3
  | .trailer => 4
  | .finished => 5

/-- The counter that gives `K[5:0]` (30_encoding.md R57). In phase `FINISHED` no bit is processed (R83). -/
def positionCounter (f : Frame) : Nat :=
  match f.phase with
  | .header => f.pos.h
  | .data => f.pos.dbit % 8
  | .crc => f.pos.j
  | .trailer => f.pos.t
  | .finished => f.pos.t

/-- The fields of a dispatch key put together (30_encoding.md R57); `K[8:6]` is 0. -/
def packKey (phase : BitVec 3) (stuffBit fixedBit ide fdf : Bool) (index : KeyIndex) : Key :=
  phase ++ BitVec.ofBool stuffBit ++ BitVec.ofBool fixedBit ++ BitVec.ofBool ide ++ BitVec.ofBool fdf ++ 0#3 ++ index

/-- The dispatch key of the current bit (30_encoding.md R57). The counter fits in the six bits in every state a
run reaches (10_state.md R21); its low six bits are taken. -/
def dispatchKey (f : Frame) : Key :=
  packKey f.phase.code (classify f == .dstuff) (classify f == .fsb) f.flags.ide f.flags.fdf
    (BitVec.ofNat 6 (positionCounter f))

end Sys2Proof.Machine
end

