-- ==== Sys2Proof/Machine/Crc.lean ====
section
/-! DEFINITION. The CRC engine (45_crc.md). -/

namespace Sys2Proof.Machine

/-- The width `w` of a variant (45_crc.md R116). -/
def CrcWidth.bits : CrcWidth → Nat
  | .w15 => 15
  | .w17 => 17
  | .w21 => 21

/-- The polynomial of a variant, without its `x^w` term (45_crc.md R116). -/
def CrcWidth.poly : CrcWidth → BitVec 21
  | .w15 => 0x4599
  | .w17 => 0x1685B
  | .w21 => 0x102899

/-- The initial value of a variant (45_crc.md R116). -/
def CrcWidth.init : CrcWidth → BitVec 21
  | .w15 => 0x0000
  | .w17 => 0x10000
  | .w21 => 0x100000

/-- `hiMask = 2^(w-1)` (45_crc.md R116). -/
def CrcWidth.hiMask : CrcWidth → BitVec 21
  | .w15 => 0x4000
  | .w17 => 0x10000
  | .w21 => 0x100000

/-- `wMask = 2^w - 1` (45_crc.md R116). -/
def CrcWidth.wMask : CrcWidth → BitVec 21
  | .w15 => 0x7FFF
  | .w17 => 0x1FFFF
  | .w21 => 0x1FFFFF

/-- `crc_step(w, reg, b)` (45_crc.md R117), in a register of the widest variant's 21 bits. -/
def crcStep (w : CrcWidth) (reg : BitVec 21) (b : Bool) : BitVec 21 :=
  let highest := reg &&& w.hiMask != 0
  let shifted := (reg <<< 1) &&& w.wMask
  if highest ^^ b then shifted ^^^ w.poly else shifted

/-- `crc_over(w, s)` (45_crc.md R118). -/
def crcOver (w : CrcWidth) (bits : List Bool) : BitVec 21 := bits.foldl (crcStep w) w.init

/-- `crc_select(fdf, nbytes)` (45_crc.md R119). -/
def crcSelect (fdf : Bool) (nbytes : Nat) : CrcWidth :=
  if fdf then (if nbytes ≤ 16 then .w17 else .w21) else .w15

/-- The history entries a variant's CRC runs over (45_crc.md R120). -/
def HistClass.inCrc (fdf : Bool) : HistClass → Bool
  | .field => true
  | .dstuff => fdf
  | .payload => fdf

/-- `crc_input(fdf, hist)` (45_crc.md R120). -/
def crcInput (fdf : Bool) (hist : List (Bool × HistClass)) : List Bool :=
  (hist.filter (fun e => e.2.inCrc fdf)).map Prod.fst

end Sys2Proof.Machine
end

