-- ==== Sys2Proof/Machine/BitStep.lean ====
section
/-! DEFINITION. The bit step that every role shares (41_frame_fsm.md R80, R81). -/

namespace Sys2Proof.Machine

/-- The result of a field action: the frame, and whether the action completed a field (41_frame_fsm.md R80, R85). -/
abbrev FieldResult := Except Fault (Frame × Bool)

/-- What a role's rule gives (41_frame_fsm.md R80): the class of its bits, the name of its row-1 record, its
sample-point action and its field action. The field action's `a.name <- …` gives the record the name it was
appended with, so `name` stands for both (30_encoding.md R63). -/
structure RoleRule where
  cls : BitClass
  name : Frame → Bool → BitName
  samplePointAction : Params → Bool → Frame → Frame
  fieldAction : Bool → Frame → FieldResult

/-- A role without a sample-point action (41_frame_fsm.md R80). -/
def noSamplePointAction (_ : Params) (_ : Bool) (f : Frame) : Frame := f

/-- A field action that completes no field. -/
def fieldOngoing (f : Frame) : FieldResult := .ok (f, false)

/-- The row-1 record of the bit is appended (41_frame_fsm.md R81). -/
def annotate (name : BitName) (b : Bool) (f : Frame) : Frame :=
  { f with
    notes :=
      { f.notes with
        row1 := f.notes.row1 ++ [⟨rnd f.bitStart, rnd f.timing.bitEnd, name, none, b.toNat, false⟩] } }

/-- `run_update(cls, b)` (44_stuffing.md R111). -/
def runUpdate (cls : BitClass) (b : Bool) (st : StuffState) : StuffState :=
  if cls == .dstuff || b != st.runVal then { st with runVal := b, runLen := 1 }
  else { st with runLen := st.runLen + 1 }

/-- The stuff validator after a bit (41_frame_fsm.md R81, 44_stuffing.md R111): the run is updated when `dynEn` was 1 before the field
action, and `prevBit` always. -/
def stuffAfterBit (dynWas : Bool) (cls : BitClass) (b : Bool) (st : StuffState) : StuffState :=
  { (if dynWas then runUpdate cls b st else st) with prevBit := b }

/-- The CRC history after a bit (41_frame_fsm.md R81): `ph` is the phase before the field action. -/
def histAfterBit (ph : Phase) (cls : BitClass) (b : Bool) (hist : List (Bool × HistClass)) :
    List (Bool × HistClass) :=
  if ph == .header || ph == .data then
    match cls.hist with
    | some c => hist ++ [(b, c)]
    | none => hist
  else hist

/-- The counters and histories every wire bit updates after its field action (41_frame_fsm.md R81). `before` is
the frame before the field action. -/
def account (before : Frame) (cls : BitClass) (b : Bool) (f : Frame) : Frame :=
  { f with
    stuff := stuffAfterBit before.stuff.dynEn cls b f.stuff
    hist := histAfterBit before.phase cls b f.hist
    pos := { f.pos with k := if before.phase == .crc && f.flags.fdf then f.pos.k + 1 else f.pos.k }
    recRun := if b then f.recRun + 1 else 0 }

/-- The frame ends with this bit (41_frame_fsm.md R81, 46_errors_emitter.md R128). -/
def frameEnds (f : Frame) : Bool := f.phase == .finished || (decide (7 ≤ f.recRun) && f.err != 0)

/-- The poll after a completed field (41_frame_fsm.md R85). -/
def pollAfterField (fieldDone : Bool) (s : State) : State := if fieldDone then abortPoll s else s

/-- The end of a bit step (41_frame_fsm.md R81): the frame is emitted, or after the poll of a completed field
the next bit starts. -/
def closeBit (s : State) (f : Frame) (fieldDone : Bool) : State :=
  if frameEnds f then emit s f else pollAfterField fieldDone { s with ctx := some (advance f) }

/-- The field action and the bookkeeping after it (41_frame_fsm.md R81). -/
def runField (r : RoleRule) (b : Bool) (f : Frame) : FieldResult :=
  match r.fieldAction b f with
  | .error e => .error e
  | .ok (g, fieldDone) => .ok (account f r.cls b g, fieldDone)

/-- The frame when the field action begins: after the sample-point action, the resynchronisation, the row-1
record and the steady-window check (41_frame_fsm.md R81). -/
def beforeField (r : RoleRule) (s : State) (b : Bool) (f : Frame) : Frame :=
  steadyCheck s (annotate (r.name f b) b (resync s (r.samplePointAction s.params b f)))

/-- The bit step from the sampling on, for the bit whose role has the rule `r` (41_frame_fsm.md R81). The state
is the one after `begin`. -/
def bitStep (r : RoleRule) (s : State) : Host.Outcome State Fault Refusal :=
  match s.frame? with
  | none => .fault .noFrameContext
  | some f =>
    match sampleBit s f with
    | none => .fault .sampleBeyondCapture
    | some b =>
      match runField r b (beforeField r s b f) with
      | .error e => .fault e
      | .ok (g, fieldDone) => .next (closeBit s g fieldDone)

end Sys2Proof.Machine
end

