-- ==== Sys2Proof/Machine/CrcPhase.lean ====
section
/-! DEFINITION. The roles of the CRC phase, CRC.C, STC, PAR and CRC.FD, and the phase actions CRC-phase entry and
CRC completion (43_data_crc_trailer.md §2). -/

namespace Sys2Proof.Machine

/-- `crc_entry()` (43_data_crc_trailer.md R99). -/
def crcEntry (f : Frame) : Frame :=
  { f with
    phase := .crc
    acc := { f.acc with crcW := some (crcSelect f.flags.fdf f.acc.nbytes) }
    stuff := { f.stuff with dynEn := if f.flags.fdf then false else f.stuff.dynEn }
    pos := { f.pos with j := 0, k := 0 } }

/-- The computed and the received CRC are reported, and compared (43_data_crc_trailer.md R104). -/
def crcCheck (computed : BitVec 21) (f : Frame) : Frame :=
  setErrorIf (computed != f.acc.crcRecv) .crc Notes.markCurField
    { f with acc := { f.acc with crcRecvOut := some f.acc.crcRecv.toNat, crcCalcOut := some computed.toNat } }

/-- The stuff count and parity are checked in an FD frame (43_data_crc_trailer.md R104). -/
def stuffCountCheck (f : Frame) : Frame :=
  setErrorIf (f.flags.fdf && stuffCountWrong f) .stuffCountOrParity Notes.markStcField f

/-- The end of the CRC phase (43_data_crc_trailer.md R104). -/
def enterTrailer (f : Frame) : Frame :=
  { f with stuff := { f.stuff with dynEn := false }, phase := .trailer }

/-- `crc_complete()` for the selected width (43_data_crc_trailer.md R104). -/
def crcComplete (w : CrcWidth) (f : Frame) : Frame :=
  enterTrailer (stuffCountCheck (crcCheck (crcOver w (crcInput f.flags.fdf f.hist)) f))

/-- A received CRC bit goes into `crcRecv` and into the row-2 CRC field, which the first bit opens
(43_data_crc_trailer.md R100, R103). -/
def crcBit (first : Bool) (b : Bool) (f : Frame) : Frame :=
  let g := { f with acc := { f.acc with crcRecv := shiftIn f.acc.crcRecv b } }
  if first then openField .crc none g.acc.crcRecv.toNat g else extendField g.acc.crcRecv.toNat g

/-- `j <- j + 1`. -/
def nextPayloadBit (f : Frame) : Frame := { f with pos := { f.pos with j := f.pos.j + 1 } }

/-- After a CRC bit: the last one completes the CRC, and with it a field (43_data_crc_trailer.md R100, R103). -/
def finishCrcBit (last : Bool) (f : Frame) : FieldResult :=
  if last then
    match f.acc.crcW with
    | none => .error .crcWidthUnselected
    | some w => .ok (crcComplete w f, true)
  else fieldOngoing f

/-- The rule of CRC.C (43_data_crc_trailer.md R100). -/
def crcCRule : RoleRule where
  cls := .field
  name := fun f _ => .crc (14 - f.pos.j)
  samplePointAction := noSamplePointAction
  fieldAction := fun b f => finishCrcBit (f.pos.j + 1 == 15) (nextPayloadBit (crcBit (f.pos.j == 0) b f))

/-- `Append(hist, (b, PAYLOAD))` (43_data_crc_trailer.md R101, R102). -/
def recordPayload (b : Bool) (f : Frame) : Frame := { f with hist := f.hist ++ [(b, .payload)] }

/-- A stuff-count bit goes into `stc` and into the row-2 STC field, which the first bit opens
(43_data_crc_trailer.md R101). -/
def stcBit (b : Bool) (f : Frame) : Frame :=
  let g := { f with acc := { f.acc with stc := shiftIn f.acc.stc b } }
  if f.pos.j == 0 then
    let opened := openField .stc none g.acc.stc.toNat g
    { opened with notes := { opened.notes with stcField := opened.notes.curField } }
  else extendField g.acc.stc.toNat g

/-- The rule of STC (43_data_crc_trailer.md R101). -/
def stcRule : RoleRule where
  cls := .field
  name := fun f _ => .sc (2 - f.pos.j)
  samplePointAction := noSamplePointAction
  fieldAction := fun b f => fieldOngoing (nextPayloadBit (stcBit b (recordPayload b f)))

/-- The rule of PAR (43_data_crc_trailer.md R102). -/
def parRule : RoleRule where
  cls := .field
  name := fun _ _ => .par
  samplePointAction := noSamplePointAction
  fieldAction := fun b f =>
    .ok
      (nextPayloadBit
        (extendField (grayDecode f.acc.stc) { recordPayload b f with acc := { f.acc with par := b } }), true)

/-- The number `n` of a CRC bit of an FD frame, the first being 0: `n = j - 4` (43_data_crc_trailer.md R103);
0 at `j` below 4 (assumption log 21). -/
def crcFdNumber (f : Frame) : Nat := f.pos.j - 4

/-- The rule of CRC.FD for the selected width (43_data_crc_trailer.md R103). -/
def crcFdRule (w : CrcWidth) : RoleRule where
  cls := .field
  name := fun f _ => .crc (w.bits - 1 - crcFdNumber f)
  samplePointAction := noSamplePointAction
  fieldAction := fun b f =>
    finishCrcBit (crcFdNumber f == w.bits - 1) (nextPayloadBit (crcBit (crcFdNumber f == 0) b f))

/-- CRC.C: a bit of the 15-bit CRC of a Classic frame (43_data_crc_trailer.md R100). -/
def execCrcC (s : State) : Host.Outcome State Fault Refusal := bitStep crcCRule s

/-- STC: a bit of the Gray-coded stuff count (43_data_crc_trailer.md R101). -/
def execStc (s : State) : Host.Outcome State Fault Refusal := bitStep stcRule s

/-- PAR: the parity bit of the stuff count (43_data_crc_trailer.md R102). -/
def execPar (s : State) : Host.Outcome State Fault Refusal := bitStep parRule s

/-- CRC.FD: a bit of the CRC of an FD frame (43_data_crc_trailer.md R103), whose name and last position depend on
the selected width. -/
def execCrcFd (s : State) : Host.Outcome State Fault Refusal :=
  match s.frame? with
  | none => .fault .noFrameContext
  | some f =>
    match f.acc.crcW with
    | none => .fault .crcWidthUnselected
    | some w => bitStep (crcFdRule w) s

end Sys2Proof.Machine
end

