-- ==== Sys2Proof/Machine/Data.lean ====
section
/-! DEFINITION. The role of the DATA phase (43_data_crc_trailer.md §1). -/

namespace Sys2Proof.Machine

/-- A data bit goes into `byteAcc` and into the row-2 field of its byte, which the first bit opens; `dbit`
advances (43_data_crc_trailer.md R98). -/
def dataBit (b : Bool) (f : Frame) : Frame :=
  let g := { f with acc := { f.acc with byteAcc := shiftIn f.acc.byteAcc b } }
  let noted :=
    if f.pos.dbit % 8 == 0 then openField .data (some (f.pos.dbit / 8)) g.acc.byteAcc.toNat g
    else extendField g.acc.byteAcc.toNat g
  { noted with pos := { noted.pos with dbit := noted.pos.dbit + 1 } }

/-- A complete byte is appended; the last one enters the CRC phase (43_data_crc_trailer.md R98). -/
def byteComplete (f : Frame) : Frame :=
  let stored := { f with acc := { f.acc with data := f.acc.data ++ [f.acc.byteAcc], byteAcc := 0 } }
  if stored.acc.data.length == stored.acc.nbytes then crcEntry stored else stored

/-- The rule of DATA (43_data_crc_trailer.md R98). -/
def dataRule : RoleRule where
  cls := .field
  name := fun f _ => .d (7 - f.pos.dbit % 8)
  samplePointAction := noSamplePointAction
  fieldAction := fun b f =>
    if f.pos.dbit % 8 == 7 then .ok (byteComplete (dataBit b f), true) else fieldOngoing (dataBit b f)

/-- DATA: a data bit (43_data_crc_trailer.md R98). -/
def execData (s : State) : Host.Outcome State Fault Refusal := bitStep dataRule s

end Sys2Proof.Machine
end

