-- ==== Sys2Proof/Machine/Header.lean ====
section
/-! DEFINITION. The header roles (42_header.md). -/

namespace Sys2Proof.Machine

/-- After the field action of a header role, `h <- h + 1` unless the action moved the phase out of HEADER
(42_header.md R86). -/
def nextHeaderBit (f : Frame) : Frame :=
  if f.phase == .header then { f with pos := { f.pos with h := f.pos.h + 1 } } else f

/-- The rule of a header role that completes no field and has no sample-point action (42_header.md). -/
def headerRule (name : Frame → Bool → BitName) (action : Bool → Frame → Frame) : RoleRule where
  cls := .field
  name := name
  samplePointAction := noSamplePointAction
  fieldAction := fun b f => fieldOngoing (nextHeaderBit (action b f))

/-! ### Positions common to all templates -/

/-- The rule of SOF (42_header.md R87). -/
def sofRule : RoleRule := headerRule (fun _ _ => .sof) (fun _ f => f)

/-- An identifier bit goes into `idAcc` and into the row-2 ID field, which position 1 opens
(42_header.md R88, R95). -/
def idBit (first : Bool) (b : Bool) (f : Frame) : Frame :=
  let g := { f with acc := { f.acc with idAcc := shiftIn f.acc.idAcc b } }
  if first then openField .id none g.acc.idAcc.toNat g else extendField g.acc.idAcc.toNat g

/-- The rule of ID (42_header.md R88). -/
def idRule : RoleRule :=
  headerRule (fun f _ => .id (11 - f.pos.h)) (fun b f => idBit (f.pos.h == 1) b f)

/-- The rule of B12 (42_header.md R89). -/
def b12Rule : RoleRule :=
  headerRule (fun _ _ => .rtr) (fun b f =>
    { f with
      prov := { f.prov with b12 := b, a12 := f.notes.currentBit }
      flags := { f.flags with rtr := b } })

/-- What IDE = 1 does: the bit at position 12 becomes SRR and is checked, and the identifier bits are renamed
(42_header.md R90). -/
def ideExtended (f : Frame) : Frame :=
  let renamed :=
    { f with
      flags := { f.flags with rtr := false }
      notes := f.notes.renameBit f.prov.a12 .srr }
  let checked := setErrorIf (!f.prov.b12) .bitStatus (Notes.markBit f.prov.a12) renamed
  { checked with notes := checked.notes.renameIds }

/-- The rule of IDE (42_header.md R90). -/
def ideRule : RoleRule :=
  headerRule (fun _ _ => .ide) (fun b f =>
    let known := { f with flags := { f.flags with ide := b, ideKnown := true } }
    if b then ideExtended known else known)

/-! ### Control bits: FDF, reserved, BRS, ESI -/

/-- The name of the FDF position (42_header.md R91). -/
def fdfName (f : Frame) (b : Bool) : BitName :=
  if b then .fdf else if f.flags.ide then .r1 else .r0

/-- The action of FDF (42_header.md R91). -/
def fdfAction (b : Bool) (f : Frame) : Frame :=
  let known := { f with flags := { f.flags with fdf := b, fdfKnown := true } }
  if b then
    { known with
      flags := { known.flags with rtr := false }
      notes := known.notes.renameBit (if f.flags.ide then f.prov.a32 else f.prov.a12) .rrs }
  else known

/-- The rule of FDF.B (42_header.md R91). -/
def fdfBRule : RoleRule := headerRule fdfName fdfAction

/-- The rule of FDF.E (42_header.md R91). -/
def fdfERule : RoleRule := headerRule fdfName fdfAction

/-- The name of a reserved bit (42_header.md R92). -/
def resName (f : Frame) (_ : Bool) : BitName := if f.flags.fdf then .res else .r0

/-- The rule of RES.F11 (42_header.md R92). -/
def resF11Rule : RoleRule := headerRule resName (fun _ f => f)

/-- The rule of RES.E (42_header.md R92). -/
def resERule : RoleRule := headerRule resName (fun _ f => f)

/-- The sample-point action of BRS (42_header.md R93). -/
def brsSamplePointAction (p : Params) (b : Bool) (f : Frame) : Frame := if b then switchRate p true f else f

/-- The rule of BRS (42_header.md R93), shared by its two rows. -/
def brsRule : RoleRule :=
  { headerRule (fun _ _ => .brs) (fun b f => { f with flags := { f.flags with brs := b } }) with
    samplePointAction := brsSamplePointAction }

/-- The rule of ESI (42_header.md R94), shared by its two rows. -/
def esiRule : RoleRule :=
  headerRule (fun _ _ => .esi) (fun b f => { f with flags := { f.flags with esi := b } })

/-! ### Positions of 29-bit frames -/

/-- The rule of IDX (42_header.md R95). -/
def idxRule : RoleRule := headerRule (fun f _ => .id (31 - f.pos.h)) (idBit false)

/-- The rule of B32 (42_header.md R96). -/
def b32Rule : RoleRule :=
  headerRule (fun _ _ => .rtr) (fun b f =>
    { f with
      prov := { f.prov with b32 := b, a32 := f.notes.currentBit }
      flags := { f.flags with rtr := b } })

/-! ### DLC and header completion -/

/-- The number `n = h - (HL - 4)` of a DLC bit, the first being 0 (42_header.md R97); 0 below the DLC positions
(assumption log 21). -/
def dlcNumber (f : Frame) : Nat := f.pos.h - (headerLength f.flags.ide f.flags.fdf - 4)

/-- A DLC bit goes into `dlcAcc` and into the row-2 DLC field, which the first bit opens (42_header.md R97). -/
def dlcBit (b : Bool) (f : Frame) : Frame :=
  let g := { f with acc := { f.acc with dlcAcc := shiftIn f.acc.dlcAcc b } }
  if dlcNumber f == 0 then openField .dlc none g.acc.dlcAcc.toNat g else extendField g.acc.dlcAcc.toNat g

/-- The header is complete: the byte count is known and the data phase is entered or skipped (42_header.md R97). -/
def headerComplete (f : Frame) : Frame :=
  let counted := { f with acc := { f.acc with nbytes := byteCount f.flags.fdf f.acc.dlcAcc } }
  if counted.acc.nbytes == 0 || f.flags.rtr then crcEntry counted else { counted with phase := .data }

/-- The rule of the DLC bits (42_header.md R97), shared by its four rows. -/
def dlcRule : RoleRule where
  cls := .field
  name := fun f _ => .dlc (3 - dlcNumber f)
  samplePointAction := noSamplePointAction
  fieldAction := fun b f =>
    if dlcNumber f == 3 then .ok (nextHeaderBit (headerComplete (dlcBit b f)), true)
    else fieldOngoing (nextHeaderBit (dlcBit b f))

/-! ### Meanings -/

/-- SOF: start of frame (42_header.md R87). -/
def execSof (s : State) : Host.Outcome State Fault Refusal := bitStep sofRule s

/-- ID: one of the first 11 identifier bits (42_header.md R88). -/
def execId (s : State) : Host.Outcome State Fault Refusal := bitStep idRule s

/-- B12: the RTR / SRR / RRS position (42_header.md R89). -/
def execB12 (s : State) : Host.Outcome State Fault Refusal := bitStep b12Rule s

/-- IDE: identifier extension (42_header.md R90). -/
def execIde (s : State) : Host.Outcome State Fault Refusal := bitStep ideRule s

/-- FDF.B: the FDF position of an 11-bit frame (42_header.md R91). -/
def execFdfB (s : State) : Host.Outcome State Fault Refusal := bitStep fdfBRule s

/-- DLC.C11: a DLC bit of a Classic-11 frame (42_header.md R97). -/
def execDlcC11 (s : State) : Host.Outcome State Fault Refusal := bitStep dlcRule s

/-- RES.F11: the reserved bit of an FD-11 frame (42_header.md R92). -/
def execResF11 (s : State) : Host.Outcome State Fault Refusal := bitStep resF11Rule s

/-- BRS.F11: bit rate switch of an FD-11 frame (42_header.md R93). -/
def execBrsF11 (s : State) : Host.Outcome State Fault Refusal := bitStep brsRule s

/-- ESI.F11: error state indicator of an FD-11 frame (42_header.md R94). -/
def execEsiF11 (s : State) : Host.Outcome State Fault Refusal := bitStep esiRule s

/-- DLC.F11: a DLC bit of an FD-11 frame (42_header.md R97). -/
def execDlcF11 (s : State) : Host.Outcome State Fault Refusal := bitStep dlcRule s

/-- IDX: one of the low 18 identifier bits of a 29-bit frame (42_header.md R95). -/
def execIdx (s : State) : Host.Outcome State Fault Refusal := bitStep idxRule s

/-- B32: the RTR / RRS position of a 29-bit frame (42_header.md R96). -/
def execB32 (s : State) : Host.Outcome State Fault Refusal := bitStep b32Rule s

/-- FDF.E: the FDF position of a 29-bit frame (42_header.md R91). -/
def execFdfE (s : State) : Host.Outcome State Fault Refusal := bitStep fdfERule s

/-- RES.E: the reserved bit at position 34 of a 29-bit frame (42_header.md R92). -/
def execResE (s : State) : Host.Outcome State Fault Refusal := bitStep resERule s

/-- DLC.C29: a DLC bit of a Classic-29 frame (42_header.md R97). -/
def execDlcC29 (s : State) : Host.Outcome State Fault Refusal := bitStep dlcRule s

/-- BRS.F29: bit rate switch of an FD-29 frame (42_header.md R93). -/
def execBrsF29 (s : State) : Host.Outcome State Fault Refusal := bitStep brsRule s

/-- ESI.F29: error state indicator of an FD-29 frame (42_header.md R94). -/
def execEsiF29 (s : State) : Host.Outcome State Fault Refusal := bitStep esiRule s

/-- DLC.F29: a DLC bit of an FD-29 frame (42_header.md R97). -/
def execDlcF29 (s : State) : Host.Outcome State Fault Refusal := bitStep dlcRule s

end Sys2Proof.Machine
end

