-- ==== Sys2Proof/Machine/Stuffing.lean ====
section
/-! DEFINITION. The stuff-bit roles DSTUFF and FSB (44_stuffing.md). -/

namespace Sys2Proof.Machine

/-- The rule of DSTUFF (44_stuffing.md R110). -/
def dstuffRule : RoleRule where
  cls := .dstuff
  name := fun _ _ => .stuff
  samplePointAction := noSamplePointAction
  fieldAction := fun b f =>
    fieldOngoing
      (setErrorIf (dynamicStuffWrong f b) .dynamicStuffing Notes.markCurrent
        { f with stuff := { f.stuff with dynCount := f.stuff.dynCount + 1 } })

/-- The rule of FSB (44_stuffing.md R113). -/
def fsbRule : RoleRule where
  cls := .fsb
  name := fun _ _ => .fsb
  samplePointAction := noSamplePointAction
  fieldAction := fun b f =>
    fieldOngoing (setErrorIf (fixedStuffWrong f b) .fixedStuffing Notes.markCurrent f)

/-- DSTUFF: a dynamic stuff bit (44_stuffing.md R110). -/
def execDstuff (s : State) : Host.Outcome State Fault Refusal := bitStep dstuffRule s

/-- FSB: a fixed stuff bit of the FD CRC phase (44_stuffing.md R113). -/
def execFsb (s : State) : Host.Outcome State Fault Refusal := bitStep fsbRule s

end Sys2Proof.Machine
end

