-- ==== Sys2Proof/Machine/Trailer.lean ====
section
/-! DEFINITION. The trailer roles DL1, ACK, DL2 and EOF (43_data_crc_trailer.md §3). -/

namespace Sys2Proof.Machine

/-- `t <- t + 1`. -/
def nextTrailerBit (f : Frame) : Frame := { f with pos := { f.pos with t := f.pos.t + 1 } }

/-- BitStatus on the bit's record when a bit defined recessive reads dominant
(43_data_crc_trailer.md R105, R107, R108). -/
def expectRecessive (b : Bool) (f : Frame) : Frame := setErrorIf (!b) .bitStatus Notes.markCurrent f

/-- The sample-point action of DL1 (43_data_crc_trailer.md R105). -/
def dl1SamplePointAction (p : Params) (_ : Bool) (f : Frame) : Frame :=
  if f.flags.brs then switchRate p false f else f

/-- The rule of DL1 (43_data_crc_trailer.md R105). -/
def dl1Rule : RoleRule where
  cls := .field
  name := fun _ _ => .dl1
  samplePointAction := dl1SamplePointAction
  fieldAction := fun b f => fieldOngoing (nextTrailerBit (expectRecessive b f))

/-- The action of ACK on its flag or on BitStatus (43_data_crc_trailer.md R106). -/
def ackBit (b : Bool) (f : Frame) : Frame :=
  if b then setError .bitStatus Notes.markCurrent f else { f with flags := { f.flags with ack := true } }

/-- The rule of ACK (43_data_crc_trailer.md R106). -/
def ackRule : RoleRule where
  cls := .field
  name := fun _ _ => .ack
  samplePointAction := noSamplePointAction
  fieldAction := fun b f => fieldOngoing (nextTrailerBit (ackBit b f))

/-- The rule of DL2 (43_data_crc_trailer.md R107). -/
def dl2Rule : RoleRule where
  cls := .field
  name := fun _ _ => .dl2
  samplePointAction := noSamplePointAction
  fieldAction := fun b f => fieldOngoing (nextTrailerBit (expectRecessive b f))

/-- The frame is finished when the tenth trailer bit is processed (43_data_crc_trailer.md R108). -/
def finishTrailer (f : Frame) : Frame := if f.pos.t == 10 then { f with phase := .finished } else f

/-- The rule of EOF (43_data_crc_trailer.md R108). -/
def eofRule : RoleRule where
  cls := .field
  name := fun f _ => .eof (f.pos.t - 2)
  samplePointAction := noSamplePointAction
  fieldAction := fun b f => fieldOngoing (finishTrailer (nextTrailerBit (expectRecessive b f)))

/-- DL1: the CRC delimiter (43_data_crc_trailer.md R105). -/
def execDl1 (s : State) : Host.Outcome State Fault Refusal := bitStep dl1Rule s

/-- ACK: the acknowledge slot (43_data_crc_trailer.md R106). -/
def execAck (s : State) : Host.Outcome State Fault Refusal := bitStep ackRule s

/-- DL2: the ACK delimiter (43_data_crc_trailer.md R107). -/
def execDl2 (s : State) : Host.Outcome State Fault Refusal := bitStep dl2Rule s

/-- EOF: one of the seven end-of-frame bits (43_data_crc_trailer.md R108). -/
def execEof (s : State) : Host.Outcome State Fault Refusal := bitStep eofRule s

end Sys2Proof.Machine
end

