-- ==== Sys2Proof/Machine/Dispatch.lean ====
section
/-! DEFINITION. The role of a key is applied to the bit (41_frame_fsm.md R81): one arm for each role. -/

namespace Sys2Proof.Machine

def exec (i : Instr) (s : State) : Host.Outcome State Fault Refusal :=
  match i with
  | .dstuff => Sys2Proof.Machine.execDstuff s
  | .fsb => Sys2Proof.Machine.execFsb s
  | .sof => Sys2Proof.Machine.execSof s
  | .id _ => Sys2Proof.Machine.execId s
  | .b12 => Sys2Proof.Machine.execB12 s
  | .ide => Sys2Proof.Machine.execIde s
  | .fdfB => Sys2Proof.Machine.execFdfB s
  | .dlcC11 _ => Sys2Proof.Machine.execDlcC11 s
  | .resF11 => Sys2Proof.Machine.execResF11 s
  | .brsF11 => Sys2Proof.Machine.execBrsF11 s
  | .esiF11 => Sys2Proof.Machine.execEsiF11 s
  | .dlcF11 _ => Sys2Proof.Machine.execDlcF11 s
  | .idx _ => Sys2Proof.Machine.execIdx s
  | .b32 => Sys2Proof.Machine.execB32 s
  | .fdfE => Sys2Proof.Machine.execFdfE s
  | .resE => Sys2Proof.Machine.execResE s
  | .dlcC29 _ => Sys2Proof.Machine.execDlcC29 s
  | .brsF29 => Sys2Proof.Machine.execBrsF29 s
  | .esiF29 => Sys2Proof.Machine.execEsiF29 s
  | .dlcF29 _ => Sys2Proof.Machine.execDlcF29 s
  | .data _ => Sys2Proof.Machine.execData s
  | .crcC _ => Sys2Proof.Machine.execCrcC s
  | .stc _ => Sys2Proof.Machine.execStc s
  | .par => Sys2Proof.Machine.execPar s
  | .crcFd _ => Sys2Proof.Machine.execCrcFd s
  | .dl1 => Sys2Proof.Machine.execDl1 s
  | .ack => Sys2Proof.Machine.execAck s
  | .dl2 => Sys2Proof.Machine.execDl2 s
  | .eof _ => Sys2Proof.Machine.execEof s

end Sys2Proof.Machine
end

