-- ==== Sys2Proof/Machine/Fetch.lean ====
section
/-! DEFINITION. How the next role comes about. The block fetches no instruction words (20_memory.md R43): its
next "instruction" is the dispatch key formed from the registers (30_encoding.md R57, R58). -/

namespace Sys2Proof.Machine

/-- The state after `begin` of the current bit (41_frame_fsm.md R81): the state every role runs on. -/
def beginState (s : State) : State := { s with ctx := s.ctx.map (beginBit s.params) }

/-- The role of the current bit (30_encoding.md R57, R58). -/
def roleOfBit (f : Frame) : Except DecodeReject Instr := decode (dispatchKey f)

/-! ### The registers that make a given key the next one

`State.withFetchWord` (Step.lean) stands for no step of the block: it places the registers from which the next
key is formed, as the host would find them in the middle of a frame. Assumption log 5. -/

/-- The phase a key names; a key whose phase bits name no phase selects DSTUFF or nothing, and is placed in the
header. -/
def Key.phase (k : Key) : Phase :=
  match (k >>> 13).toNat with
  | 2 => .data
  | 3 => .crc
  | 4 => .trailer
  | _ => .header

/-- The position counters with the one the key's phase indexes by at the key's index, and `k` at or off a fixed
stuff position as the key's F bit says. -/
def Position.forKey (k : Key) (p : Position) : Position :=
  match Key.phase k with
  | .header => { p with h := (Key.index k).toNat }
  | .data => { p with dbit := (Key.index k).toNat }
  | .crc => { p with j := (Key.index k).toNat, k := if k.getLsbD 11 then 0 else if p.k % 5 = 0 then 1 else p.k }
  | .trailer => { p with t := (Key.index k).toNat }
  | .finished => p

/-- The stuff run at or off a dynamic stuff position, as the key's S bit says. -/
def StuffState.forKey (k : Key) (st : StuffState) : StuffState :=
  if k.getLsbD 12 then { st with dynEn := true, runLen := 5 }
  else if st.runLen = 5 then { st with runLen := 0 }
  else st

/-- A CRC width for a key of the CRC phase, when none is selected: the one the index needs. -/
def crcWidthForKey (k : Key) : CrcWidth :=
  if k.getLsbD 9 then (if 21 ≤ (Key.index k).toNat then .w21 else .w17) else .w15

/-- The CRC width with the key in place: a key of the CRC phase needs one selected. -/
def selectedWidthForKey (k : Key) (selected : Option CrcWidth) : Option CrcWidth :=
  match Key.phase k with
  | .crc => some (selected.getD (crcWidthForKey k))
  | .header => selected
  | .data => selected
  | .trailer => selected
  | .finished => selected

/-- A frame context with the registers from which the key is formed. -/
def Frame.forKey (k : Key) (f : Frame) : Frame :=
  { f with
    phase := Key.phase k
    flags := { f.flags with ide := k.getLsbD 10, fdf := k.getLsbD 9 }
    pos := f.pos.forKey k
    stuff := f.stuff.forKey k
    acc := { f.acc with crcW := selectedWidthForKey k f.acc.crcW } }

/-- The inputs of a state if a run with them is not refused, else those of the reset state. -/
def State.usableInputs (s : State) : Params × Memory :=
  if s.runnable then (s.params, s.raw) else (.initial, [])

/-- The parameters with a capture long enough to hold the sample of the current bit of `f`. -/
def Params.coverBit (f : Frame) (p : Params) : Params :=
  { p with sampleCount := max p.sampleCount (rnd (beginBit p f).timing.samplePoint + 1) }

/-- The state with a frame in progress whose current bit has the given key. -/
def placeKey (k : Key) (s : State) : State :=
  let inputs := s.usableInputs
  let f := (s.ctx.getD (frameReset (max 1 s.run.searchFrom))).forKey k
  { s with
    params := inputs.1.coverBit f
    raw := inputs.2
    run := { s.run with mode := .frame, status := .running }
    ctx := some f }

end Sys2Proof.Machine
end

