-- ==== Sys2Proof/Machine/Step.lean ====
section
/-! DEFINITION. One step of the decoder (41_frame_fsm.md R77). -/

namespace Sys2Proof.Machine

/-- The bit step (41_frame_fsm.md R81) of the frame in progress `f`, from `begin` on: exhaustion is tested before
the bit is sampled (60_exceptions.md R138), then the role of the dispatch key is applied to the bit. -/
def frameStep (s : State) (f : Frame) : Host.Outcome State Fault Refusal :=
  if exhausted s.params (beginBit s.params f) then .next (exhaust s)
  else
    match roleOfBit (beginBit s.params f) with
    | .error _ => .fault .keyWithoutRow
    | .ok i => exec i (beginState s)

/-- One step, chosen by `run.mode` (41_frame_fsm.md R77). A run whose inputs are out of range is refused
(00_scope.md R7). -/
def step (s : State) : Host.Outcome State Fault Refusal :=
  if s.runnable then
    match s.run.mode with
    | .search => .next (searchStep s)
    | .done => .fault .runEnded
    | .frame =>
      match s.ctx with
      | none => .fault .noFrameContext
      | some f => frameStep s f
  else .refused .parametersOutOfRange

/-- The state whose next step applies the role of the key `w` to a bit. The key is 16 bits wide
(30_encoding.md R57), so `nbits` cuts off nothing of a key of the table. -/
def State.withFetchWord (s : State) (nbits w : Nat) : State := placeKey (BitVec.ofNat 16 (w % 2 ^ nbits)) s

end Sys2Proof.Machine
end

