-- ==== Sys2Proof/Machine/Roles.lean ====
section
/-! DEFINITION. The rule of each role, as a table over the roles (30_encoding.md R58, 41_frame_fsm.md R80). The
meanings apply these rules one by one; the table serves whoever needs the rule of a role at hand (Stimulus.lean,
Laws/). -/

namespace Sys2Proof.Machine

/-- The rule of a role on a frame; CRC.FD has one only once a width is selected. -/
def roleRule (i : Instr) (f : Frame) : Option RoleRule :=
  match i with
  | .dstuff => some dstuffRule
  | .fsb => some fsbRule
  | .sof => some sofRule
  | .id _ => some idRule
  | .b12 => some b12Rule
  | .ide => some ideRule
  | .fdfB => some fdfBRule
  | .dlcC11 _ => some dlcRule
  | .resF11 => some resF11Rule
  | .brsF11 => some brsRule
  | .esiF11 => some esiRule
  | .dlcF11 _ => some dlcRule
  | .idx _ => some idxRule
  | .b32 => some b32Rule
  | .fdfE => some fdfERule
  | .resE => some resERule
  | .dlcC29 _ => some dlcRule
  | .brsF29 => some brsRule
  | .esiF29 => some esiRule
  | .dlcF29 _ => some dlcRule
  | .data _ => some dataRule
  | .crcC _ => some crcCRule
  | .stc _ => some stcRule
  | .par => some parRule
  | .crcFd _ => f.acc.crcW.map crcFdRule
  | .dl1 => some dl1Rule
  | .ack => some ackRule
  | .dl2 => some dl2Rule
  | .eof _ => some eofRule

end Sys2Proof.Machine
end

