-- ==== Sys2Proof/Machine/Stimulus.lean ====
section
/-! DEFINITION. The stimulus notation (30_encoding.md R65) and the capture a stimulus encodes: the host's side,
never run by the decoder. The wire bits of a `bits` segment are drawn by a transmitter whose bit boundaries follow
`begin` and `switchRate` without resynchronisation; it knows the BRS and DL1 bits by the frame layout, that is by
the role the dispatch key gives each wire bit. Assumption log 8. -/

namespace Sys2Proof.Machine

/-- A segment of a stimulus (30_encoding.md R65). -/
inductive Segment where
  /-- `idle n`: samples at the recessive level. -/
  | idle (n : Nat)
  /-- `bits`: wire bits. -/
  | bits (wire : List Bool)
  /-- `raw`: literal raw samples. -/
  | raw (samples : List Bool)
  deriving DecidableEq, Repr

/-- The raw sample of a wire level (30_encoding.md R45). -/
def Params.rawLevel (p : Params) (wire : Bool) : Bool := wire == p.idleLevel

/-- The transmitter's frame context at the end of a bit: the rate switch of the bit's role, then its field action
(41_frame_fsm.md R81 without the edge scan). A bit beyond the frame has no role and is drawn at the active rate. -/
def transmitBit (p : Params) (b : Bool) (f : Frame) : Frame :=
  let begun := beginBit p f
  match (roleOfBit begun).toOption.bind (fun i => roleRule i begun) with
  | none => begun
  | some r =>
    let switched := r.samplePointAction p b begun
    match runField r b (annotate (r.name begun b) b switched) with
    | .error _ => switched
    | .ok (g, _) => g

/-- The raw samples of wire bits: each fills the samples from its rounded start to its rounded end. -/
def drawBits (p : Params) : Frame → List Bool → List Bool
  | _, [] => []
  | f, b :: wire =>
    let g := transmitBit p b f
    List.replicate (rnd g.timing.bitEnd - rnd f.bitStart) (p.rawLevel b) ++ drawBits p (advance g) wire

/-- The raw samples of a segment that begins at sample `start`. -/
def Segment.samples (p : Params) (start : Nat) : Segment → List Bool
  | .idle n => List.replicate n (p.rawLevel true)
  | .bits wire => drawBits p (frameReset start) wire
  | .raw samples => samples

/-- The raw samples of the segments that follow those already drawn. -/
def drawFrom (p : Params) (drawn : List Bool) : List Segment → List Bool
  | [] => drawn
  | seg :: segs => drawFrom p (drawn ++ seg.samples p drawn.length) segs

/-- The encoding of a stimulus: its `RAW` array (30_encoding.md R65). -/
def encodeStimulus (p : Params) (segs : List Segment) : List Bool := drawFrom p [] segs

/-- A run on a capture (70_reset_and_hazards.md R144, R146): the parameters with `N` the capture's length. -/
def State.ofSamples (p : Params) (samples : List Bool) : State :=
  State.start { p with sampleCount := samples.length } (Memory.ofSamples samples)

end Sys2Proof.Machine
end

