-- ==== Sys2Proof/Machine/Render.lean ====
section
/-! DEFINITION. What the host reads after a run: the two annotation rows (46_errors_emitter.md R132) and the texts
of their records (30_encoding.md R63). -/

namespace Sys2Proof.Machine

/-- Row 1 as the host reads it (46_errors_emitter.md R132). -/
def State.outRow1 (s : State) : List BitRecord := s.out.flatMap (fun p => p.row1)

/-- Row 2 as the host reads it (46_errors_emitter.md R132). -/
def State.outRow2 (s : State) : List FieldRecord := s.out.flatMap (fun p => p.row2)

/-- The text of a row-1 name (30_encoding.md R63). -/
def BitName.text : BitName → String
  | .sof => "SOF"
  | .id n => "ID" ++ toString n
  | .rtr => "RTR"
  | .srr => "SRR"
  | .rrs => "RRS"
  | .ide => "IDE"
  | .fdf => "FDF"
  | .r0 => "r0"
  | .r1 => "r1"
  | .res => "res"
  | .brs => "BRS"
  | .esi => "ESI"
  | .dlc n => "DLC" ++ toString n
  | .d n => "D" ++ toString n
  | .stuff => "STUFF"
  | .fsb => "FSB"
  | .sc n => "SC" ++ toString n
  | .par => "PAR"
  | .crc n => "CRC" ++ toString n
  | .dl1 => "DL1"
  | .ack => "ACK"
  | .dl2 => "DL2"
  | .eof n => "EOF" ++ toString n

/-- The text of a field kind (30_encoding.md R62). -/
def FieldKind.text : FieldKind → String
  | .id => "ID"
  | .dlc => "DLC"
  | .data => "DATA"
  | .stc => "STC"
  | .crc => "CRC"

/-- An upper-case hexadecimal digit. -/
def hexDigit (d : Nat) : Char :=
  if d < 10 then Char.ofNat (48 + d) else Char.ofNat (55 + d)

/-- The hexadecimal digits of a number in front of those already written; `fuel` bounds their count. -/
def hexDigitsOnto : Nat → Nat → List Char → List Char
  | 0, _, written => written
  | fuel + 1, n, written =>
    if n < 16 then hexDigit n :: written else hexDigitsOnto fuel (n / 16) (hexDigit (n % 16) :: written)

/-- A number in upper-case hexadecimal with prefix `0x` (30_encoding.md R63). -/
def hexText (n : Nat) : String := "0x" ++ String.ofList (hexDigitsOnto (n + 1) n [])

/-- The text of a row-2 record (30_encoding.md R63): the field kind, for DATA followed by the byte index, a
space and the value. -/
def fieldText (r : FieldRecord) : String :=
  r.name.text ++ (match r.index with | some i => toString i | none => "") ++ " " ++ hexText r.value

end Sys2Proof.Machine
end

