-- ==== Sys2Proof/Safety.lean ====
section
/-! DEFINITION. The terms in which claims about the decoder are stated: what a state a run can reach looks like,
what every wire bit does apart from its role's own effect, and the bounds and encodings that claims compare with. -/

namespace Sys2Proof.Safety

open Sys2Proof.Machine

/-! ### The state a role runs on -/

/-- A bit of the frame in progress `f` can be processed in `s` and has the value `b`: the frame exists and the
sample point lies inside the capture (40_bit_timing.md R69, R70). -/
structure Ready (s : State) (f : Frame) (b : Bool) : Prop where
  mode : s.run.mode = .frame
  ctx : s.ctx = some f
  inCapture : rnd f.timing.samplePoint < s.params.sampleCount
  value : level s (rnd f.timing.samplePoint) = b

/-- The role computes with the CRC width on this bit: CRC.FD always, CRC.C when it completes the CRC
(43_data_crc_trailer.md R100, R103, R104). -/
def needsCrcWidth (i : Instr) (f : Frame) : Prop :=
  (∃ index, i = .crcFd index) ∨ ((∃ index, i = .crcC index) ∧ f.pos.j = 14)

/-! ### What every wire bit does (41_frame_fsm.md R81)

`plainBit` is the frame that a role with an empty field action would leave at the frame-end test. A statement
about a role says what it leaves as `plainBit` with the registers its rule writes; every register not named is
as in `plainBit`. -/

/-- The row-1 record of a bit (30_encoding.md R62): it ends at the bit's final `bitEnd`, and carries an error mark
when the steady window is violated (40_bit_timing.md R73). -/
def bitRecord (s : State) (f : Frame) (name : BitName) (b : Bool) : BitRecord where
  start := rnd f.bitStart
  stop := rnd (resync s f).timing.bitEnd
  name := name
  index := none
  value := b.toNat
  error := steadyViolated s (resync s f)

/-- The Timing flag of a bit (30_encoding.md R56, 40_bit_timing.md R73). -/
def timingFlag (s : State) (f : Frame) : BitVec 6 := if steadyViolated s (resync s f) then 0x01 else 0

/-- The stuff run after a bit (44_stuffing.md R111), as the pair `runVal`, `runLen`. -/
def runAfter (st : StuffState) (stuffBit : Bool) (b : Bool) : Bool × Nat :=
  if st.dynEn then (if stuffBit || b != st.runVal then (b, 1) else (st.runVal, st.runLen + 1))
  else (st.runVal, st.runLen)

/-- The frame at the frame-end test if the role's field action were empty (41_frame_fsm.md R81): `f` is the frame
after the sample-point action, `entry` what the bit adds to the CRC history in the HEADER and DATA phases. -/
def plainBit (s : State) (f : Frame) (stuffBit : Bool) (entry : List (Bool × HistClass)) (name : BitName)
    (b : Bool) : Frame :=
  { f with
    timing := (resync s f).timing
    notes := { f.notes with row1 := f.notes.row1 ++ [bitRecord s f name b] }
    err := f.err ||| timingFlag s f
    stuff :=
      { f.stuff with
        runVal := (runAfter f.stuff stuffBit b).1
        runLen := (runAfter f.stuff stuffBit b).2
        prevBit := b }
    hist := if f.phase = .header ∨ f.phase = .data then f.hist ++ entry else f.hist
    recRun := if b then f.recRun + 1 else 0
    pos := { f.pos with k := if f.phase = .crc ∧ f.flags.fdf = true then f.pos.k + 1 else f.pos.k } }

/-- `plainBit` for a field bit, one that is no stuff bit. -/
def plainFieldBit (s : State) (f : Frame) (name : BitName) (b : Bool) : Frame :=
  plainBit s f false [(b, .field)] name b

/-- The row-1 list of a bit whose role marks the bit's own record as erroneous when `wrong`. -/
def rowWithMark (s : State) (f : Frame) (name : BitName) (b wrong : Bool) : List BitRecord :=
  f.notes.row1 ++ [{ bitRecord s f name b with error := steadyViolated s (resync s f) || wrong }]

/-- The row-2 field opened with a bit (46_errors_emitter.md R126). -/
def openedField (s : State) (f : Frame) (kind : FieldKind) (index : Option Nat) (value : Nat) : FieldRecord where
  start := rnd f.bitStart
  stop := rnd (resync s f).timing.bitEnd
  name := kind
  index := index
  value := value
  error := steadyViolated s (resync s f)

/-- Row 2 with the field that `curField` names extended by a bit (46_errors_emitter.md R126); a `curField` that names no
record extends nothing (assumption log 7). -/
def extendedRow2 (s : State) (f : Frame) (value : Nat) : List FieldRecord :=
  match f.notes.curField with
  | none => f.notes.row2
  | some i =>
    f.notes.row2.modify i (fun r =>
      { r with
        stop := rnd (resync s f).timing.bitEnd
        value := value
        error := r.error || steadyViolated s (resync s f) })

/-- The notes after a bit that opens a field with its record, or extends the current one. -/
def notesWithField (s : State) (f : Frame) (name : BitName) (b : Bool) (first : Bool) (kind : FieldKind)
    (index : Option Nat) (value : Nat) : Notes :=
  if first then
    { f.notes with
      row1 := f.notes.row1 ++ [bitRecord s f name b]
      row2 := f.notes.row2 ++ [openedField s f kind index value]
      curField := some f.notes.row2.length }
  else
    { f.notes with
      row1 := f.notes.row1 ++ [bitRecord s f name b]
      row2 := extendedRow2 s f value }

/-- A list with the element a reference names changed; a reference that is `none` names no element. -/
def changeAt {α : Type} (ref : Option Nat) (change : α → α) (l : List α) : List α :=
  match ref with
  | none => l
  | some i => l.modify i change

/-- The error mark on a record when `wrong`. -/
def markIf {ν : Type} (wrong : Bool) (a : Annotation ν) : Annotation ν := { a with error := a.error || wrong }

/-- Row 1 after IDE = 1 (42_header.md R90): the record of position 12 is SRR, marked when it was dominant, and the
identifier bits read so far are renamed from `ID<n>` to `ID<n+18>`. -/
def row1AfterIde (a12 : Option Nat) (b12 : Bool) (row1 : List BitRecord) : List BitRecord :=
  (changeAt a12 (fun a => { markIf (!b12) a with name := .srr }) row1).map (fun a =>
    { a with
      name :=
        match a.name with
        | .id n => .id (n + 18)
        | other => other })

/-- A multi-bit value with one bit more, most significant bit first (20_memory.md R35). -/
def pushBit {n : Nat} (acc : BitVec n) (b : Bool) : BitVec n := BitVec.ofNat n (2 * acc.toNat + b.toNat)

/-! ### Keys -/

/-- The key bits that select a role: its row's mask (30_encoding.md R58), and the index bits unless the row takes
any index. -/
def roleKeyMask : Instr → Key
  | .dstuff => 0x1000
  | .fsb => 0xFA00
  | .sof | .id _ | .b12 | .ide => 0xF83F
  | .fdfB | .idx _ | .b32 | .fdfE | .resE => 0xFC3F
  | .dlcC11 _ | .resF11 | .brsF11 | .esiF11 | .dlcF11 _ | .dlcC29 _ | .brsF29 | .esiF29 | .dlcF29 _ => 0xFE3F
  | .data _ => 0xF83F
  | .crcC _ | .stc _ | .par | .crcFd _ => 0xFA3F
  | .dl1 | .ack | .dl2 | .eof _ => 0xF83F

/-- The keys of one row of the role table, `(K and mask) = pattern` and `lo ≤ K[5:0] ≤ hi`, are exactly those that
select `role` (30_encoding.md R58). -/
def OnRow (role : KeyIndex → Instr) (pattern mask : Key) (lo hi : Nat) : Prop :=
  ∀ k : Key, decode k = .ok (role (Key.index k)) ↔
    k &&& mask = pattern ∧ lo ≤ (Key.index k).toNat ∧ (Key.index k).toNat ≤ hi

/-! ### Reachable states -/

/-- The run state and the frame context agree (10_state.md R14, 93_implementation_defined.md I16). -/
structure RunCoherent (s : State) : Prop where
  ctxInFrame : s.run.mode = .frame ↔ s.ctx.isSome = true
  endedWhenDone : s.run.mode = .done ↔ s.run.status ≠ .running

/-- The header position from which the FDF register can be 1 (42_header.md R91). -/
def fdfPassed (ide : Bool) : Nat := if ide then 34 else 15

/-- The header position from which the BRS register can be 1 (42_header.md R93). -/
def brsPassed (ide : Bool) : Nat := if ide then 36 else 17

/-- The phases and counters of a frame in progress agree with its layout (10_state.md R20 to R25,
30_encoding.md R46 to R53). -/
structure LayoutOk (f : Frame) : Prop where
  /-- `FINISHED` is never seen by a bit step (41_frame_fsm.md R83). -/
  notFinished : f.phase ≠ .finished
  headerRange : f.phase = .header → f.pos.h < headerLength f.flags.ide f.flags.fdf
  headerKept : f.phase ≠ .header → f.pos.h = headerLength f.flags.ide f.flags.fdf - 1
  ideSeen : f.flags.ide = true → 14 ≤ f.pos.h
  fdfSeen : f.flags.fdf = true → fdfPassed f.flags.ide ≤ f.pos.h
  brsSeen : f.flags.brs = true → f.flags.fdf = true ∧ brsPassed f.flags.ide ≤ f.pos.h
  esiSeen : f.flags.esi = true → f.flags.fdf = true
  noRemoteFd : f.flags.fdf = true → f.flags.rtr = false
  counted : f.phase ≠ .header → f.acc.nbytes = byteCount f.flags.fdf f.acc.dlcAcc
  beforeData : f.phase = .header → f.pos.dbit = 0 ∧ f.acc.data = []
  dataRange : f.phase = .data → f.pos.dbit < 8 * f.acc.nbytes ∧ f.acc.data.length = f.pos.dbit / 8 ∧ f.flags.rtr = false
  beforeCrc : f.phase = .header ∨ f.phase = .data → f.pos.j = 0 ∧ f.pos.k = 0 ∧ f.acc.crcW = none
  crcSelected : f.phase = .crc ∨ f.phase = .trailer → f.acc.crcW = some (crcSelect f.flags.fdf f.acc.nbytes)
  crcClassic : f.phase = .crc → f.flags.fdf = false → f.pos.j < 15 ∧ f.pos.k = 0
  crcFd : f.phase = .crc → f.flags.fdf = true →
    f.pos.j < 4 + (crcSelect true f.acc.nbytes).bits ∧ f.pos.j + (f.pos.k + 4) / 5 = f.pos.k
  trailerRange : f.phase = .trailer → f.pos.t < 10
  beforeTrailer : f.phase ≠ .trailer → f.pos.t = 0
  /-- Dynamic stuffing is active from the header to the end of the data in an FD frame, to the end of the CRC in a
  Classic frame (43_data_crc_trailer.md R99, R104). -/
  dynamicStuffing : f.stuff.dynEn = true ↔
    f.phase = .header ∨ f.phase = .data ∨ (f.phase = .crc ∧ f.flags.fdf = false)
  runRange : f.stuff.runLen ≤ 5

/-- The active rate and the extended steady window agree with the frame's position (40_bit_timing.md R68, R76;
70_reset_and_hazards.md R148): the FD rate holds from the BRS bit to DL1 of a frame with BRS = 1, and the
extended window is armed for the ACK bit of such a frame only. -/
structure RateOk (f : Frame) : Prop where
  rate : f.timing.rate = .fd ↔ f.flags.brs = true ∧ ¬ (f.phase = .trailer ∧ 1 ≤ f.pos.t)
  ackExt : f.timing.ackExt = true ↔ f.flags.brs = true ∧ f.phase = .trailer ∧ f.pos.t = 1

/-- The references of the frame context name records that exist (10_state.md R23, R29). -/
structure RefsOk (f : Frame) : Prop where
  a12 : ∀ i, f.prov.a12 = some i → i < f.notes.row1.length
  a32 : ∀ i, f.prov.a32 = some i → i < f.notes.row1.length
  curField : ∀ i, f.notes.curField = some i → i < f.notes.row2.length
  stcField : ∀ i, f.notes.stcField = some i → i < f.notes.row2.length
  /-- From position 13 on the record of position 12 is known; from position 33 of a 29-bit frame that of 32. -/
  a12Known : 13 ≤ f.pos.h → f.prov.a12.isSome = true
  a32Known : f.flags.ide = true → 33 ≤ f.pos.h → f.prov.a32.isSome = true
  /-- A field is open from position 2 on. -/
  fieldOpen : 2 ≤ f.pos.h → f.notes.curField.isSome = true
  stcOpen : f.phase = .crc → f.flags.fdf = true → 1 ≤ f.pos.j → f.notes.stcField.isSome = true

/-- A frame that is still in progress need not end early (46_errors_emitter.md R128). -/
def StillRunning (f : Frame) : Prop := f.recRun < 7 ∨ f.err = 0

/-- The control invariant: what the registers of every state a run reaches satisfy. -/
structure Inv (s : State) : Prop where
  coherent : RunCoherent s
  memory : Memory.wf s.raw = true
  layout : ∀ f, s.ctx = some f → LayoutOk f
  rate : ∀ f, s.ctx = some f → RateOk f
  running : ∀ f, s.ctx = some f → StillRunning f

/-- Records follow one another without gap from `start` to `stop` (46_errors_emitter.md R127). -/
def contiguous : Nat → List BitRecord → Nat → Prop
  | start, [], stop => start = stop
  | start, a :: rest, stop => a.start = start ∧ contiguous a.stop rest stop

/-- Row 1 of the frame in progress and of every emitted packet has no gap (46_errors_emitter.md R127). -/
structure RowsContiguous (s : State) : Prop where
  frame : ∀ f, s.ctx = some f → contiguous f.notes.startSample f.notes.row1 (rnd f.bitStart)
  packets : ∀ p ∈ s.out, contiguous p.startSample p.row1 p.endSample

/-- The order of the phases (41_frame_fsm.md R83). -/
def phaseRank : Phase → Nat
  | .header => 1
  | .data => 2
  | .crc => 3
  | .trailer => 4
  | .finished => 5

/-! ### Bounds -/

/-- `δ`, the least amount by which a bit step advances the bit start (40_bit_timing.md R75). -/
def leastAdvance (p : Params) : Rat :=
  min (1 / 2) (min p.spbStd (min p.spbFd
    (min (p.spbStd * p.spfStd + p.spbFd * (1 - p.spfFd)) (p.spbFd * p.spfFd + p.spbStd * (1 - p.spfStd)))))

/-- The run of the machine from `s` ends: after some number of steps its mode is `DONE` (00_scope.md R9). -/
def RunEnds (s : State) : Prop := ∃ n t, Sys2Proof.core.run n s = .next t ∧ t.run.mode = .done

/-! ### Dynamic stuffing as a transmitter does it, and as the decoder undoes it (44_stuffing.md R115) -/

/-- Field bits with one bit of the opposite value inserted after every five identical wire bits, each wire bit with
its class; `runVal` and `runLen` are the run of wire bits so far. A run of five that ends the field bits is followed
by its stuff bit. -/
def stuffBits (runVal : Bool) (runLen : Nat) : List Bool → List (Bool × BitClass)
  | [] => if runLen = 5 then [(!runVal, .dstuff)] else []
  | b :: bits =>
    if runLen = 5 then
      (!runVal, .dstuff) :: (b, .field) ::
        (if b = !runVal then stuffBits b 2 bits else stuffBits b 1 bits)
    else (b, .field) :: (if b = runVal then stuffBits runVal (runLen + 1) bits else stuffBits b 1 bits)

/-- The wire bits with what the decoder makes of each from the frame `f` on: its class, and whether it is a dynamic
stuff bit that violates the rule (44_stuffing.md R109, R110). Between two bits the frame has the machine's own
bookkeeping of a wire bit (R111, 41_frame_fsm.md R81). -/
def validate : Frame → List Bool → List (Bool × BitClass × Bool)
  | _, [] => []
  | f, b :: wire =>
    (b, classify f, isDynamicStuff f && dynamicStuffWrong f b) :: validate (account f (classify f) b f) wire

/-- The field bits among validated wire bits. -/
def fieldBits (bits : List (Bool × BitClass × Bool)) : List Bool :=
  (bits.filter (fun e => e.2.1 == .field)).map Prod.fst

end Sys2Proof.Safety
end

