-- ==== Sys2Proof/Certificates/Slice0/Obligations.lean ====
section
/-! DEFINITION. The statements for the provers. Each is listed in OBLIGATIONS.json with the rule it formalises. -/

open Sys2Proof Sys2Proof.Machine Sys2Proof.Safety

/-! ### Encoding -/

/-- Keys written out from 95_test_vectors.md K1 and K2 decode to the roles given there; a key of no row is
rejected. -/
def Obligations.SpecKeysDecodeToTheirRoles : Prop :=
  decode 0b0010000000000000 = .ok .sof ∧
  decode 0b0010000000001011 = .ok (.id 11) ∧
  decode 0b0010000000001100 = .ok .b12 ∧
  decode 0b0010000000001110 = .ok .fdfB ∧
  decode 0b0011000000010001 = .ok .dstuff ∧
  decode 0b0010001000010000 = .ok .brsF11 ∧
  decode 0b0010010000011111 = .ok (.idx 31) ∧
  decode 0b0010011000101000 = .ok (.dlcF29 40) ∧
  decode 0b0100000000000111 = .ok (.data 7) ∧
  decode 0b0110000000001110 = .ok (.crcC 14) ∧
  decode 0b0110001000010100 = .ok (.crcFd 20) ∧
  decode 0b0110111000000000 = .ok .fsb ∧
  decode 0b1000000000001001 = .ok (.eof 9) ∧
  decode 0b0010000000010011 = .error .noRow

/-- Every well-formed role, at every index its row admits, is the role of its key. -/
def Obligations.DecodeOfEncodedRole : Prop :=
  ∀ i : Instr, i.wf = true → decode (encode i) = .ok i

/-- A key has the role `i` exactly when it agrees with `i`'s row in the bits the row's mask and index range fix:
no other key has that role, and no key has two roles (R58). -/
def Obligations.DecodeExactlyOnTheRowOfARole : Prop :=
  ∀ (k : Key) (i : Instr),
    decode k = .ok i ↔ i.wf = true ∧ k &&& roleKeyMask i = encode i &&& roleKeyMask i

/-- The dispatch key holds the phase, the stuff classes, the mode bits and the position counter at the places
of R57, in each of the four phases in which a bit is processed, when the phase's counter fits in six bits. -/
def Obligations.DispatchKeyHoldsTheRegisters : Prop :=
  ∀ (f : Frame) (code counter : Nat),
    (f.phase = .header ∧ code = 1 ∧ counter = f.pos.h) ∨
      (f.phase = .data ∧ code = 2 ∧ counter = f.pos.dbit % 8) ∨
      (f.phase = .crc ∧ code = 3 ∧ counter = f.pos.j) ∨
      (f.phase = .trailer ∧ code = 4 ∧ counter = f.pos.t) →
    counter < 64 →
    (dispatchKey f).toNat =
      code * 2 ^ 13 +
      (if f.stuff.dynEn = true ∧ f.stuff.runLen = 5 then 2 ^ 12 else 0) +
      (if ¬ (f.stuff.dynEn = true ∧ f.stuff.runLen = 5) ∧ f.phase = .crc ∧ f.flags.fdf = true ∧ f.pos.k % 5 = 0
        then 2 ^ 11 else 0) +
      f.flags.ide.toNat * 2 ^ 10 + f.flags.fdf.toNat * 2 ^ 9 + counter

/-! ### Reset and the run -/

/-- The machine after reset is after run reset: R144's values, and no frame context. -/
def Obligations.ResetIsRunReset : Prop :=
  State.reset.run.mode = .search ∧ State.reset.run.searchFrom = 0 ∧ State.reset.run.pollCount = 0 ∧
  State.reset.run.status = .running ∧ State.reset.out = [] ∧ State.reset.ctx = none

/-- A search whose poll does not abort starts a frame at the first dominant edge at or after `searchFrom`
(R78), with every register at its frame-reset value (R145); the timing registers are left open. -/
def Obligations.SearchStartsAFreshFrame : Prop :=
  ∀ (s : State) (e : Nat), s.runnable = true → s.run.mode = .search → s.params.abort s.run.pollCount = false →
    max 1 s.run.searchFrom ≤ e → domEdge s e = true →
    (∀ i, max 1 s.run.searchFrom ≤ i → i < e → domEdge s i = false) →
    ∃ f, step s = .next { s with run := { s.run with mode := .frame, pollCount := s.run.pollCount + 1 }, ctx := some f } ∧
      f.bitStart = (e : Rat) ∧ f.notes = ⟨[], [], none, none, e⟩ ∧
      f.timing.rate = .std ∧ f.timing.ackExt = false ∧ f.phase = .header ∧ f.pos = ⟨0, 0, 0, 0, 0⟩ ∧
      f.flags = ⟨false, false, false, false, false, false, false, false⟩ ∧ f.prov = ⟨false, false, none, none⟩ ∧
      f.acc = ⟨0, 0, 0, 0, [], none, 0, 0, false, none, none⟩ ∧ f.stuff = ⟨true, true, 0, 0, true⟩ ∧
      f.recRun = 0 ∧ f.err = 0 ∧ f.hist = []

/-- The start-of-frame search (R78): a poll that aborts ends the run; else the first dominant edge from
`max(1, searchFrom)` on starts a frame there, and a search without one ends the run `COMPLETED`. -/
def Obligations.SearchFindsTheFirstDominantEdge : Prop :=
  ∀ s : State, s.runnable = true → s.run.mode = .search →
    let polled := { s.run with pollCount := s.run.pollCount + 1 }
    (s.params.abort s.run.pollCount = true →
      step s = .next { s with run := { polled with mode := .done, status := .aborted }, ctx := none }) ∧
    (s.params.abort s.run.pollCount = false → (∀ i, max 1 s.run.searchFrom ≤ i → domEdge s i = false) →
      step s = .next { s with run := { polled with mode := .done, status := .completed }, ctx := none }) ∧
    (∀ e, s.params.abort s.run.pollCount = false → max 1 s.run.searchFrom ≤ e → domEdge s e = true →
      (∀ i, max 1 s.run.searchFrom ≤ i → i < e → domEdge s i = false) →
      step s = .next { s with run := { polled with mode := .frame }, ctx := some (frameReset e) })

/-- An abort poll counts itself, and an answer of 1 ends the run `ABORTED` without the frame in progress
(R136, R131). -/
def Obligations.AbortPollCountsAndTakesTheAbort : Prop :=
  ∀ s : State,
    (s.run.pollCount ∈ s.params.abortPolls →
      abortPoll s =
        { s with
          run := { s.run with pollCount := s.run.pollCount + 1, status := .aborted, mode := .done }, ctx := none }) ∧
    (s.run.pollCount ∉ s.params.abortPolls →
      abortPoll s = { s with run := { s.run with pollCount := s.run.pollCount + 1 } })

/-- A step whose bit has its sample point beyond the capture ends the run `EXHAUSTED`; the frame in progress is
dropped, no packet is emitted and no flag is set (R130, R69). -/
def Obligations.ExhaustionDropsTheFrame : Prop :=
  ∀ (s : State) (f : Frame), s.runnable = true → s.run.mode = .frame → s.ctx = some f →
    s.params.sampleCount ≤ rnd (f.bitStart + s.params.spb f.timing.rate * s.params.spf f.timing.rate) →
    step s = .next { s with run := { s.run with mode := .done, status := .exhausted }, ctx := none }

/-- A run whose inputs are out of the ranges of R5 is refused before its first step (R7). Three parts are the
model's: that it is refused at every later step as well (assumption log 4, DESIGN CHOICE), that a picosecond ratio not
above 0 counts (log 1, DEDUCED from the type in R5), and that the samples are those a cell lists (log 2, DESIGN
CHOICE). -/
def Obligations.OutOfRangeInputsAreRefused : Prop :=
  ∀ s : State,
    (s.params.spbStd ≤ 0 ∨ s.params.spbFd ≤ 0 ∨
      (s.params.spfStd < 1 / 2 ∨ 9 / 10 < s.params.spfStd) ∨ (s.params.spfFd < 1 / 2 ∨ 9 / 10 < s.params.spfFd) ∨
      s.params.psPerSample ≤ 0 ∨ (s.params.pAckSteady < 1 / 5 ∨ 4 / 5 < s.params.pAckSteady) ∨
      (∃ c ∈ s.raw, c.2 ≠ 0 ∧ c.2 ≠ 1)) →
    step s = .refused .parametersOutOfRange

/-- A step refuses exactly the inputs out of the ranges of R5, and nothing else (R7). That a picosecond ratio not above
0 counts is the model's reading (assumption log 1, DEDUCED), and that a cell beyond the capture counts its choice (log
2). A run that has ended takes no step (R77), and the stop is the model's choice (log 4). -/
def Obligations.NoStepOutOfRangeOrAfterTheEnd : Prop :=
  (∀ s : State, step s = .refused .parametersOutOfRange ↔
    ¬ (0 < s.params.spbStd ∧ 0 < s.params.spbFd ∧
      (1 / 2 ≤ s.params.spfStd ∧ s.params.spfStd ≤ 9 / 10) ∧ (1 / 2 ≤ s.params.spfFd ∧ s.params.spfFd ≤ 9 / 10) ∧
      0 < s.params.psPerSample ∧ (1 / 5 ≤ s.params.pAckSteady ∧ s.params.pAckSteady ≤ 4 / 5) ∧
      (∀ c ∈ s.raw, c.1 < s.params.sampleCount ∧ (c.2 = 0 ∨ c.2 = 1)))) ∧
  (∀ s : State, s.runnable = true → s.run.mode = .done → step s = .fault .runEnded)

/-- When a role completes: exactly on a bit that can be processed, a CRC width being selected where the role needs
one; on any other state it stops under the name of what is missing (R14, R33, R99, I11; the stops are the model's
choice, assumption log 11). -/
def Obligations.RolesCompleteExactlyOnReadyBits : Prop :=
  (∀ (i : Instr) (s : State), (∃ t, exec i s = .next t) ↔
    ∃ f b, Ready s f b ∧ (needsCrcWidth i f → f.acc.crcW ≠ none)) ∧
  (∀ (i : Instr) (s : State), s.run.mode ≠ .frame ∨ s.ctx = none → exec i s = .fault .noFrameContext) ∧
  (∀ (i : Instr) (s : State) (f : Frame), s.run.mode = .frame → s.ctx = some f →
    s.params.sampleCount ≤ rnd f.timing.samplePoint → (∀ index, i = .crcFd index → f.acc.crcW ≠ none) →
    exec i s = .fault .sampleBeyondCapture) ∧
  (∀ (i : Instr) (s : State) (f : Frame) (b : Bool), Ready s f b → needsCrcWidth i f → f.acc.crcW = none →
    exec i s = .fault .crcWidthUnselected)

/-- A step on a bit inside the capture is the role of its dispatch key, run on the state after `begin` (R81). -/
def Obligations.StepRunsTheRoleOfTheKey : Prop :=
  ∀ (s : State) (f : Frame) (i : Instr), s.runnable = true → s.run.mode = .frame → s.ctx = some f →
    rnd (beginBit s.params f).timing.samplePoint < s.params.sampleCount →
    decode (dispatchKey (beginBit s.params f)) = .ok i →
    step s = exec i { s with ctx := some (beginBit s.params f) }

/-! ### Bit timing -/

/-- The level of a sample is recessive exactly when it reads as the idle level (R45); an edge is a change of the level
at its first sample, a dominant edge a change from recessive to dominant, and neither lies at 0 or beyond the
capture (R66). -/
def Obligations.EdgesAreChangesOfTheLevel : Prop :=
  ∀ (s : State) (i : Nat),
    (level s i = true ↔ Memory.read s.raw i = if s.params.idleLevel then 1 else 0) ∧
    (edge s i = true ↔ 1 ≤ i ∧ i < s.params.sampleCount ∧ level s i ≠ level s (i - 1)) ∧
    (domEdge s i = true ↔ 1 ≤ i ∧ i < s.params.sampleCount ∧ level s (i - 1) = true ∧ level s i = false)

/-- `begin` computes the timing registers from the active rate and clears `ackExt` (R67). -/
def Obligations.BeginComputesTheBitTimes : Prop :=
  ∀ (p : Params) (f : Frame),
    let spb := if f.timing.rate = .std then p.spbStd else p.spbFd
    let spf := if f.timing.rate = .std then p.spfStd else p.spfFd
    let frac := if f.timing.ackExt then p.pAckSteady else 1 / 5
    beginBit p f =
      { f with
        timing :=
          ⟨f.timing.rate, f.bitStart + spb * frac, f.bitStart + spb * spf, f.bitStart + spb * (4 / 5),
            f.bitStart + spb, false⟩ }

/-- `switchRate` selects the rate, collapses the steady window and splits the bit (R71). -/
def Obligations.SwitchRateSplitsTheBit : Prop :=
  ∀ (p : Params) (f : Frame),
    switchRate p true f =
      { f with
        timing :=
          ⟨.fd, f.timing.steadyStart, f.timing.samplePoint, f.timing.samplePoint,
            f.timing.samplePoint + p.spbFd * (1 - p.spfFd), f.timing.ackExt⟩ } ∧
    switchRate p false f =
      { f with
        timing :=
          ⟨.std, f.timing.steadyStart, f.timing.samplePoint, f.timing.samplePoint,
            f.timing.samplePoint + p.spbStd * (1 - p.spfStd), true⟩ }

/-- `rnd` is the nearest integer, ties rounded up, on the non-negative quantities of a run (R12; for negative ones
see assumption log 6). -/
def Obligations.RoundingIsHalfUp : Prop :=
  ∀ (x : Rat) (n : Nat), 0 ≤ x → (rnd x = n ↔ (n : Rat) - 1 / 2 ≤ x ∧ x < (n : Rat) + 1 / 2)

/-- Resynchronisation moves `bitEnd` to the first dominant edge after the sample point and before the bound, and
changes nothing else; without such an edge it changes nothing (R72). -/
def Obligations.ResyncMovesBitEndToTheFirstDominantEdge : Prop :=
  ∀ (s : State) (f : Frame),
    let lim := rnd (f.timing.bitEnd + s.params.spb f.timing.rate / 5)
    (∀ e, rnd f.timing.samplePoint < e → e < lim → domEdge s e = true →
      (∀ i, rnd f.timing.samplePoint < i → i < e → domEdge s i = false) →
      resync s f = { f with timing := { f.timing with bitEnd := (e : Rat) } }) ∧
    ((∀ e, rnd f.timing.samplePoint < e → e < lim → domEdge s e = false) → resync s f = f)

/-- The bit has a timing error exactly when an edge lies in its steady window, clipped to the bit's end; the check
then sets the Timing flag and marks the bit's own record, the last of row 1, and else changes nothing (R73). -/
def Obligations.SteadyWindowCheckFindsAnEdge : Prop :=
  ∀ (s : State) (f : Frame) (row : List BitRecord) (a : BitRecord), f.notes.row1 = row ++ [a] →
    let violated :=
      ∃ i, rnd f.timing.steadyStart < i ∧ i ≤ min (rnd f.timing.steadyEnd) (rnd f.timing.bitEnd) ∧ edge s i = true
    (steadyViolated s f = true ↔ violated) ∧
    (violated →
      steadyCheck s f =
        { f with
          err := f.err ||| 0x01
          notes := { f.notes with row1 := row ++ [{ a with error := true }] } }) ∧
    (¬ violated → steadyCheck s f = f)

/-- Every bit step that goes on to a next bit advances the bit start by at least δ, and δ is positive (R75). -/
def Obligations.EveryBitAdvancesByAtLeastDelta : Prop :=
  ∀ (s t : State) (f g : Frame), s.runnable = true → s.run.mode = .frame → s.ctx = some f → step s = .next t →
    t.ctx = some g → f.bitStart + leastAdvance s.params ≤ g.bitStart ∧ 0 < leastAdvance s.params

/-- The two-rate split (R76): without a resynchronising edge a recessive BRS bit at the standard rate, and the DL1
bit of a frame with BRS = 1 at the FD rate, last the sums of the two rates' shares; a bit without a switch lasts the
samples-per-bit of the active rate. -/
def Obligations.TwoRateSplitOfBrsAndDl1 : Prop :=
  ∀ (s : State) (f : Frame),
    let brs := switchRate s.params true (beginBit s.params f)
    let dl1 := switchRate s.params false (beginBit s.params f)
    (f.timing.rate = .std → resyncEdge s brs = none →
      (resync s brs).timing.bitEnd - f.bitStart =
        s.params.spbStd * s.params.spfStd + s.params.spbFd * (1 - s.params.spfFd)) ∧
    (f.timing.rate = .fd → resyncEdge s dl1 = none →
      (resync s dl1).timing.bitEnd - f.bitStart =
        s.params.spbFd * s.params.spfFd + s.params.spbStd * (1 - s.params.spfStd)) ∧
    (resyncEdge s (beginBit s.params f) = none →
      (resync s (beginBit s.params f)).timing.bitEnd - f.bitStart =
        if f.timing.rate = .std then s.params.spbStd else s.params.spbFd)

/-! ### Header roles: result and frame -/

/-- SOF and the reserved bits are named and counted, and change nothing else (R87, R92, R86). -/
def Obligations.SofAndReservedBitsAreOnlyNamed : Prop :=
  OnRow (fun _ => .sof) 0x2000 0xF800 0 0 ∧
  OnRow (fun _ => .resF11) 0x2200 0xFE00 15 15 ∧
  OnRow (fun _ => .resE) 0x2400 0xFC00 34 34 ∧
  ∀ (s : State) (f : Frame) (b : Bool), Ready s f b → f.phase = .header →
    let named := fun name => { plainFieldBit s f name b with pos := { f.pos with h := f.pos.h + 1 } }
    exec .sof s = .next (closeBit s (named .sof) false) ∧
    exec .resF11 s = .next (closeBit s (named (if f.flags.fdf then .res else .r0)) false) ∧
    exec .resE s = .next (closeBit s (named (if f.flags.fdf then .res else .r0)) false)

/-- An identifier bit goes into `idAcc` and the row-2 ID field, and changes nothing else (R88, R95). The statement is over
every header state. Where `curField` names no record, the bit extends no field, and a bit number `11 - h` or `31 - h` is
0 beyond the role's positions: both are the model's choice for states no run reaches (assumption log 7 and 21, DESIGN
CHOICE). -/
def Obligations.IdentifierBitsShiftIn : Prop :=
  OnRow .id 0x2000 0xF800 1 11 ∧
  OnRow .idx 0x2400 0xFC00 14 31 ∧
  ∀ (s : State) (f : Frame) (b : Bool) (index : KeyIndex), Ready s f b → f.phase = .header →
    let id := pushBit f.acc.idAcc b
    exec (.id index) s = .next (closeBit s
      { plainFieldBit s f (.id (11 - f.pos.h)) b with
        pos := { f.pos with h := f.pos.h + 1 }
        acc := { f.acc with idAcc := id }
        notes := notesWithField s f (.id (11 - f.pos.h)) b (f.pos.h == 1) .id none id.toNat } false) ∧
    exec (.idx index) s = .next (closeBit s
      { plainFieldBit s f (.id (31 - f.pos.h)) b with
        pos := { f.pos with h := f.pos.h + 1 }
        acc := { f.acc with idAcc := id }
        notes := notesWithField s f (.id (31 - f.pos.h)) b false .id none id.toNat } false)

/-- The bits at positions 12 and 32 go into their provisional registers and into `rtr`, and change nothing else
(R89, R96). -/
def Obligations.ProvisionalBitsAreKept : Prop :=
  OnRow (fun _ => .b12) 0x2000 0xF800 12 12 ∧
  OnRow (fun _ => .b32) 0x2400 0xFC00 32 32 ∧
  ∀ (s : State) (f : Frame) (b : Bool), Ready s f b → f.phase = .header →
    exec .b12 s = .next (closeBit s
      { plainFieldBit s f .rtr b with
        pos := { f.pos with h := f.pos.h + 1 }
        prov := { f.prov with b12 := b, a12 := some f.notes.row1.length }
        flags := { f.flags with rtr := b } } false) ∧
    exec .b32 s = .next (closeBit s
      { plainFieldBit s f .rtr b with
        pos := { f.pos with h := f.pos.h + 1 }
        prov := { f.prov with b32 := b, a32 := some f.notes.row1.length }
        flags := { f.flags with rtr := b } } false)

/-- IDE = 0 sets its registers only; IDE = 1 also clears `rtr`, makes position 12 the SRR bit, which sets BitStatus
when dominant, and renames the identifier bits (R90). The statement is over every header state, not only position 13,
and there it is the model's reading: every record named `ID<n>` is renamed (assumption log 13, DEDUCED; R90 says the
records of positions 1 to 11), and an `a12` that is `none` names no record (log 7, DESIGN CHOICE). -/
def Obligations.IdeBitSelectsTheIdentifierLength : Prop :=
  OnRow (fun _ => .ide) 0x2000 0xF800 13 13 ∧
  ∀ (s : State) (f : Frame), f.phase = .header →
    (Ready s f false →
      exec .ide s = .next (closeBit s
        { plainFieldBit s f .ide false with
          pos := { f.pos with h := f.pos.h + 1 }
          flags := { f.flags with ide := false, ideKnown := true } } false)) ∧
    (Ready s f true →
      exec .ide s = .next (closeBit s
        { plainFieldBit s f .ide true with
          pos := { f.pos with h := f.pos.h + 1 }
          flags := { f.flags with ide := true, ideKnown := true, rtr := false }
          err := f.err ||| timingFlag s f ||| (if f.prov.b12 then 0 else 0x04)
          notes :=
            { f.notes with
              row1 := row1AfterIde f.prov.a12 f.prov.b12 (f.notes.row1 ++ [bitRecord s f .ide true]) } } false))

/-- FDF = 0 sets its registers only; FDF = 1 also clears `rtr` and renames the provisional RTR bit RRS (R91). The
statement is over every header state, and an `a12` or `a32` that is `none` names no record: the model's choice for
states no run reaches (assumption log 7, DESIGN CHOICE). -/
def Obligations.FdfBitSelectsTheFrameFormat : Prop :=
  OnRow (fun _ => .fdfB) 0x2000 0xFC00 14 14 ∧
  OnRow (fun _ => .fdfE) 0x2400 0xFC00 33 33 ∧
  ∀ (s : State) (f : Frame) (i : Instr), i = .fdfB ∨ i = .fdfE → f.phase = .header →
    (Ready s f false →
      exec i s = .next (closeBit s
        { plainFieldBit s f (if f.flags.ide then .r1 else .r0) false with
          pos := { f.pos with h := f.pos.h + 1 }
          flags := { f.flags with fdf := false, fdfKnown := true } } false)) ∧
    (Ready s f true →
      exec i s = .next (closeBit s
        { plainFieldBit s f .fdf true with
          pos := { f.pos with h := f.pos.h + 1 }
          flags := { f.flags with fdf := true, fdfKnown := true, rtr := false }
          notes :=
            { f.notes with
              row1 := changeAt (if f.flags.ide then f.prov.a32 else f.prov.a12) (fun a => { a with name := .rrs })
                (f.notes.row1 ++ [bitRecord s f .fdf true]) } } false))

/-- BRS sets `brs`, and switches to the FD rate at its sample point exactly when it is recessive (R93). -/
def Obligations.BrsBitSwitchesTheRate : Prop :=
  OnRow (fun _ => .brsF11) 0x2200 0xFE00 16 16 ∧
  OnRow (fun _ => .brsF29) 0x2600 0xFE00 35 35 ∧
  ∀ (s : State) (f : Frame) (i : Instr), i = .brsF11 ∨ i = .brsF29 → f.phase = .header →
    (Ready s f false →
      exec i s = .next (closeBit s
        { plainFieldBit s f .brs false with
          pos := { f.pos with h := f.pos.h + 1 }
          flags := { f.flags with brs := false } } false)) ∧
    (Ready s f true →
      exec i s = .next (closeBit s
        { plainFieldBit s (switchRate s.params true f) .brs true with
          pos := { f.pos with h := f.pos.h + 1 }
          flags := { f.flags with brs := true } } false))

/-- ESI sets `esi` and changes nothing else (R94). -/
def Obligations.EsiBitIsKept : Prop :=
  OnRow (fun _ => .esiF11) 0x2200 0xFE00 17 17 ∧
  OnRow (fun _ => .esiF29) 0x2600 0xFE00 36 36 ∧
  ∀ (s : State) (f : Frame) (b : Bool) (i : Instr), i = .esiF11 ∨ i = .esiF29 → Ready s f b → f.phase = .header →
    exec i s = .next (closeBit s
      { plainFieldBit s f .esi b with
        pos := { f.pos with h := f.pos.h + 1 }
        flags := { f.flags with esi := b } } false)

/-- A DLC bit goes into `dlcAcc` and the row-2 DLC field; `first` is the position of the first DLC bit of the frame's
format. The last one completes the header: the byte count is expanded, and the data phase is entered, or skipped when
the count is 0 or the frame is a remote one; CRC-phase entry selects the CRC width and ends dynamic stuffing in an FD
frame (R97, R99). The statement is over every header state. Where `curField` names no record, a bit that opens no field
extends none, and `n` is 0 below `first` and the name's number 0 above `n = 3`: these are the model's choice for states
no run reaches (assumption log 7 and 21, DESIGN CHOICE). -/
def Obligations.DlcBitsShiftInAndTheLastEndsTheHeader : Prop :=
  OnRow .dlcC11 0x2000 0xFE00 15 18 ∧
  OnRow .dlcF11 0x2200 0xFE00 18 21 ∧
  OnRow .dlcC29 0x2400 0xFE00 35 38 ∧
  OnRow .dlcF29 0x2600 0xFE00 37 40 ∧
  ∀ (s : State) (f : Frame) (b : Bool) (index : KeyIndex) (i : Instr),
    i = .dlcC11 index ∨ i = .dlcF11 index ∨ i = .dlcC29 index ∨ i = .dlcF29 index →
    Ready s f b → f.phase = .header →
    let first := if f.flags.ide then (if f.flags.fdf then 37 else 35) else (if f.flags.fdf then 18 else 15)
    let n := f.pos.h - first
    let dlc := pushBit f.acc.dlcAcc b
    let nbytes := byteCount f.flags.fdf dlc
    let read :=
      { plainFieldBit s f (.dlc (3 - n)) b with
        notes := notesWithField s f (.dlc (3 - n)) b (n == 0) .dlc none dlc.toNat }
    (n ≠ 3 →
      exec i s = .next (closeBit s
        { read with pos := { f.pos with h := f.pos.h + 1 }, acc := { f.acc with dlcAcc := dlc } } false)) ∧
    (n = 3 → nbytes ≠ 0 ∧ f.flags.rtr = false →
      exec i s = .next (closeBit s
        { read with phase := .data, acc := { f.acc with dlcAcc := dlc, nbytes := nbytes } } true)) ∧
    (n = 3 → nbytes = 0 ∨ f.flags.rtr = true →
      exec i s = .next (closeBit s
        { read with
          phase := .crc
          acc := { f.acc with dlcAcc := dlc, nbytes := nbytes, crcW := some (crcSelect f.flags.fdf nbytes) }
          pos := { f.pos with j := 0, k := 0 }
          stuff := { read.stuff with dynEn := f.stuff.dynEn && !f.flags.fdf } } true))

/-! ### Data, CRC and trailer roles: result and frame -/

/-- A data bit goes into `byteAcc` and the row-2 field of its byte; the eighth appends the byte, and the last byte
enters the CRC phase (R98, R99). Where `curField` names no record, a bit that opens no field extends none: the model's
choice for states no run reaches (assumption log 7, DESIGN CHOICE). -/
def Obligations.DataBitsAssembleBytes : Prop :=
  OnRow .data 0x4000 0xF800 0 7 ∧
  ∀ (s : State) (f : Frame) (b : Bool) (index : KeyIndex), Ready s f b → f.phase = .data →
    let m := f.pos.dbit % 8
    let byte := pushBit f.acc.byteAcc b
    let read :=
      { plainFieldBit s f (.d (7 - m)) b with
        pos := { f.pos with dbit := f.pos.dbit + 1 }
        notes := notesWithField s f (.d (7 - m)) b (m == 0) .data (some (f.pos.dbit / 8)) byte.toNat }
    (m ≠ 7 →
      exec (.data index) s = .next (closeBit s { read with acc := { f.acc with byteAcc := byte } } false)) ∧
    (m = 7 → f.acc.data.length + 1 ≠ f.acc.nbytes →
      exec (.data index) s = .next (closeBit s
        { read with acc := { f.acc with byteAcc := 0, data := f.acc.data ++ [byte] } } true)) ∧
    (m = 7 → f.acc.data.length + 1 = f.acc.nbytes →
      exec (.data index) s = .next (closeBit s
        { read with
          phase := .crc
          acc :=
            { f.acc with
              byteAcc := 0, data := f.acc.data ++ [byte], crcW := some (crcSelect f.flags.fdf f.acc.nbytes) }
          pos := { f.pos with dbit := f.pos.dbit + 1, j := 0, k := 0 }
          stuff := { read.stuff with dynEn := f.stuff.dynEn && !f.flags.fdf } } true))

/-- A CRC bit goes into `crcRecv` and the row-2 CRC field (R100, R103). The last one completes the CRC (R104): both
CRCs are reported and compared, in an FD frame the stuff count and its parity are checked, dynamic stuffing ends
and the trailer begins. The statement is over every CRC state. Where `curField` or `stcField` names no record, no record
is extended or marked, and `n` is 0 at `j` below 4 and a name's number 0 above the field's last bit: these are the
model's choice for states no run reaches (assumption log 7 and 21, DESIGN CHOICE). -/
def Obligations.CrcBitsShiftInAndTheLastChecksTheFrame : Prop :=
  OnRow .crcC 0x6000 0xFA00 0 14 ∧
  OnRow .crcFd 0x6200 0xFA00 4 24 ∧
  ∀ (s : State) (f : Frame) (b : Bool) (index : KeyIndex) (w : CrcWidth), Ready s f b → f.phase = .crc →
    let recv := pushBit f.acc.crcRecv b
    let n := f.pos.j - 4
    let computed := crcOver w (crcInput f.flags.fdf f.hist)
    let crcWrong := decide (computed ≠ recv)
    let countWrong := f.flags.fdf &&
      (decide (grayDecode f.acc.stc ≠ f.stuff.dynCount % 8) || decide (f.acc.par ≠ grayParity f.acc.stc))
    let read := plainFieldBit s f (.crc 0) b
    let checked :=
      { read with
        phase := .trailer
        acc :=
          { f.acc with crcRecv := recv, crcRecvOut := some recv.toNat, crcCalcOut := some computed.toNat }
        pos := { read.pos with j := f.pos.j + 1 }
        err := read.err ||| (if crcWrong then 0x02 else 0) ||| (if countWrong then 0x20 else 0)
        stuff := { read.stuff with dynEn := false }
        notes :=
          { read.notes with
            row2 := changeAt f.notes.stcField (markIf countWrong)
              (changeAt f.notes.curField (markIf crcWrong) (extendedRow2 s f recv.toNat)) } }
    (f.flags.fdf = false → f.pos.j ≠ 14 →
      exec (.crcC index) s = .next (closeBit s
        { plainFieldBit s f (.crc (14 - f.pos.j)) b with
          pos := { f.pos with j := f.pos.j + 1 }
          acc := { f.acc with crcRecv := recv }
          notes := notesWithField s f (.crc (14 - f.pos.j)) b (f.pos.j == 0) .crc none recv.toNat } false)) ∧
    (f.flags.fdf = true → f.acc.crcW = some w → n ≠ w.bits - 1 →
      exec (.crcFd index) s = .next (closeBit s
        { plainFieldBit s f (.crc (w.bits - 1 - n)) b with
          pos := { f.pos with j := f.pos.j + 1, k := f.pos.k + 1 }
          acc := { f.acc with crcRecv := recv }
          notes := notesWithField s f (.crc (w.bits - 1 - n)) b (n == 0) .crc none recv.toNat } false)) ∧
    (f.flags.fdf = false → f.acc.crcW = some w → f.pos.j = 14 →
      exec (.crcC index) s = .next (closeBit s checked true)) ∧
    (f.flags.fdf = true → f.acc.crcW = some w → n = w.bits - 1 →
      exec (.crcFd index) s = .next (closeBit s checked true))

/-- A stuff-count bit goes into `stc`, the CRC history and the row-2 STC field (R101). Where `curField` names no record, a
bit that opens no field extends none, and the name's number `2 - j` is 0 above `j = 2`: both are the model's choice for
states no run reaches (assumption log 7 and 21, DESIGN CHOICE). -/
def Obligations.StuffCountBitsShiftIn : Prop :=
  OnRow .stc 0x6200 0xFA00 0 2 ∧
  ∀ (s : State) (f : Frame) (b : Bool) (index : KeyIndex), Ready s f b → f.phase = .crc → f.flags.fdf = true →
    let stc := pushBit f.acc.stc b
    let notes := notesWithField s f (.sc (2 - f.pos.j)) b (f.pos.j == 0) .stc none stc.toNat
    exec (.stc index) s = .next (closeBit s
      { plainFieldBit s f (.sc (2 - f.pos.j)) b with
        pos := { f.pos with j := f.pos.j + 1, k := f.pos.k + 1 }
        acc := { f.acc with stc := stc }
        hist := f.hist ++ [(b, .payload)]
        notes :=
          { notes with stcField := if f.pos.j = 0 then some f.notes.row2.length else f.notes.stcField } } false)

/-- The parity bit goes into `par` and the CRC history, and the row-2 STC field shows the decoded count (R102). Where
`curField` names no record, no field is extended: the model's choice for states no run reaches (assumption log 7, DESIGN
CHOICE). -/
def Obligations.ParityBitIsKept : Prop :=
  OnRow (fun _ => .par) 0x6200 0xFA00 3 3 ∧
  ∀ (s : State) (f : Frame) (b : Bool), Ready s f b → f.phase = .crc → f.flags.fdf = true →
    exec .par s = .next (closeBit s
      { plainFieldBit s f .par b with
        pos := { f.pos with j := f.pos.j + 1, k := f.pos.k + 1 }
        acc := { f.acc with par := b }
        hist := f.hist ++ [(b, .payload)]
        notes := notesWithField s f .par b false .stc none (grayDecode f.acc.stc) } true)

/-- DL1 switches back to the standard rate at its sample point when BRS was set, and sets BitStatus on its own
record when dominant (R105). -/
def Obligations.Dl1SwitchesBackAndMustBeRecessive : Prop :=
  OnRow (fun _ => .dl1) 0x8000 0xF800 0 0 ∧
  ∀ (s : State) (f : Frame) (b : Bool), Ready s f b → f.phase = .trailer →
    let f0 := if f.flags.brs then switchRate s.params false f else f
    exec .dl1 s = .next (closeBit s
      { plainFieldBit s f0 .dl1 b with
        pos := { f.pos with t := f.pos.t + 1 }
        err := f.err ||| timingFlag s f0 ||| (if b then 0 else 0x04)
        notes := { f.notes with row1 := rowWithMark s f0 .dl1 b (!b) } } false)

/-- A dominant ACK sets `ack`, a recessive one sets BitStatus on its own record (R106). -/
def Obligations.AckBitSetsAckOrBitStatus : Prop :=
  OnRow (fun _ => .ack) 0x8000 0xF800 1 1 ∧
  ∀ (s : State) (f : Frame) (b : Bool), Ready s f b → f.phase = .trailer →
    exec .ack s = .next (closeBit s
      { plainFieldBit s f .ack b with
        pos := { f.pos with t := f.pos.t + 1 }
        flags := { f.flags with ack := f.flags.ack || !b }
        err := f.err ||| timingFlag s f ||| (if b then 0x04 else 0)
        notes := { f.notes with row1 := rowWithMark s f .ack b b } } false)

/-- DL2 and the EOF bits set BitStatus on their own record when dominant, and the tenth trailer bit finishes the
frame (R107, R108). The statement is over every trailer state, and the name's number `t - 2` is 0 at `t` below 2: the
model's choice for states no run reaches (assumption log 21, DESIGN CHOICE). -/
def Obligations.Dl2AndEofMustBeRecessive : Prop :=
  OnRow (fun _ => .dl2) 0x8000 0xF800 2 2 ∧
  OnRow .eof 0x8000 0xF800 3 9 ∧
  ∀ (s : State) (f : Frame) (b : Bool) (index : KeyIndex), Ready s f b → f.phase = .trailer →
    exec .dl2 s = .next (closeBit s
      { plainFieldBit s f .dl2 b with
        pos := { f.pos with t := f.pos.t + 1 }
        err := f.err ||| timingFlag s f ||| (if b then 0 else 0x04)
        notes := { f.notes with row1 := rowWithMark s f .dl2 b (!b) } } false) ∧
    exec (.eof index) s = .next (closeBit s
      { plainFieldBit s f (.eof (f.pos.t - 2)) b with
        phase := if f.pos.t + 1 = 10 then .finished else .trailer
        pos := { f.pos with t := f.pos.t + 1 }
        err := f.err ||| timingFlag s f ||| (if b then 0 else 0x04)
        notes := { f.notes with row1 := rowWithMark s f (.eof (f.pos.t - 2)) b (!b) } } false)

/-! ### Stuff bits: result and frame -/

/-- A dynamic stuff bit is counted, restarts the run, and sets DynamicStuffing on its own record when it
continues the run; it changes no field register, no counter but `k` and no phase (R110, R82). -/
def Obligations.DynamicStuffBitIsCountedAndChecked : Prop :=
  OnRow (fun _ => .dstuff) 0x1000 0x1000 0 63 ∧
  ∀ (s : State) (f : Frame) (b : Bool), Ready s f b →
    let plain := plainBit s f true [(b, .dstuff)] .stuff b
    let wrong := b == f.stuff.runVal
    exec .dstuff s = .next (closeBit s
      { plain with
        stuff := { plain.stuff with dynCount := f.stuff.dynCount + 1 }
        err := plain.err ||| (if wrong then 0x08 else 0)
        notes := { f.notes with row1 := rowWithMark s f .stuff b wrong } } false)

/-- A fixed stuff bit sets FixedStuffing on its own record when it equals the bit before it; it never enters the
CRC history and changes no field register, no counter but `k` and no phase (R113, R82). -/
def Obligations.FixedStuffBitIsChecked : Prop :=
  OnRow (fun _ => .fsb) 0x6A00 0xFA00 0 63 ∧
  ∀ (s : State) (f : Frame) (b : Bool), Ready s f b →
    let plain := plainBit s f false [] .fsb b
    let wrong := b == f.stuff.prevBit
    exec .fsb s = .next (closeBit s
      { plain with
        err := plain.err ||| (if wrong then 0x10 else 0)
        notes := { f.notes with row1 := rowWithMark s f .fsb b wrong } } false)

/-- Stuffing undone (R115, the spec's own inference from R109, R110 and R111): of the wire bits a transmitter makes by inserting a stuff bit after every five
identical wire bits, the decoder classifies exactly the inserted bits as dynamic stuff bits, finds none of them wrong
and leaves the field bits in order. `f` is any frame at the start of a stuffed region, with the run as at frame start;
the classification, the check and the bookkeeping between two bits are the machine's. -/
def Obligations.DestuffingUndoesStuffing : Prop :=
  ∀ (bits : List Bool) (f : Frame), f.stuff.dynEn = true → f.stuff.runVal = true → f.stuff.runLen = 0 →
    ¬ (f.phase = .crc ∧ f.flags.fdf = true) →
    let wire := stuffBits true 0 bits
    let seen := validate f (wire.map Prod.fst)
    seen.map (fun e => (e.1, e.2.1)) = wire ∧ (∀ e ∈ seen, e.2.2 = false) ∧ fieldBits seen = bits

/-! ### Frame end and output -/

/-- A bit step ends with the frame emitted when the frame is finished or carries an error and seven recessive bits;
else the poll of a completed field is made and the next bit starts where this one ended (R81, R128, R129, R74). The
search resumes at the rounded end of the frame (R79). -/
def Obligations.FrameEndEmitsThePacket : Prop :=
  ∀ (s : State) (f : Frame) (fieldDone : Bool),
    (f.phase = .finished ∨ (7 ≤ f.recRun ∧ f.err ≠ 0) →
      closeBit s f fieldDone =
        { s with
          out := s.out ++
            [⟨f.acc.idAcc, f.flags.ide, f.flags.fdf, f.flags.brs, f.flags.rtr, f.flags.esi, f.flags.ack, f.acc.dlcAcc,
              f.acc.data, f.acc.crcRecvOut, f.acc.crcCalcOut, f.notes.startSample, rnd f.timing.bitEnd, f.err,
              f.notes.row1, f.notes.row2⟩]
          run := { s.run with searchFrom := rnd f.timing.bitEnd, mode := .search }
          ctx := none }) ∧
    (¬ (f.phase = .finished ∨ (7 ≤ f.recRun ∧ f.err ≠ 0)) →
      closeBit s f fieldDone =
        (if fieldDone then abortPoll { s with ctx := some { f with bitStart := f.timing.bitEnd } }
         else { s with ctx := some { f with bitStart := f.timing.bitEnd } }))

/-- No step and no role changes a parameter or a sample: every sample index reads as before (R33, R34). -/
def Obligations.NothingWritesTheInputs : Prop :=
  (∀ s t : State, step s = .next t →
    t.params = s.params ∧ t.raw = s.raw ∧ ∀ a, Memory.read t.raw a = Memory.read s.raw a) ∧
  (∀ (i : Instr) (s t : State), exec i s = .next t →
    t.params = s.params ∧ t.raw = s.raw ∧ ∀ a, Memory.read t.raw a = Memory.read s.raw a)

/-- The output only grows, by at most one packet a step, and only a step that leaves a frame adds one (R34). The
search then resumes at the packet's end sample (R79). -/
def Obligations.OutputOnlyGrows : Prop :=
  ∀ s t : State, step s = .next t →
    t.out = s.out ∨ ∃ f p, s.ctx = some f ∧ t.run.mode = .search ∧ t.out = s.out ++ [p] ∧
      t.run.searchFrom = p.endSample ∧ p.startSample = f.notes.startSample

/-- No record is read back: the packets emitted so far have no effect on what a step does (R34). -/
def Obligations.EmittedPacketsAreNeverReadBack : Prop :=
  ∀ (s : State) (earlier : List Packet),
    step { s with out := earlier ++ s.out } =
      match step s with
      | .next t => .next { t with out := earlier ++ t.out }
      | .fault e => .fault e
      | .refused r => .refused r

/-- An error flag once set in a frame stays set to the frame's end and stands in its packet (R27, R123). -/
def Obligations.ErrorFlagsNeverClear : Prop :=
  ∀ (s t : State) (f : Frame), s.run.mode = .frame → s.ctx = some f → step s = .next t →
    (∀ g, t.ctx = some g → f.err &&& g.err = f.err) ∧ (∀ p, t.out = s.out ++ [p] → f.err &&& p.err = f.err)

/-! ### CRC engine and tables -/

/-- The three CRC variants (R116), one step of the CRC register in numbers (R117), and the CRC of a list of bits as the
steps of its bits in order from the initial value (R118). -/
def Obligations.CrcEngineIsTheShiftRegister : Prop :=
  (CrcWidth.w15.bits = 15 ∧ CrcWidth.w15.poly = 0x4599 ∧ crcOver .w15 [] = 0x0000) ∧
  (CrcWidth.w17.bits = 17 ∧ CrcWidth.w17.poly = 0x1685B ∧ crcOver .w17 [] = 0x10000) ∧
  (CrcWidth.w21.bits = 21 ∧ CrcWidth.w21.poly = 0x102899 ∧ crcOver .w21 [] = 0x100000) ∧
  (∀ w : CrcWidth, w.hiMask.toNat = 2 ^ (w.bits - 1) ∧ w.wMask.toNat = 2 ^ w.bits - 1) ∧
  (∀ (w : CrcWidth) (reg : BitVec 21) (b : Bool), reg.toNat < 2 ^ w.bits →
    let shifted := 2 * reg.toNat % 2 ^ w.bits
    (crcStep w reg b).toNat =
      (if decide (2 ^ (w.bits - 1) ≤ reg.toNat) ^^ b then shifted ^^^ w.poly.toNat else shifted) ∧
    (crcStep w reg b).toNat < 2 ^ w.bits) ∧
  (∀ (w : CrcWidth) (bits : List Bool) (b : Bool), crcOver w (bits ++ [b]) = crcStep w (crcOver w bits) b)

/-- Flipping one input bit changes the CRC, for each of the three widths (R122). -/
def Obligations.CrcSeesEverySingleBitFlip : Prop :=
  ∀ (w : CrcWidth) (before after : List Bool) (b : Bool),
    crcOver w (before ++ b :: after) ≠ crcOver w (before ++ (!b) :: after)

/-- The CRC runs over the field bits alone in a Classic frame, and over every history entry in an FD frame
(R120); its width is chosen from `fdf` and the byte count (R119). -/
def Obligations.CrcInputAndWidthFollowTheFormat : Prop :=
  (∀ hist, crcInput true hist = hist.map Prod.fst) ∧
  (∀ hist, crcInput false hist = (hist.filter (fun e => decide (e.2 = .field))).map Prod.fst) ∧
  (∀ n, crcSelect false n = .w15) ∧
  (∀ n, n ≤ 16 → crcSelect true n = .w17) ∧
  (∀ n, 16 < n → crcSelect true n = .w21)

/-- The byte count of every DLC code (R54). -/
def Obligations.ByteCountTable : Prop :=
  (∀ (fdf : Bool) (d : BitVec 4), d.toNat ≤ 8 → byteCount fdf d = d.toNat) ∧
  (∀ d : BitVec 4, 8 < d.toNat → byteCount false d = 8) ∧
  [9, 10, 11, 12, 13, 14, 15].map (fun d => byteCount true (BitVec.ofNat 4 d)) = [12, 16, 20, 24, 32, 48, 64]

/-- The Gray code of the stuff count and its decoding, and the parity that makes the four bits even (R55). -/
def Obligations.GrayCodeOfTheStuffCount : Prop :=
  [0, 1, 2, 3, 4, 5, 6, 7].map grayEncode = [0b000, 0b001, 0b011, 0b010, 0b110, 0b111, 0b101, 0b100] ∧
  (∀ n, grayEncode n = grayEncode (n % 8)) ∧
  (∀ n, grayDecode (grayEncode n) = n % 8) ∧ (∀ n, grayParity (grayEncode n) = decide (n % 2 = 1)) ∧
  (∀ g, grayDecode g =
    4 * (g.getLsbD 2).toNat + 2 * (g.getLsbD 2 ^^ g.getLsbD 1).toNat +
      ((g.getLsbD 2 ^^ g.getLsbD 1) ^^ g.getLsbD 0).toNat) ∧
  (∀ g, grayParity g = ((g.getLsbD 2 ^^ g.getLsbD 1) ^^ g.getLsbD 0))

/-! ### Sample memory -/

/-- A sample the host writes reads back and every other sample reads as before; writing back what is read changes
nothing, a second write to a sample replaces the first, and writes to two samples commute. The representation is the
model's choice (assumption log 2). -/
def Obligations.SampleWritesReadBackAndCompose : Prop :=
  ∀ (m : Memory) (i k : Nat) (v w : Byte), Memory.wf m = true →
    Memory.read (Memory.write m i v) i = v ∧
    (k ≠ i → Memory.read (Memory.write m i v) k = Memory.read m k) ∧
    Memory.write m i (Memory.read m i) = m ∧
    Memory.write (Memory.write m i v) i w = Memory.write m i w ∧
    (k ≠ i → Memory.write (Memory.write m i v) k w = Memory.write (Memory.write m k w) i v)

/-! ### Invariants -/

/-- The control invariant holds at reset. -/
def Obligations.ControlInvariantAtReset : Prop := Inv State.reset

/-- Every step keeps the control invariant: the run state agrees with the frame context, the counters stay in the
ranges of the frame layout, the rate and the extended window agree with the frame's position, and a frame that goes
on is not due to end (R14, R20, R21, R83, R86, R99, R104, R111, R128, R148). -/
def Obligations.StepsKeepTheControlInvariant : Prop :=
  ∀ s t : State, Inv s → step s = .next t → Inv t

/-- Every step keeps the references into the annotation rows valid (R23, R29). -/
def Obligations.StepsKeepTheReferencesValid : Prop :=
  ∀ s t : State, Inv s → (∀ f, s.ctx = some f → RefsOk f) → step s = .next t → ∀ g, t.ctx = some g → RefsOk g

/-- Every key that a run can form has a role (R58). -/
def Obligations.EveryFormedKeyHasARole : Prop :=
  ∀ (s : State) (f : Frame), Inv s → s.ctx = some f → ∃ i, i.wf = true ∧ decode (dispatchKey (beginBit s.params f)) = .ok i

/-- A run whose inputs are in range steps until it ends: no reachable state stops the machine before mode
`DONE` (R9, R58, R134). -/
def Obligations.NoStopBeforeTheEnd : Prop :=
  ∀ s : State, Inv s → s.runnable = true → s.run.mode ≠ .done → ∃ t, step s = .next t

/-- The phase never goes back, and a bit step leaves a phase only on a field bit and on the condition of R83: the header
on its last bit, the last DLC bit, for DATA when there are bytes to read and the frame is no remote one, else for CRC;
DATA on the last bit of the last byte, for CRC; CRC on the last CRC bit, for the trailer (R20, R83). The header lengths
are those of R49. -/
def Obligations.PhasesOnlyMoveForward : Prop :=
  ∀ (s t : State) (f g : Frame), Inv s → s.ctx = some f → step s = .next t → t.ctx = some g →
    let headerBits := if f.flags.ide then (if f.flags.fdf then 41 else 39) else (if f.flags.fdf then 22 else 19)
    phaseRank f.phase ≤ phaseRank g.phase ∧
    (f.phase ≠ g.phase →
      classify f = .field ∧
      ((f.phase = .header ∧ f.pos.h + 1 = headerBits ∧
          ((g.phase = .data ∧ g.acc.nbytes ≠ 0 ∧ g.flags.rtr = false) ∨
            (g.phase = .crc ∧ (g.acc.nbytes = 0 ∨ g.flags.rtr = true)))) ∨
        (f.phase = .data ∧ g.phase = .crc ∧ f.pos.dbit + 1 = 8 * f.acc.nbytes ∧
          g.acc.data.length = g.acc.nbytes) ∨
        (f.phase = .crc ∧ g.phase = .trailer ∧
          f.pos.j = if f.flags.fdf then 3 + (crcSelect true f.acc.nbytes).bits else 14)))

/-- Every step keeps row 1 of the frame in progress and of every packet without a gap (R127). -/
def Obligations.StepsKeepRowsContiguous : Prop :=
  (RowsContiguous State.reset) ∧ ∀ s t : State, RowsContiguous s → step s = .next t → RowsContiguous t

/-- Stuff bits of the two schemes never meet: in a reachable state a bit classified as a fixed stuff bit has dynamic
stuffing off, and no stuff bit is recognised in the trailer (R114, the spec's own inference from R109, R112 and
R99). -/
def Obligations.StuffingSchemesNeverMeet : Prop :=
  ∀ (s : State) (f : Frame), Inv s → s.ctx = some f →
    (isFixedStuff f = true → f.phase = .crc ∧ f.flags.fdf = true ∧ f.stuff.dynEn = false) ∧
    (isDynamicStuff f = true → f.stuff.dynEn = true) ∧ (f.phase = .trailer → classify f = .field)

/-- Where R9's end of every run holds (R9, R75). From every state with the control invariant whose inputs are not refused,
the run ends, or it emits a packet whose end sample does not lie above its start sample, so that R79 resumes the search at
the frame's own edge (assumption log 9). A run whose standard bit lasts at least half a sample has no such packet: it
ends, in one of the three statuses. -/
def Obligations.RunsEndUnlessAFrameIsFoundAgain : Prop :=
  (∀ s : State, Inv s → s.runnable = true →
    RunEnds s ∨ ∃ n t more p, Sys2Proof.core.run n s = .next t ∧ t.out = s.out ++ more ∧ p ∈ more ∧
      p.endSample ≤ p.startSample) ∧
  (∀ (p : Params) (raw : Memory), (State.start p raw).runnable = true → Memory.wf raw = true → 1 / 2 ≤ p.spbStd →
    ∃ n t, Sys2Proof.core.run n (State.start p raw) = .next t ∧ t.run.mode = .done ∧
      (t.run.status = .completed ∨ t.run.status = .exhausted ∨ t.run.status = .aborted))

/-- R9's sentence without a bound: every run that is not refused ends, in one of the three statuses. Expected to fail: R78
and R79, as D4 and D31 rule them, find a frame shorter than half a sample again at its own edge for ever (assumption
log 9). -/
def Obligations.EveryAcceptedRunEnds : Prop :=
  ∀ (p : Params) (raw : Memory), (State.start p raw).runnable = true → Memory.wf raw = true →
    ∃ n t, Sys2Proof.core.run n (State.start p raw) = .next t ∧ t.run.mode = .done ∧
      (t.run.status = .completed ∨ t.run.status = .exhausted ∨ t.run.status = .aborted)
end

