-- ==== Sys2Proof/Laws/BitStep.lean ====
section
/-! SUPPORT. What a bit step can do, said once: the frame when the field action begins, the meaning of a role as the
bit step of its rule, the end of a bit, and the cases of a step. -/

namespace Sys2Proof.Machine

open Sys2Proof.Safety

/-! ### Timing operations -/

/-- Resynchronisation changes the timing registers only. -/
theorem resync_eq (s : State) (f : Frame) : resync s f = { f with timing := (resync s f).timing } := by
  unfold resync; split <;> rfl

/-- The two outcomes of a resynchronisation. -/
theorem resync_cases (s : State) (f : Frame) :
    (resyncEdge s f = none ∧ resync s f = f) ∨
    ∃ e, resyncEdge s f = some e ∧ resync s f = { f with timing := { f.timing with bitEnd := position e } } := by
  unfold resync
  cases h : resyncEdge s f with
  | none => exact .inl ⟨rfl, rfl⟩
  | some e => exact .inr ⟨e, rfl, rfl⟩

/-- Resynchronisation changes `bitEnd` only. -/
theorem resync_timing (s : State) (f : Frame) :
    (resync s f).timing = { f.timing with bitEnd := (resync s f).timing.bitEnd } := by
  rcases resync_cases s f with ⟨-, h⟩ | ⟨e, -, h⟩ <;> rw [h]

@[simp] theorem resync_rate (s : State) (f : Frame) : (resync s f).timing.rate = f.timing.rate := by
  rw [resync_timing]
@[simp] theorem resync_ackExt (s : State) (f : Frame) : (resync s f).timing.ackExt = f.timing.ackExt := by
  rw [resync_timing]
@[simp] theorem resync_samplePoint (s : State) (f : Frame) :
    (resync s f).timing.samplePoint = f.timing.samplePoint := by
  rw [resync_timing]

/-- The members of an index range. -/
theorem mem_indices {i lo hi : Nat} : i ∈ indices lo hi ↔ lo ≤ i ∧ i < hi := by
  rw [indices, List.mem_range'_1]; omega

/-- The first index of a range that meets a condition. -/
theorem find_indices_eq_some {p : Nat → Bool} {lo hi e : Nat} :
    (indices lo hi).find? p = some e ↔ lo ≤ e ∧ e < hi ∧ p e = true ∧ ∀ i, lo ≤ i → i < e → p i = false := by
  have aux : ∀ n lo, (List.range' lo n).find? p = some e ↔
      lo ≤ e ∧ e < lo + n ∧ p e = true ∧ ∀ i, lo ≤ i → i < e → p i = false := by
    intro n
    induction n with
    | zero => intro lo; simp; omega
    | succ n ih =>
      intro lo
      rw [List.range'_succ, List.find?_cons]
      cases hp : p lo with
      | true =>
        constructor
        · rintro h
          cases h
          exact ⟨Nat.le_refl _, by omega, hp, fun i h1 h2 => by omega⟩
        · rintro ⟨h1, -, -, h4⟩
          by_cases he : e = lo
          · rw [he]
          · have := h4 lo (Nat.le_refl _) (by omega); simp [hp] at this
      | false =>
        simp only [ih]
        constructor
        · rintro ⟨h1, h2, h3, h4⟩
          refine ⟨by omega, by omega, h3, fun i hi1 hi2 => ?_⟩
          by_cases hi : i = lo
          · rw [hi, hp]
          · exact h4 i (by omega) hi2
        · rintro ⟨h1, h2, h3, h4⟩
          have hne : e ≠ lo := fun h => by rw [h, hp] at h3; cases h3
          exact ⟨by omega, by omega, h3, fun i hi1 hi2 => h4 i (by omega) hi2⟩
  rw [indices, aux]
  constructor
  · rintro ⟨h1, h2, h3⟩; exact ⟨h1, by omega, h3⟩
  · rintro ⟨h1, h2, h3⟩; exact ⟨h1, by omega, h3⟩

/-- No index of a range meets a condition. -/
theorem find_indices_eq_none {p : Nat → Bool} {lo hi : Nat} :
    (indices lo hi).find? p = none ↔ ∀ i, lo ≤ i → i < hi → p i = false := by
  rw [List.find?_eq_none]
  simp only [mem_indices, Bool.not_eq_true]
  exact ⟨fun h i h1 h2 => h i ⟨h1, h2⟩, fun h i hi => h i hi.1 hi.2⟩

/-- A dominant edge lies inside the capture. -/
theorem domEdge_lt {s : State} {i : Nat} (h : domEdge s i = true) : 1 ≤ i ∧ i < s.params.sampleCount := by
  simp only [domEdge, Bool.and_eq_true, decide_eq_true_eq] at h
  exact h.1

/-- An edge lies inside the capture. -/
theorem edge_lt {s : State} {i : Nat} (h : edge s i = true) : 1 ≤ i ∧ i < s.params.sampleCount := by
  simp only [edge, Bool.and_eq_true, decide_eq_true_eq] at h
  exact h.1

/-! ### The frame when a field action begins -/

/-- A change of a list's last element. -/
theorem modify_append_length {α : Type} (l : List α) (a : α) (change : α → α) :
    (l ++ [a]).modify l.length change = l ++ [change a] := by
  induction l with
  | nil => rfl
  | cons x l ih => simp [ih]

/-- The steady-window check sets the Timing flag and marks the record of the bit, which is the last one. -/
theorem steadyCheck_annotate (s : State) (f : Frame) (name : BitName) (b : Bool) :
    steadyCheck s (annotate name b f) =
      { f with
        notes :=
          { f.notes with
            row1 := f.notes.row1 ++
              [⟨rnd f.bitStart, rnd f.timing.bitEnd, name, none, b.toNat, steadyViolated s f⟩] }
        err := f.err ||| (if steadyViolated s f then 0x01 else 0) } := by
  have hviolated : steadyViolated s (annotate name b f) = steadyViolated s f := rfl
  rw [steadyCheck, setErrorIf, hviolated]
  cases steadyViolated s f with
  | false => simp [annotate]
  | true =>
    simp [annotate, setError, Notes.markCurrent, Notes.markBit, Notes.currentBit, Notes.changeBit,
      Annotation.marked, ErrorFlag.mask, ErrorFlag.bit, modify_append_length]

/-- The frame on which a role's field action runs (41_frame_fsm.md R81). -/
theorem beforeField_eq (r : RoleRule) (s : State) (b : Bool) (f : Frame) :
    beforeField r s b f =
      { r.samplePointAction s.params b f with
        timing := (resync s (r.samplePointAction s.params b f)).timing
        notes :=
          { (r.samplePointAction s.params b f).notes with
            row1 := (r.samplePointAction s.params b f).notes.row1 ++
              [bitRecord s (r.samplePointAction s.params b f) (r.name f b) b] }
        err := (r.samplePointAction s.params b f).err ||| timingFlag s (r.samplePointAction s.params b f) } := by
  rw [beforeField, steadyCheck_annotate]
  simp only [bitRecord, timingFlag]
  rw [resync_eq s (r.samplePointAction s.params b f)]

/-! ### A role's meaning -/

theorem frame?_of_mode {s : State} {f : Frame} (hmode : s.run.mode = .frame) (hctx : s.ctx = some f) :
    s.frame? = some f := by
  rw [State.frame?, hmode, hctx]

theorem frame?_eq_some {s : State} {f : Frame} : s.frame? = some f ↔ s.run.mode = .frame ∧ s.ctx = some f := by
  unfold State.frame?; cases s.run.mode <;> simp

theorem sampleBit_eq_some {s : State} {f : Frame} {b : Bool} :
    sampleBit s f = some b ↔
      rnd f.timing.samplePoint < s.params.sampleCount ∧ level s (rnd f.timing.samplePoint) = b := by
  rw [sampleBit, exhausted]; split <;> simp_all

/-- A role whose rule is known runs as the bit step of that rule. -/
theorem exec_eq_bitStep {i : Instr} {s : State} {f : Frame} {r : RoleRule} (hf : s.frame? = some f)
    (hr : roleRule i f = some r) : exec i s = bitStep r s := by
  cases i <;> first
    | (cases hr; rfl)
    | (simp only [roleRule, Option.map_eq_some_iff] at hr
       obtain ⟨w, hw, rfl⟩ := hr
       simp only [exec, execCrcFd, hf, hw])

/-- Every role but CRC.FD is the bit step of one rule. -/
theorem exec_forms (i : Instr) : (∃ r, ∀ s, exec i s = bitStep r s) ∨ ∃ index, i = .crcFd index :=
  match i with
  | .dstuff => .inl ⟨dstuffRule, fun _ => rfl⟩
  | .fsb => .inl ⟨fsbRule, fun _ => rfl⟩
  | .sof => .inl ⟨sofRule, fun _ => rfl⟩
  | .id _ => .inl ⟨idRule, fun _ => rfl⟩
  | .b12 => .inl ⟨b12Rule, fun _ => rfl⟩
  | .ide => .inl ⟨ideRule, fun _ => rfl⟩
  | .fdfB => .inl ⟨fdfBRule, fun _ => rfl⟩
  | .dlcC11 _ => .inl ⟨dlcRule, fun _ => rfl⟩
  | .resF11 => .inl ⟨resF11Rule, fun _ => rfl⟩
  | .brsF11 => .inl ⟨brsRule, fun _ => rfl⟩
  | .esiF11 => .inl ⟨esiRule, fun _ => rfl⟩
  | .dlcF11 _ => .inl ⟨dlcRule, fun _ => rfl⟩
  | .idx _ => .inl ⟨idxRule, fun _ => rfl⟩
  | .b32 => .inl ⟨b32Rule, fun _ => rfl⟩
  | .fdfE => .inl ⟨fdfERule, fun _ => rfl⟩
  | .resE => .inl ⟨resERule, fun _ => rfl⟩
  | .dlcC29 _ => .inl ⟨dlcRule, fun _ => rfl⟩
  | .brsF29 => .inl ⟨brsRule, fun _ => rfl⟩
  | .esiF29 => .inl ⟨esiRule, fun _ => rfl⟩
  | .dlcF29 _ => .inl ⟨dlcRule, fun _ => rfl⟩
  | .data _ => .inl ⟨dataRule, fun _ => rfl⟩
  | .crcC _ => .inl ⟨crcCRule, fun _ => rfl⟩
  | .stc _ => .inl ⟨stcRule, fun _ => rfl⟩
  | .par => .inl ⟨parRule, fun _ => rfl⟩
  | .crcFd index => .inr ⟨index, rfl⟩
  | .dl1 => .inl ⟨dl1Rule, fun _ => rfl⟩
  | .ack => .inl ⟨ackRule, fun _ => rfl⟩
  | .dl2 => .inl ⟨dl2Rule, fun _ => rfl⟩
  | .eof _ => .inl ⟨eofRule, fun _ => rfl⟩

/-- Every role has a rule, but CRC.FD has one only once a width is selected. -/
theorem roleRule_isSome (i : Instr) (f : Frame) :
    (∃ r, roleRule i f = some r) ∨ ((∃ index, i = .crcFd index) ∧ f.acc.crcW = none) := by
  cases i <;> first
    | exact .inl ⟨_, rfl⟩
    | (cases hw : f.acc.crcW with
       | none => exact .inr ⟨⟨_, rfl⟩, rfl⟩
       | some w => exact .inl ⟨_, by simp [roleRule, hw]; rfl⟩)

/-- The bit step on a bit that can be processed. -/
theorem bitStep_ready {s : State} {f : Frame} {b : Bool} (r : RoleRule) (h : Ready s f b) :
    bitStep r s =
      match runField r b (beforeField r s b f) with
      | .error e => .fault e
      | .ok (g, fieldDone) => .next (closeBit s g fieldDone) := by
  rw [bitStep, frame?_of_mode h.mode h.ctx]
  simp only [sampleBit_eq_some.mpr ⟨h.inCapture, h.value⟩] <;> rfl

/-- What a bit step that goes on has done. -/
theorem bitStep_next {r : RoleRule} {s t : State} (h : bitStep r s = .next t) :
    ∃ f b g fieldDone, Ready s f b ∧ r.fieldAction b (beforeField r s b f) = .ok (g, fieldDone) ∧
      t = closeBit s (account (beforeField r s b f) r.cls b g) fieldDone := by
  rw [bitStep] at h
  cases hf : s.frame? with
  | none => simp [hf] at h
  | some f =>
    cases hb : sampleBit s f with
    | none => simp [hf, hb] at h
    | some b =>
      obtain ⟨hmode, hctx⟩ := frame?_eq_some.mp hf
      obtain ⟨hin, hval⟩ := sampleBit_eq_some.mp hb
      simp only [hf, hb, runField] at h
      cases hr : r.fieldAction b (beforeField r s b f) with
      | error e => simp [hr] at h
      | ok result =>
        obtain ⟨g, fieldDone⟩ := result
        simp only [hr] at h
        exact ⟨f, b, g, fieldDone, ⟨hmode, hctx, hin, hval⟩, hr, (Host.Outcome.next.inj h).symm⟩

/-- What a role that goes on has done. -/
theorem exec_next {i : Instr} {s t : State} (h : exec i s = .next t) :
    ∃ f b r g fieldDone, Ready s f b ∧ roleRule i f = some r ∧
      r.fieldAction b (beforeField r s b f) = .ok (g, fieldDone) ∧
      t = closeBit s (account (beforeField r s b f) r.cls b g) fieldDone := by
  cases hf : s.frame? with
  | none =>
    cases i <;> simp [exec, execDstuff, execFsb, execSof, execId, execB12, execIde, execFdfB, execDlcC11, execResF11,
      execBrsF11, execEsiF11, execDlcF11, execIdx, execB32, execFdfE, execResE, execDlcC29, execBrsF29, execEsiF29,
      execDlcF29, execData, execCrcC, execStc, execPar, execCrcFd, execDl1, execAck, execDl2, execEof, bitStep, hf]
      at h
  | some f =>
    rcases roleRule_isSome i f with ⟨r, hr⟩ | ⟨⟨index, rfl⟩, hw⟩
    · rw [exec_eq_bitStep hf hr] at h
      obtain ⟨f', b, g, fieldDone, hready, hact, ht⟩ := bitStep_next h
      obtain rfl : f' = f := by
        have := (frame?_eq_some.mp hf).2
        rw [hready.ctx] at this
        exact Option.some.inj this
      exact ⟨f', b, r, g, fieldDone, hready, hr, hact, ht⟩
    · simp [exec, execCrcFd, hf, hw] at h

/-! ### The end of a bit -/

/-- The outcomes of a bit's end: the frame is emitted, the next bit starts, or the poll of a completed field takes
the abort or lets the next bit start. -/
theorem closeBit_cases (s : State) (f : Frame) (fieldDone : Bool) :
    (frameEnds f = true ∧ closeBit s f fieldDone = emit s f) ∨
    (frameEnds f = false ∧ fieldDone = false ∧ closeBit s f fieldDone = { s with ctx := some (advance f) }) ∨
    (frameEnds f = false ∧ fieldDone = true ∧ s.params.abort s.run.pollCount = true ∧
      closeBit s f fieldDone =
        { s with
          run := { s.run with pollCount := s.run.pollCount + 1, status := .aborted, mode := .done }, ctx := none }) ∨
    (frameEnds f = false ∧ fieldDone = true ∧ s.params.abort s.run.pollCount = false ∧
      closeBit s f fieldDone =
        { s with run := { s.run with pollCount := s.run.pollCount + 1 }, ctx := some (advance f) }) := by
  unfold closeBit
  cases hend : frameEnds f with
  | true => exact .inl ⟨rfl, rfl⟩
  | false =>
    cases fieldDone with
    | false => exact .inr (.inl ⟨rfl, rfl, rfl⟩)
    | true =>
      cases habort : s.params.abort s.run.pollCount with
      | true => exact .inr (.inr (.inl ⟨rfl, rfl, rfl, by simp [pollAfterField, abortPoll, habort, abortTake]⟩))
      | false => exact .inr (.inr (.inr ⟨rfl, rfl, rfl, by simp [pollAfterField, abortPoll, habort]⟩))

/-- A bit's end touches neither the inputs nor the packets already emitted. -/
theorem closeBit_frame (s : State) (f : Frame) (fieldDone : Bool) :
    (closeBit s f fieldDone).params = s.params ∧ (closeBit s f fieldDone).raw = s.raw ∧
      ((closeBit s f fieldDone).out = s.out ∨
        (closeBit s f fieldDone).out = s.out ++ [packetOf f] ∧ (closeBit s f fieldDone).run.mode = .search ∧
          (closeBit s f fieldDone).run.searchFrom = (packetOf f).endSample) := by
  rcases closeBit_cases s f fieldDone with ⟨-, h⟩ | ⟨-, -, h⟩ | ⟨-, -, -, h⟩ | ⟨-, -, -, h⟩ <;> rw [h] <;>
    simp [emit, packetOf]

/-- A frame that is in progress after a bit's end is the next bit of the same frame, which is not due to end. -/
theorem closeBit_ctx {s : State} {f g : Frame} {fieldDone : Bool} (h : (closeBit s f fieldDone).ctx = some g) :
    frameEnds f = false ∧ g = advance f := by
  rcases closeBit_cases s f fieldDone with ⟨hend, h'⟩ | ⟨hend, -, h'⟩ | ⟨hend, -, -, h'⟩ | ⟨hend, -, -, h'⟩ <;>
    rw [h'] at h <;> simp [emit] at h
  · exact ⟨hend, h.symm⟩
  · exact ⟨hend, h.symm⟩

/-! ### The cases of a step -/

/-- The outcomes of a search. -/
theorem searchStep_cases (s : State) :
    (s.params.abort s.run.pollCount = true ∧
      searchStep s =
        { s with
          run := { s.run with pollCount := s.run.pollCount + 1, status := .aborted, mode := .done }, ctx := none }) ∨
    (s.params.abort s.run.pollCount = false ∧ sofEdge s = none ∧
      searchStep s =
        { s with
          run := { s.run with pollCount := s.run.pollCount + 1, status := .completed, mode := .done }
          ctx := none }) ∨
    ∃ sof, s.params.abort s.run.pollCount = false ∧ sofEdge s = some sof ∧
      searchStep s =
        { s with
          run := { s.run with pollCount := s.run.pollCount + 1, mode := .frame }
          ctx := some (frameReset sof) } := by
  have hedge : ∀ r : RunState, r.searchFrom = s.run.searchFrom → sofEdge { s with run := r } = sofEdge s := by
    intro r hr; simp only [sofEdge, hr]; rfl
  unfold searchStep
  cases habort : s.params.abort s.run.pollCount with
  | true => exact .inl ⟨rfl, by simp [abortPoll, habort, abortTake]⟩
  | false =>
    refine .inr ?_
    cases hsof : sofEdge s with
    | none => exact .inl ⟨rfl, rfl, by simp [abortPoll, habort, findFrame, hedge, hsof, complete]⟩
    | some sof => exact .inr ⟨sof, rfl, rfl, by simp [abortPoll, habort, findFrame, hedge, hsof]⟩

/-- What a step that goes on has done: a search, the exhaustion of a frame, or the role of the frame's key. -/
theorem step_next {s t : State} (h : step s = .next t) :
    s.runnable = true ∧
      ((s.run.mode = .search ∧ t = searchStep s) ∨
        ∃ f, s.run.mode = .frame ∧ s.ctx = some f ∧
          ((exhausted s.params (beginBit s.params f) = true ∧ t = exhaust s) ∨
            ∃ i, exhausted s.params (beginBit s.params f) = false ∧
              decode (dispatchKey (beginBit s.params f)) = .ok i ∧ exec i (beginState s) = .next t)) := by
  unfold step at h
  split at h
  · rename_i hrun
    refine ⟨hrun, ?_⟩
    cases hmode : s.run.mode with
    | search => simp only [hmode] at h; exact .inl ⟨rfl, (Host.Outcome.next.inj h).symm⟩
    | done => simp [hmode] at h
    | frame =>
      simp only [hmode] at h
      cases hctx : s.ctx with
      | none => simp [hctx] at h
      | some f =>
        simp only [hctx, frameStep] at h
        refine .inr ⟨f, rfl, rfl, ?_⟩
        split at h
        · rename_i hex; exact .inl ⟨hex, (Host.Outcome.next.inj h).symm⟩
        · rename_i hex
          cases hk : roleOfBit (beginBit s.params f) with
          | error e => simp [hk] at h
          | ok i =>
            simp only [hk] at h
            exact .inr ⟨i, by simpa using hex, hk, h⟩
  · simp at h

/-- What a step in mode `FRAME` that is not exhausted has done, down to the field action of the role's rule. -/
theorem step_next_frame {s t : State} {f : Frame} (hmode : s.run.mode = .frame) (hctx : s.ctx = some f)
    (h : step s = .next t) :
    t = exhaust s ∨
      ∃ i r b g fieldDone, decode (dispatchKey (beginBit s.params f)) = .ok i ∧
        Ready (beginState s) (beginBit s.params f) b ∧ roleRule i (beginBit s.params f) = some r ∧
        r.fieldAction b (beforeField r (beginState s) b (beginBit s.params f)) = .ok (g, fieldDone) ∧
        t = closeBit (beginState s) (account (beforeField r (beginState s) b (beginBit s.params f)) r.cls b g)
          fieldDone := by
  obtain ⟨-, ⟨hs, -⟩ | ⟨f', -, hctx', hcases⟩⟩ := step_next h
  · rw [hmode] at hs; cases hs
  · obtain rfl : f' = f := by rw [hctx] at hctx'; exact (Option.some.inj hctx').symm
    rcases hcases with ⟨-, ht⟩ | ⟨i, -, hdec, hexec⟩
    · exact .inl ht
    · obtain ⟨f'', b, r, g, fieldDone, hready, hr, hact, ht⟩ := exec_next hexec
      obtain rfl : f'' = beginBit s.params f' := by
        have := hready.ctx
        simp only [beginState, hctx, Option.map_some] at this
        exact (Option.some.inj this).symm
      exact .inr ⟨i, r, b, g, fieldDone, hdec, hready, hr, hact, ht⟩

end Sys2Proof.Machine
end

