-- ==== Sys2Proof/Laws/Decode.lean ====
section
/-! SUPPORT. The decoder on the key of a bit, read through the fields of the key. -/

namespace Sys2Proof.Machine

/-- The first role of a list of index ranges that takes the index. -/
def firstRole (index : KeyIndex) : List (Nat × Nat × Instr) → Option Instr
  | [] => none
  | (lo, hi, i) :: rest => if KeyIndex.within index lo hi then some i else firstRole index rest

/-- The header roles of the four templates by position: `ide` and `fdf` are the key's mode bits. -/
def headerRoles (ide fdf : Bool) (index : KeyIndex) : List (Nat × Nat × Instr) :=
  [(0, 0, .sof), (1, 11, .id index), (12, 12, .b12), (13, 13, .ide)] ++
  (match ide, fdf with
  | false, false => [(14, 14, .fdfB), (15, 18, .dlcC11 index)]
  | false, true => [(14, 14, .fdfB), (15, 15, .resF11), (16, 16, .brsF11), (17, 17, .esiF11), (18, 21, .dlcF11 index)]
  | true, false =>
    [(14, 31, .idx index), (32, 32, .b32), (33, 33, .fdfE), (34, 34, .resE), (35, 38, .dlcC29 index)]
  | true, true =>
    [(14, 31, .idx index), (32, 32, .b32), (33, 33, .fdfE), (34, 34, .resE), (35, 35, .brsF29), (36, 36, .esiF29),
     (37, 40, .dlcF29 index)])

/-- The roles of a phase by the phase's position counter. -/
def phaseRoles (phase : Phase) (ide fdf : Bool) (index : KeyIndex) : List (Nat × Nat × Instr) :=
  match phase with
  | .header => headerRoles ide fdf index
  | .data => [(0, 7, .data index)]
  | .crc => if fdf then [(0, 2, .stc index), (3, 3, .par), (4, 24, .crcFd index)] else [(0, 14, .crcC index)]
  | .trailer => [(0, 0, .dl1), (1, 1, .ack), (2, 2, .dl2), (3, 9, .eof index)]
  | .finished => []

/-- The role of a bit that is no stuff bit. -/
def fieldRole (phase : Phase) (ide fdf : Bool) (index : KeyIndex) : Option Instr :=
  firstRole index (phaseRoles phase ide fdf index)

/-! ### The key in place of its fields -/

/-- A row's mask leaves the index bits out. -/
theorem and_mask (hi m : Key) (index : KeyIndex) (hm : m &&& 0x3F = 0) :
    (hi ||| index.setWidth 16) &&& m = hi &&& m := by
  have hidx : index.setWidth 16 &&& m = 0 := by
    have : index.setWidth 16 = index.setWidth 16 &&& 0x3F := by revert index; decide +kernel
    rw [this, BitVec.and_assoc, BitVec.and_comm 0x3F m, hm]
    exact BitVec.and_zero
  rw [BitVec.and_comm, BitVec.and_or_distrib_left, BitVec.and_comm m, BitVec.and_comm m, hidx]
  exact BitVec.or_zero

/-- The index of a key. -/
theorem index_or (hi : Key) (index : KeyIndex) (hhi : hi.setWidth 6 = 0#6) :
    Key.index (hi ||| index.setWidth 16) = index := by
  rw [Key.index, BitVec.setWidth_or, hhi, BitVec.setWidth_setWidth_of_le _ (by decide), BitVec.setWidth_eq,
    BitVec.zero_or]

/-- The key of given fields is that of index 0 with the index put in. -/
theorem packKey_eq_or (c : BitVec 3) (s x a b : Bool) (index : KeyIndex) :
    packKey c s x a b index = packKey c s x a b 0 ||| index.setWidth 16 := by
  unfold packKey
  apply BitVec.eq_of_getLsbD_eq
  intro i hi
  simp only [BitVec.getLsbD_or, BitVec.getLsbD_append, BitVec.getLsbD_setWidth]
  by_cases h : i < 6
  · simp [h, hi]
  · simp [h, BitVec.getLsbD_of_ge index i (by omega)]

/-- A row's test of a key, by the key of index 0. -/
theorem accepts_or (r : RoleRow) (hi : Key) (index : KeyIndex) (hhi : hi.setWidth 6 = 0#6) (hm : r.mask &&& 0x3F = 0) :
    r.accepts (hi ||| index.setWidth 16) = ((hi &&& r.mask == r.pattern) && KeyIndex.within index r.lo r.hi) := by
  rw [RoleRow.accepts, and_mask _ _ _ hm, index_or _ _ hhi]

/-- The first role of a list of rows. -/
theorem firstRole_map (index : KeyIndex) (rows : List RoleRow) :
    firstRole index (rows.map (fun r => (r.lo, r.hi, r.role index))) =
      (rows.find? (fun r => KeyIndex.within index r.lo r.hi)).map (fun r => r.role index) := by
  induction rows with
  | nil => rfl
  | cons r rows ih =>
    rw [List.map_cons, firstRole, List.find?_cons, ih]
    cases KeyIndex.within index r.lo r.hi <;> rfl

/-- The decoder on a key: the first role among the rows whose fixed bits the key has. -/
theorem decode_or (hi : Key) (index : KeyIndex) (hhi : hi.setWidth 6 = 0#6) :
    (decode (hi ||| index.setWidth 16)).toOption =
      firstRole index
        ((roleTable.filter (fun r => hi &&& r.mask == r.pattern)).map (fun r => (r.lo, r.hi, r.role index))) := by
  have hmask : ∀ r ∈ roleTable, r.mask &&& 0x3F = 0 := by
    simp [roleTable, stuffingRows, headerRows11, headerRows29, tailRows]
  have hfind : roleTable.find? (fun r => r.accepts (hi ||| index.setWidth 16)) =
      roleTable.find? (fun r => (hi &&& r.mask == r.pattern) && KeyIndex.within index r.lo r.hi) :=
    List.find?_congr fun r hr => accepts_or r hi index hhi (hmask r hr)
  rw [firstRole_map, List.find?_filter, decode, hfind, index_or _ _ hhi]
  simp only [Bool.decide_and, Bool.decide_eq_true]
  cases roleTable.find? (fun r => (hi &&& r.mask == r.pattern) && KeyIndex.within index r.lo r.hi) <;> rfl

/-- The key of a dynamic stuff bit. -/
theorem decode_stuffBit (phase : Phase) (fixedBit ide fdf : Bool) (index : KeyIndex) :
    (decode (packKey phase.code true fixedBit ide fdf index)).toOption = some .dstuff := by
  have hwithin : KeyIndex.within index 0 63 = true := by
    have hle : index.toNat ≤ 63 := Nat.le_of_lt_succ index.isLt
    simp [KeyIndex.within, hle]
  have hfirst : ∀ rest, firstRole index ((0, 63, .dstuff) :: rest) = some .dstuff := fun rest => by
    rw [firstRole, if_pos hwithin]
  rw [packKey_eq_or, decode_or]
  · cases phase <;> cases fixedBit <;> cases ide <;> cases fdf <;> exact hfirst _
  · cases phase <;> cases fixedBit <;> cases ide <;> cases fdf <;> rfl

/-- The key of a fixed stuff bit. -/
theorem decode_fixedBit (ide : Bool) (index : KeyIndex) :
    (decode (packKey Phase.crc.code false true ide true index)).toOption = some .fsb := by
  have hwithin : KeyIndex.within index 0 63 = true := by
    have hle : index.toNat ≤ 63 := Nat.le_of_lt_succ index.isLt
    simp [KeyIndex.within, hle]
  have hfirst : ∀ rest, firstRole index ((0, 63, .fsb) :: rest) = some .fsb := fun rest => by
    rw [firstRole, if_pos hwithin]
  rw [packKey_eq_or, decode_or]
  · cases ide <;> exact hfirst _
  · cases ide <;> rfl

/-- The key of a bit that is no stuff bit. -/
theorem decode_fieldBit (phase : Phase) (ide fdf : Bool) (index : KeyIndex) :
    (decode (packKey phase.code false false ide fdf index)).toOption = fieldRole phase ide fdf index := by
  rw [packKey_eq_or, decode_or]
  · cases phase <;> cases ide <;> cases fdf <;> rfl
  · cases phase <;> cases ide <;> cases fdf <;> rfl

theorem decode_eq_ok {k : Key} {i : Instr} : decode k = .ok i ↔ (decode k).toOption = some i := by
  cases decode k <;> simp [Except.toOption]

/-- The role of a bit, from the registers. -/
theorem decode_dispatchKey (f : Frame) :
    (decode (dispatchKey f)).toOption =
      if isDynamicStuff f then some .dstuff
      else if isFixedStuff f then some .fsb
      else fieldRole f.phase f.flags.ide f.flags.fdf (BitVec.ofNat 6 (positionCounter f)) := by
  rw [dispatchKey, classify]
  cases hdyn : isDynamicStuff f with
  | true => exact decode_stuffBit ..
  | false =>
    cases hfix : isFixedStuff f with
    | true =>
      have hregs : f.phase = .crc ∧ f.flags.fdf = true := by
        simp only [isFixedStuff, Bool.and_eq_true, beq_iff_eq] at hfix
        exact hfix.1
      rw [hregs.1, hregs.2]
      exact decode_fixedBit ..
    | false => exact decode_fieldBit ..

/-- What the registers are when a role is selected. -/
def Selected (f : Frame) : Instr → Prop
  | .dstuff => f.stuff.dynEn = true ∧ f.stuff.runLen = 5
  | .fsb => f.phase = .crc ∧ f.flags.fdf = true ∧ f.pos.k % 5 = 0
  | .sof => f.phase = .header ∧ f.pos.h = 0
  | .id _ => f.phase = .header ∧ 1 ≤ f.pos.h ∧ f.pos.h ≤ 11
  | .b12 => f.phase = .header ∧ f.pos.h = 12
  | .ide => f.phase = .header ∧ f.pos.h = 13
  | .fdfB => f.phase = .header ∧ f.flags.ide = false ∧ f.pos.h = 14
  | .dlcC11 _ => f.phase = .header ∧ f.flags.ide = false ∧ f.flags.fdf = false ∧ 15 ≤ f.pos.h ∧ f.pos.h ≤ 18
  | .resF11 => f.phase = .header ∧ f.flags.ide = false ∧ f.flags.fdf = true ∧ f.pos.h = 15
  | .brsF11 => f.phase = .header ∧ f.flags.ide = false ∧ f.flags.fdf = true ∧ f.pos.h = 16
  | .esiF11 => f.phase = .header ∧ f.flags.ide = false ∧ f.flags.fdf = true ∧ f.pos.h = 17
  | .dlcF11 _ => f.phase = .header ∧ f.flags.ide = false ∧ f.flags.fdf = true ∧ 18 ≤ f.pos.h ∧ f.pos.h ≤ 21
  | .idx _ => f.phase = .header ∧ f.flags.ide = true ∧ 14 ≤ f.pos.h ∧ f.pos.h ≤ 31
  | .b32 => f.phase = .header ∧ f.flags.ide = true ∧ f.pos.h = 32
  | .fdfE => f.phase = .header ∧ f.flags.ide = true ∧ f.pos.h = 33
  | .resE => f.phase = .header ∧ f.flags.ide = true ∧ f.pos.h = 34
  | .dlcC29 _ => f.phase = .header ∧ f.flags.ide = true ∧ f.flags.fdf = false ∧ 35 ≤ f.pos.h ∧ f.pos.h ≤ 38
  | .brsF29 => f.phase = .header ∧ f.flags.ide = true ∧ f.flags.fdf = true ∧ f.pos.h = 35
  | .esiF29 => f.phase = .header ∧ f.flags.ide = true ∧ f.flags.fdf = true ∧ f.pos.h = 36
  | .dlcF29 _ => f.phase = .header ∧ f.flags.ide = true ∧ f.flags.fdf = true ∧ 37 ≤ f.pos.h ∧ f.pos.h ≤ 40
  | .data _ => f.phase = .data
  | .crcC _ => f.phase = .crc ∧ f.flags.fdf = false ∧ f.pos.j ≤ 14
  | .stc _ => f.phase = .crc ∧ f.flags.fdf = true ∧ f.pos.j ≤ 2
  | .par => f.phase = .crc ∧ f.flags.fdf = true ∧ f.pos.j = 3
  | .crcFd _ => f.phase = .crc ∧ f.flags.fdf = true ∧ 4 ≤ f.pos.j ∧ f.pos.j ≤ 24
  | .dl1 => f.phase = .trailer ∧ f.pos.t = 0
  | .ack => f.phase = .trailer ∧ f.pos.t = 1
  | .dl2 => f.phase = .trailer ∧ f.pos.t = 2
  | .eof _ => f.phase = .trailer ∧ 3 ≤ f.pos.t ∧ f.pos.t ≤ 9

theorem firstRole_eq_some {index : KeyIndex} {roles : List (Nat × Nat × Instr)} {i : Instr}
    (h : firstRole index roles = some i) : ∃ lo hi, (lo, hi, i) ∈ roles ∧ lo ≤ index.toNat ∧ index.toNat ≤ hi := by
  induction roles with
  | nil => cases h
  | cons r roles ih =>
    obtain ⟨lo, hi, j⟩ := r
    rw [firstRole] at h
    split at h
    · rename_i hwithin
      cases h
      simp only [KeyIndex.within, Bool.and_eq_true, decide_eq_true_eq] at hwithin
      exact ⟨lo, hi, by simp, hwithin.1, hwithin.2⟩
    · obtain ⟨lo', hi', hmem, hrange⟩ := ih h
      exact ⟨lo', hi', List.mem_cons_of_mem _ hmem, hrange⟩

/-- Each role of a phase, on the counters of its index range, finds the registers of its row. -/
theorem selected_of_mem_phaseRoles (f : Frame) (index : KeyIndex) :
    ∀ e ∈ phaseRoles f.phase f.flags.ide f.flags.fdf index,
      e.1 ≤ positionCounter f → positionCounter f ≤ e.2.1 → Selected f e.2.2 := by
  cases hphase : f.phase with
  | header =>
    cases hide : f.flags.ide <;> cases hfdf : f.flags.fdf <;>
      simp only [phaseRoles, headerRoles, positionCounter, Selected, hphase, hide, hfdf, List.cons_append,
        List.nil_append, List.forall_mem_cons, List.not_mem_nil, false_implies, implies_true, true_and, and_true] <;>
      omega
  | crc =>
    cases hfdf : f.flags.fdf with
    | false => simp [phaseRoles, positionCounter, Selected, hphase, hfdf]
    | true => simp [phaseRoles, positionCounter, Selected, hphase, hfdf]; omega
  | data | trailer | finished => simp [phaseRoles, positionCounter, Selected, hphase] <;> omega

/-- The registers behind the role of a bit that is no stuff bit. -/
theorem selected_of_fieldRole {f : Frame} {i : Instr} (hcounter : positionCounter f < 64)
    (h : fieldRole f.phase f.flags.ide f.flags.fdf (BitVec.ofNat 6 (positionCounter f)) = some i) : Selected f i := by
  obtain ⟨lo, hi, hmem, hlo, hhi⟩ := firstRole_eq_some h
  rw [BitVec.toNat_ofNat, Nat.mod_eq_of_lt hcounter] at hlo hhi
  exact selected_of_mem_phaseRoles f _ _ hmem hlo hhi

/-- The registers behind the role of a bit, in every state whose counter fits in six bits: what the role's row says,
and for a role that is no stuff bit that neither scheme inserts one here. -/
theorem selected_of_decode {f : Frame} {i : Instr} (hcounter : positionCounter f < 64)
    (h : decode (dispatchKey f) = .ok i) :
    Selected f i ∧ (i ≠ .dstuff → isDynamicStuff f = false ∧ (i ≠ .fsb → isFixedStuff f = false)) := by
  rw [decode_eq_ok, decode_dispatchKey] at h
  cases hdyn : isDynamicStuff f with
  | true =>
    simp only [hdyn, if_true, Option.some.injEq] at h
    subst h
    simpa [Selected, isDynamicStuff] using hdyn
  | false =>
    cases hfix : isFixedStuff f with
    | true =>
      have hregs : f.phase = .crc ∧ f.flags.fdf = true ∧ f.pos.k % 5 = 0 := by
        simpa [isFixedStuff, and_assoc] using hfix
      simp [hdyn, hfix] at h
      subst h
      exact ⟨hregs, by simp⟩
    | false =>
      simp only [hdyn, hfix, Bool.false_eq_true, if_false] at h
      exact ⟨selected_of_fieldRole hcounter h, fun _ => ⟨rfl, fun _ => rfl⟩⟩

/-! ### The rows of the role table -/

/-- Two rows of a key table differ in a masked bit or in the index range. -/
def RowsApart (r q : RoleRow) : Prop :=
  r.pattern &&& (r.mask &&& q.mask) ≠ q.pattern &&& (r.mask &&& q.mask) ∨ r.hi < q.lo ∨ q.hi < r.lo

/-- "each pair differs in a masked bit or in its idx range" (30_encoding.md R58). -/
theorem roleTable_apart : roleTable.Pairwise RowsApart := by
  unfold RowsApart
  decide +kernel

/-- A row gives one constructor at every index. -/
theorem ctorIdx_role {r : RoleRow} (hr : r ∈ roleTable) (index : KeyIndex) :
    (r.role index).ctorIdx = (r.role 0).ctorIdx := by
  obtain ⟨n, hn, rfl⟩ := List.mem_iff_getElem.mp hr
  have hlt : n < 29 := hn
  interval_cases n <;> rfl

/-- No two rows give one constructor. -/
theorem ctorIdx_nodup : (roleTable.map (fun r => (r.role 0).ctorIdx)).Nodup := by decide +kernel

/-- Two rows that give a role in common are one. -/
theorem eq_of_role_eq {r q : RoleRow} {index : KeyIndex} (hr : r ∈ roleTable) (hq : q ∈ roleTable)
    (h : r.role index = q.role index) : r = q :=
  List.inj_on_of_nodup_map ctorIdx_nodup hr hq
    (by rw [← ctorIdx_role hr index, ← ctorIdx_role hq index, h])

/-- No key is accepted by two rows that are apart. -/
theorem not_accepts_both {r q : RoleRow} {k : Key} (h : RowsApart r q) (hr : r.accepts k = true)
    (hq : q.accepts k = true) : False := by
  simp only [RoleRow.accepts, KeyIndex.within, Bool.and_eq_true, beq_iff_eq, decide_eq_true_eq] at hr hq
  rcases h with h | h | h
  · refine h ?_
    rw [← hr.1, ← hq.1, BitVec.and_assoc, BitVec.and_assoc, ← BitVec.and_assoc r.mask, BitVec.and_self,
      BitVec.and_comm r.mask, ← BitVec.and_assoc q.mask, BitVec.and_self]
  · omega
  · omega

/-- The first match among rows that are apart. -/
theorem find_of_apart {k : Key} {rows : List RoleRow} {r : RoleRow} (hd : rows.Pairwise RowsApart)
    (hr : r ∈ rows) (hk : r.accepts k = true) : rows.find? (fun r => r.accepts k) = some r := by
  induction hd with
  | nil => cases hr
  | @cons p rest hhead htail ih =>
    rw [List.find?_cons]
    rcases List.mem_cons.mp hr with rfl | hmem
    · rw [hk]
    · have hp : p.accepts k = false := by
        cases hp : p.accepts k with
        | false => rfl
        | true => exact (not_accepts_both (hhead r hmem) hp hk).elim
      rw [hp]
      exact ih hmem

/-- The keys of a row of the table are exactly those that select its role (30_encoding.md R58). -/
theorem onRow {r : RoleRow} (hr : r ∈ roleTable) : Safety.OnRow r.role r.pattern r.mask r.lo r.hi := by
  intro k
  have hiff : r.accepts k = true ↔
      k &&& r.mask = r.pattern ∧ r.lo ≤ (Key.index k).toNat ∧ (Key.index k).toNat ≤ r.hi := by
    simp [RoleRow.accepts, KeyIndex.within, Bool.and_eq_true, beq_iff_eq]
  rw [← hiff]
  constructor
  · intro h
    rw [decode] at h
    split at h
    · rename_i q hq
      have hmem := List.mem_of_find?_eq_some hq
      have haccepts := List.find?_some hq
      cases eq_of_role_eq hmem hr (Except.ok.inj h)
      exact haccepts
    · cases h
  · intro h
    rw [decode, find_of_apart roleTable_apart hr h]

end Sys2Proof.Machine
end

