-- ==== Sys2Proof/Laws/State.lean ====
section
/-! SUPPORT. The fields of a state and of a frame after each update operation, and the operations on records,
fields and shift registers in closed form. -/

namespace Sys2Proof.Machine

open Sys2Proof.Safety

/-! ### Frame updates -/

@[simp] theorem advance_bitStart (f : Frame) : (advance f).bitStart = f.timing.bitEnd := rfl
@[simp] theorem advance_phase (f : Frame) : (advance f).phase = f.phase := rfl
@[simp] theorem advance_timing (f : Frame) : (advance f).timing = f.timing := rfl
@[simp] theorem advance_pos (f : Frame) : (advance f).pos = f.pos := rfl
@[simp] theorem advance_flags (f : Frame) : (advance f).flags = f.flags := rfl
@[simp] theorem advance_prov (f : Frame) : (advance f).prov = f.prov := rfl
@[simp] theorem advance_acc (f : Frame) : (advance f).acc = f.acc := rfl
@[simp] theorem advance_stuff (f : Frame) : (advance f).stuff = f.stuff := rfl
@[simp] theorem advance_recRun (f : Frame) : (advance f).recRun = f.recRun := rfl
@[simp] theorem advance_err (f : Frame) : (advance f).err = f.err := rfl
@[simp] theorem advance_hist (f : Frame) : (advance f).hist = f.hist := rfl
@[simp] theorem advance_notes (f : Frame) : (advance f).notes = f.notes := rfl

@[simp] theorem beginBit_bitStart (p : Params) (f : Frame) : (beginBit p f).bitStart = f.bitStart := rfl
@[simp] theorem beginBit_phase (p : Params) (f : Frame) : (beginBit p f).phase = f.phase := rfl
@[simp] theorem beginBit_rate (p : Params) (f : Frame) : (beginBit p f).timing.rate = f.timing.rate := rfl
@[simp] theorem beginBit_ackExt (p : Params) (f : Frame) : (beginBit p f).timing.ackExt = false := rfl
@[simp] theorem beginBit_pos (p : Params) (f : Frame) : (beginBit p f).pos = f.pos := rfl
@[simp] theorem beginBit_flags (p : Params) (f : Frame) : (beginBit p f).flags = f.flags := rfl
@[simp] theorem beginBit_prov (p : Params) (f : Frame) : (beginBit p f).prov = f.prov := rfl
@[simp] theorem beginBit_acc (p : Params) (f : Frame) : (beginBit p f).acc = f.acc := rfl
@[simp] theorem beginBit_stuff (p : Params) (f : Frame) : (beginBit p f).stuff = f.stuff := rfl
@[simp] theorem beginBit_recRun (p : Params) (f : Frame) : (beginBit p f).recRun = f.recRun := rfl
@[simp] theorem beginBit_err (p : Params) (f : Frame) : (beginBit p f).err = f.err := rfl
@[simp] theorem beginBit_hist (p : Params) (f : Frame) : (beginBit p f).hist = f.hist := rfl
@[simp] theorem beginBit_notes (p : Params) (f : Frame) : (beginBit p f).notes = f.notes := rfl

@[simp] theorem switchRate_bitStart (p : Params) (h : Bool) (f : Frame) : (switchRate p h f).bitStart = f.bitStart := rfl
@[simp] theorem switchRate_phase (p : Params) (h : Bool) (f : Frame) : (switchRate p h f).phase = f.phase := rfl
@[simp] theorem switchRate_pos (p : Params) (h : Bool) (f : Frame) : (switchRate p h f).pos = f.pos := rfl
@[simp] theorem switchRate_flags (p : Params) (h : Bool) (f : Frame) : (switchRate p h f).flags = f.flags := rfl
@[simp] theorem switchRate_prov (p : Params) (h : Bool) (f : Frame) : (switchRate p h f).prov = f.prov := rfl
@[simp] theorem switchRate_acc (p : Params) (h : Bool) (f : Frame) : (switchRate p h f).acc = f.acc := rfl
@[simp] theorem switchRate_stuff (p : Params) (h : Bool) (f : Frame) : (switchRate p h f).stuff = f.stuff := rfl
@[simp] theorem switchRate_recRun (p : Params) (h : Bool) (f : Frame) : (switchRate p h f).recRun = f.recRun := rfl
@[simp] theorem switchRate_err (p : Params) (h : Bool) (f : Frame) : (switchRate p h f).err = f.err := rfl
@[simp] theorem switchRate_hist (p : Params) (h : Bool) (f : Frame) : (switchRate p h f).hist = f.hist := rfl
@[simp] theorem switchRate_notes (p : Params) (h : Bool) (f : Frame) : (switchRate p h f).notes = f.notes := rfl
@[simp] theorem switchRate_rate (p : Params) (h : Bool) (f : Frame) :
    (switchRate p h f).timing.rate = rateOf h := rfl
@[simp] theorem switchRate_samplePoint (p : Params) (h : Bool) (f : Frame) :
    (switchRate p h f).timing.samplePoint = f.timing.samplePoint := rfl

@[simp] theorem beginState_params (s : State) : (beginState s).params = s.params := rfl
@[simp] theorem beginState_raw (s : State) : (beginState s).raw = s.raw := rfl
@[simp] theorem beginState_run (s : State) : (beginState s).run = s.run := rfl
@[simp] theorem beginState_ctx (s : State) : (beginState s).ctx = s.ctx.map (beginBit s.params) := rfl
@[simp] theorem beginState_out (s : State) : (beginState s).out = s.out := rfl

@[simp] theorem account_bitStart (f g : Frame) (c : BitClass) (b : Bool) : (account f c b g).bitStart = g.bitStart := rfl
@[simp] theorem account_phase (f g : Frame) (c : BitClass) (b : Bool) : (account f c b g).phase = g.phase := rfl
@[simp] theorem account_timing (f g : Frame) (c : BitClass) (b : Bool) : (account f c b g).timing = g.timing := rfl
@[simp] theorem account_flags (f g : Frame) (c : BitClass) (b : Bool) : (account f c b g).flags = g.flags := rfl
@[simp] theorem account_prov (f g : Frame) (c : BitClass) (b : Bool) : (account f c b g).prov = g.prov := rfl
@[simp] theorem account_acc (f g : Frame) (c : BitClass) (b : Bool) : (account f c b g).acc = g.acc := rfl
@[simp] theorem account_err (f g : Frame) (c : BitClass) (b : Bool) : (account f c b g).err = g.err := rfl
@[simp] theorem account_notes (f g : Frame) (c : BitClass) (b : Bool) : (account f c b g).notes = g.notes := rfl

@[simp] theorem exhaust_params (s : State) : (exhaust s).params = s.params := rfl
@[simp] theorem exhaust_raw (s : State) : (exhaust s).raw = s.raw := rfl
@[simp] theorem exhaust_ctx (s : State) : (exhaust s).ctx = none := rfl
@[simp] theorem exhaust_out (s : State) : (exhaust s).out = s.out := rfl

@[simp] theorem emit_params (s : State) (f : Frame) : (emit s f).params = s.params := rfl
@[simp] theorem emit_raw (s : State) (f : Frame) : (emit s f).raw = s.raw := rfl
@[simp] theorem emit_ctx (s : State) (f : Frame) : (emit s f).ctx = none := rfl
@[simp] theorem emit_out (s : State) (f : Frame) : (emit s f).out = s.out ++ [packetOf f] := rfl

@[simp] theorem emit_run (s : State) (f : Frame) :
    (emit s f).run = { s.run with searchFrom := rnd f.timing.bitEnd, mode := .search } := rfl

@[simp] theorem packetOf_err (f : Frame) : (packetOf f).err = f.err := rfl
@[simp] theorem packetOf_row1 (f : Frame) : (packetOf f).row1 = f.notes.row1 := rfl
@[simp] theorem packetOf_row2 (f : Frame) : (packetOf f).row2 = f.notes.row2 := rfl
@[simp] theorem packetOf_data (f : Frame) : (packetOf f).data = f.acc.data := rfl
@[simp] theorem packetOf_startSample (f : Frame) : (packetOf f).startSample = f.notes.startSample := rfl
@[simp] theorem packetOf_endSample (f : Frame) : (packetOf f).endSample = rnd f.timing.bitEnd := rfl

@[simp] theorem field_beq_dstuff : (BitClass.field == BitClass.dstuff) = false := rfl
@[simp] theorem fsb_beq_dstuff : (BitClass.fsb == BitClass.dstuff) = false := rfl
@[simp] theorem dstuff_beq_dstuff : (BitClass.dstuff == BitClass.dstuff) = true := rfl

/-- What the shared bookkeeping of a bit leaves, in the terms of the statements. -/
theorem stuffAfterBit_eq (st g : StuffState) (c : BitClass) (b : Bool) (hval : g.runVal = st.runVal)
    (hlen : g.runLen = st.runLen) :
    stuffAfterBit st.dynEn c b g =
      { g with
        runVal := (runAfter st (c == .dstuff) b).1
        runLen := (runAfter st (c == .dstuff) b).2
        prevBit := b } := by
  unfold stuffAfterBit runUpdate runAfter
  rw [hval, hlen]
  cases st.dynEn with
  | false => simp [← hval, ← hlen]
  | true =>
    simp only [if_true]
    split
    · simp
    · simp [← hval]

/-- A role with an empty field action leaves `plainBit` (41_frame_fsm.md R81). -/
theorem account_beforeField_eq_plainBit (r : RoleRule) (s : State) (b : Bool) (f : Frame) :
    account (beforeField r s b f) r.cls b (beforeField r s b f) =
      plainBit s (r.samplePointAction s.params b f) (r.cls == .dstuff)
        (match r.cls.hist with | some c => [(b, c)] | none => []) (r.name f b) b := by
  rw [beforeField_eq]
  simp only [account, plainBit, stuffAfterBit_eq, histAfterBit]
  have hphase : ∀ ph : Phase, ((ph == .header || ph == .data) = true) = (ph = .header ∨ ph = .data) := by
    intro ph; cases ph <;> simp
  have hcrc : ∀ (ph : Phase) (fdf : Bool), ((ph == .crc && fdf) = true) = (ph = .crc ∧ fdf = true) := by
    intro ph fdf; cases ph <;> cases fdf <;> simp
  simp only [hphase, hcrc]
  cases r.cls.hist <;> simp

/-! ### Shift registers, records and fields -/

/-- The shift register in numbers. -/
theorem shiftIn_eq_pushBit {n : Nat} (acc : BitVec n) (b : Bool) : shiftIn acc b = pushBit acc b := by
  apply BitVec.eq_of_toNat_eq
  simp only [shiftIn, pushBit, BitVec.toNat_or, BitVec.toNat_shiftLeft, BitVec.toNat_ofNat]
  cases b with
  | false => simp [Nat.shiftLeft_eq, Nat.mul_comm]
  | true =>
    cases n with
    | zero => simp [Nat.mod_one]
    | succ n =>
      simp only [Bool.toNat_true, Nat.shiftLeft_eq, Nat.pow_one]
      rw [Nat.mod_eq_of_lt (a := 1) (Nat.one_lt_two_pow (by omega))]
      have h2 : acc.toNat * 2 % 2 ^ (n + 1) = 2 * (acc.toNat % 2 ^ n) := by
        rw [pow_succ, Nat.mul_mod_mul_right, Nat.mul_comm]
      have h3 : (2 * acc.toNat + 1) % 2 ^ (n + 1) = 2 * (acc.toNat % 2 ^ n) + 1 := by
        rw [pow_succ, Nat.mul_comm (2 ^ n) 2, Nat.mod_mul, show (2 * acc.toNat + 1) / 2 = acc.toNat by omega]
        omega
      rw [h2, h3]
      exact (Nat.two_pow_add_eq_or_of_lt (i := 1) (b := 1) (by omega) (acc.toNat % 2 ^ n)).symm

/-! ### What opening or extending a row-2 field, and setting a flag, leave alone -/

@[simp] theorem openField_bitStart (kind : FieldKind) (index : Option Nat) (value : Nat) (f : Frame) :
    (openField kind index value f).bitStart = f.bitStart := by unfold openField; split <;> rfl
@[simp] theorem openField_phase (kind : FieldKind) (index : Option Nat) (value : Nat) (f : Frame) :
    (openField kind index value f).phase = f.phase := by unfold openField; split <;> rfl
@[simp] theorem openField_timing (kind : FieldKind) (index : Option Nat) (value : Nat) (f : Frame) :
    (openField kind index value f).timing = f.timing := by unfold openField; split <;> rfl
@[simp] theorem openField_pos (kind : FieldKind) (index : Option Nat) (value : Nat) (f : Frame) :
    (openField kind index value f).pos = f.pos := by unfold openField; split <;> rfl
@[simp] theorem openField_flags (kind : FieldKind) (index : Option Nat) (value : Nat) (f : Frame) :
    (openField kind index value f).flags = f.flags := by unfold openField; split <;> rfl
@[simp] theorem openField_prov (kind : FieldKind) (index : Option Nat) (value : Nat) (f : Frame) :
    (openField kind index value f).prov = f.prov := by unfold openField; split <;> rfl
@[simp] theorem openField_acc (kind : FieldKind) (index : Option Nat) (value : Nat) (f : Frame) :
    (openField kind index value f).acc = f.acc := by unfold openField; split <;> rfl
@[simp] theorem openField_stuff (kind : FieldKind) (index : Option Nat) (value : Nat) (f : Frame) :
    (openField kind index value f).stuff = f.stuff := by unfold openField; split <;> rfl
@[simp] theorem openField_recRun (kind : FieldKind) (index : Option Nat) (value : Nat) (f : Frame) :
    (openField kind index value f).recRun = f.recRun := by unfold openField; split <;> rfl
@[simp] theorem openField_err (kind : FieldKind) (index : Option Nat) (value : Nat) (f : Frame) :
    (openField kind index value f).err = f.err := by unfold openField; split <;> rfl
@[simp] theorem openField_hist (kind : FieldKind) (index : Option Nat) (value : Nat) (f : Frame) :
    (openField kind index value f).hist = f.hist := by unfold openField; split <;> rfl
@[simp] theorem extendField_bitStart (value : Nat) (f : Frame) : (extendField value f).bitStart = f.bitStart := by
  unfold extendField; split <;> rfl
@[simp] theorem extendField_phase (value : Nat) (f : Frame) : (extendField value f).phase = f.phase := by
  unfold extendField; split <;> rfl
@[simp] theorem extendField_timing (value : Nat) (f : Frame) : (extendField value f).timing = f.timing := by
  unfold extendField; split <;> rfl
@[simp] theorem extendField_pos (value : Nat) (f : Frame) : (extendField value f).pos = f.pos := by
  unfold extendField; split <;> rfl
@[simp] theorem extendField_flags (value : Nat) (f : Frame) : (extendField value f).flags = f.flags := by
  unfold extendField; split <;> rfl
@[simp] theorem extendField_prov (value : Nat) (f : Frame) : (extendField value f).prov = f.prov := by
  unfold extendField; split <;> rfl
@[simp] theorem extendField_acc (value : Nat) (f : Frame) : (extendField value f).acc = f.acc := by
  unfold extendField; split <;> rfl
@[simp] theorem extendField_stuff (value : Nat) (f : Frame) : (extendField value f).stuff = f.stuff := by
  unfold extendField; split <;> rfl
@[simp] theorem extendField_recRun (value : Nat) (f : Frame) : (extendField value f).recRun = f.recRun := by
  unfold extendField; split <;> rfl
@[simp] theorem extendField_err (value : Nat) (f : Frame) : (extendField value f).err = f.err := by
  unfold extendField; split <;> rfl
@[simp] theorem extendField_hist (value : Nat) (f : Frame) : (extendField value f).hist = f.hist := by
  unfold extendField; split <;> rfl
@[simp] theorem setErrorIf_bitStart (c : Bool) (e : ErrorFlag) (mark : Notes → Notes) (f : Frame) :
    (setErrorIf c e mark f).bitStart = f.bitStart := by cases c <;> rfl
@[simp] theorem setErrorIf_phase (c : Bool) (e : ErrorFlag) (mark : Notes → Notes) (f : Frame) :
    (setErrorIf c e mark f).phase = f.phase := by cases c <;> rfl
@[simp] theorem setErrorIf_timing (c : Bool) (e : ErrorFlag) (mark : Notes → Notes) (f : Frame) :
    (setErrorIf c e mark f).timing = f.timing := by cases c <;> rfl
@[simp] theorem setErrorIf_pos (c : Bool) (e : ErrorFlag) (mark : Notes → Notes) (f : Frame) :
    (setErrorIf c e mark f).pos = f.pos := by cases c <;> rfl
@[simp] theorem setErrorIf_flags (c : Bool) (e : ErrorFlag) (mark : Notes → Notes) (f : Frame) :
    (setErrorIf c e mark f).flags = f.flags := by cases c <;> rfl
@[simp] theorem setErrorIf_prov (c : Bool) (e : ErrorFlag) (mark : Notes → Notes) (f : Frame) :
    (setErrorIf c e mark f).prov = f.prov := by cases c <;> rfl
@[simp] theorem setErrorIf_acc (c : Bool) (e : ErrorFlag) (mark : Notes → Notes) (f : Frame) :
    (setErrorIf c e mark f).acc = f.acc := by cases c <;> rfl
@[simp] theorem setErrorIf_stuff (c : Bool) (e : ErrorFlag) (mark : Notes → Notes) (f : Frame) :
    (setErrorIf c e mark f).stuff = f.stuff := by cases c <;> rfl
@[simp] theorem setErrorIf_recRun (c : Bool) (e : ErrorFlag) (mark : Notes → Notes) (f : Frame) :
    (setErrorIf c e mark f).recRun = f.recRun := by cases c <;> rfl
@[simp] theorem setErrorIf_hist (c : Bool) (e : ErrorFlag) (mark : Notes → Notes) (f : Frame) :
    (setErrorIf c e mark f).hist = f.hist := by cases c <;> rfl

/-- A field opened with the bit's record, which is the last of row 1. -/
theorem openField_of_last {f : Frame} {row : List BitRecord} {a : BitRecord} (h : f.notes.row1 = row ++ [a])
    (kind : FieldKind) (index : Option Nat) (value : Nat) :
    openField kind index value f =
      { f with
        notes :=
          { f.notes with
            row2 := f.notes.row2 ++ [⟨a.start, a.stop, kind, index, value, a.error⟩]
            curField := some f.notes.row2.length } } := by
  rw [openField, h, List.getLast?_concat]

/-- The current field extended by the bit's record, which is the last of row 1. -/
theorem extendField_of_last {f : Frame} {row : List BitRecord} {a : BitRecord} (h : f.notes.row1 = row ++ [a])
    (value : Nat) :
    extendField value f =
      { f with
        notes := f.notes.changeField f.notes.curField
          (fun r => { r with stop := a.stop, value := value, error := r.error || a.error }) } := by
  rw [extendField, h, List.getLast?_concat]

/-- The error mark of the current bit's record, which is the last of row 1. -/
theorem markCurrent_of_last {n : Notes} {row : List BitRecord} {a : BitRecord} (h : n.row1 = row ++ [a]) :
    n.markCurrent = { n with row1 := row ++ [a.marked] } := by
  have hcur : n.currentBit = some row.length := by simp [Notes.currentBit, h]
  rw [Notes.markCurrent, Notes.markBit, hcur]
  simp only [Notes.changeBit, h, modify_append_length]

@[simp] theorem markIf_false {ν : Type} (a : Annotation ν) : markIf false a = a := by simp [markIf]

@[simp] theorem markIf_true {ν : Type} (a : Annotation ν) : markIf true a = a.marked := by
  simp [markIf, Annotation.marked]

/-- The conditional mark that is set, as a function. -/
theorem markIf_true_eq {ν : Type} : (markIf true : Annotation ν → Annotation ν) = Annotation.marked := funext markIf_true

@[simp] theorem modify_markIf_false {ν : Type} (l : List (Annotation ν)) (i : Nat) : l.modify i (markIf false) = l := by
  rw [show (markIf false : Annotation ν → Annotation ν) = id from funext markIf_false]
  exact List.modify_id i l

/-! ### The field actions that may complete a field -/

theorem dlcRule_fieldAction (b : Bool) (f : Frame) :
    dlcRule.fieldAction b f =
      if dlcNumber f == 3 then .ok (nextHeaderBit (headerComplete (dlcBit b f)), true)
      else fieldOngoing (nextHeaderBit (dlcBit b f)) := rfl

theorem dataRule_fieldAction (b : Bool) (f : Frame) :
    dataRule.fieldAction b f =
      if f.pos.dbit % 8 == 7 then .ok (byteComplete (dataBit b f), true) else fieldOngoing (dataBit b f) := rfl

theorem crcCRule_fieldAction (b : Bool) (f : Frame) :
    crcCRule.fieldAction b f = finishCrcBit (f.pos.j + 1 == 15) (nextPayloadBit (crcBit (f.pos.j == 0) b f)) := rfl

theorem crcFdRule_fieldAction (w : CrcWidth) (b : Bool) (f : Frame) :
    (crcFdRule w).fieldAction b f =
      finishCrcBit (crcFdNumber f == w.bits - 1) (nextPayloadBit (crcBit (crcFdNumber f == 0) b f)) := rfl

/-- The header is complete and data follow. -/
theorem headerComplete_data {f : Frame} (hbytes : byteCount f.flags.fdf f.acc.dlcAcc ≠ 0) (hrtr : f.flags.rtr = false) :
    headerComplete f =
      { f with acc := { f.acc with nbytes := byteCount f.flags.fdf f.acc.dlcAcc }, phase := .data } := by
  simp [headerComplete, hbytes, hrtr]

/-- The header is complete and the data phase is skipped. -/
theorem headerComplete_crc {f : Frame} (h : byteCount f.flags.fdf f.acc.dlcAcc = 0 ∨ f.flags.rtr = true) :
    headerComplete f = crcEntry { f with acc := { f.acc with nbytes := byteCount f.flags.fdf f.acc.dlcAcc } } := by
  rcases h with h | h <;> simp [headerComplete, h]

/-! ### Renaming -/

/-- Row 1 after IDE = 1 in terms of the model's renaming. -/
theorem row1AfterIde_eq (a12 : Option Nat) (b12 : Bool) (row1 : List BitRecord) :
    row1AfterIde a12 b12 row1 =
      (changeAt a12 (fun a => { markIf (!b12) a with name := .srr }) row1).map (fun a =>
        { a with name := a.name.extended }) := by
  have hname : ∀ a : BitRecord,
      ({ a with name := match a.name with | .id n => .id (n + 18) | other => other } : BitRecord) =
        { a with name := a.name.extended } := by
    intro a; cases h : a.name <;> simp [BitName.extended]
  exact List.map_congr_left fun a _ => hname a

end Sys2Proof.Machine
end

