-- ==== Sys2Proof/Laws/FieldActions.lean ====
section
/-! SUPPORT. What no role's field action changes, said once for all roles: the bit cursor and the timing registers,
the stuff run, the recessive run, the flags already set, the start sample and the spans of the row-1 records. -/

namespace Sys2Proof.Machine

open Sys2Proof.Safety

/-- The spans of row-1 records. -/
def rowSpans (row : List BitRecord) : List (Nat × Nat) := row.map (fun a => (a.start, a.stop))

/-- `g` differs from `f` only in what a field action may write. -/
structure FieldFrame (f g : Frame) : Prop where
  bitStart : g.bitStart = f.bitStart
  timing : g.timing = f.timing
  recRun : g.recRun = f.recRun
  err : f.err &&& g.err = f.err
  startSample : g.notes.startSample = f.notes.startSample
  runVal : g.stuff.runVal = f.stuff.runVal
  runLen : g.stuff.runLen = f.stuff.runLen
  prevBit : g.stuff.prevBit = f.stuff.prevBit
  spans : rowSpans g.notes.row1 = rowSpans f.notes.row1

namespace FieldFrame

theorem refl (f : Frame) : FieldFrame f f := ⟨rfl, rfl, rfl, by simp, rfl, rfl, rfl, rfl, rfl⟩

theorem trans {f g h : Frame} (a : FieldFrame f g) (b : FieldFrame g h) : FieldFrame f h where
  bitStart := b.bitStart.trans a.bitStart
  timing := b.timing.trans a.timing
  recRun := b.recRun.trans a.recRun
  err := by rw [← a.err, BitVec.and_assoc, b.err]
  startSample := b.startSample.trans a.startSample
  runVal := b.runVal.trans a.runVal
  runLen := b.runLen.trans a.runLen
  prevBit := b.prevBit.trans a.prevBit
  spans := b.spans.trans a.spans

/-- `trans` with the last part first. -/
theorem after {f g h : Frame} (b : FieldFrame g h) (a : FieldFrame f g) : FieldFrame f h := a.trans b

/-- Registers a field action may write freely. -/
theorem write (f : Frame) (phase : Phase) (pos : Position) (flags : FrameFlags) (prov : Provisional)
    (acc : Accumulators) (dynEn : Bool) (dynCount : Nat) (hist : List (Bool × HistClass)) :
    FieldFrame f
      { f with
        phase := phase, pos := pos, flags := flags, prov := prov, acc := acc, hist := hist
        stuff := { f.stuff with dynEn := dynEn, dynCount := dynCount } } :=
  ⟨rfl, rfl, rfl, by simp, rfl, rfl, rfl, rfl, rfl⟩

end FieldFrame

/-! ### Records -/

/-- A change of a record that keeps its span keeps the spans of its row. -/
theorem spans_modify (row : List BitRecord) (i : Nat) (change : BitRecord → BitRecord)
    (h : ∀ a, (change a).start = a.start ∧ (change a).stop = a.stop) : rowSpans (row.modify i change) = rowSpans row := by
  induction row generalizing i with
  | nil => cases i <;> rfl
  | cons a row ih =>
    cases i with
    | zero => simp [rowSpans, h a]
    | succ i => simpa [rowSpans] using ih i

theorem changeBit_spans (ref : Option Nat) (change : BitRecord → BitRecord) (n : Notes)
    (h : ∀ a, (change a).start = a.start ∧ (change a).stop = a.stop) :
    rowSpans (n.changeBit ref change).row1 = rowSpans n.row1 ∧ (n.changeBit ref change).startSample = n.startSample := by
  cases ref with
  | none => exact ⟨rfl, rfl⟩
  | some i => exact ⟨spans_modify n.row1 i change h, rfl⟩

theorem changeField_row1 (ref : Option Nat) (change : FieldRecord → FieldRecord) (n : Notes) :
    (n.changeField ref change).row1 = n.row1 ∧ (n.changeField ref change).startSample = n.startSample := by
  cases ref <;> exact ⟨rfl, rfl⟩

theorem renameIds_spans (n : Notes) : rowSpans n.renameIds.row1 = rowSpans n.row1 ∧ n.renameIds.startSample = n.startSample := by
  simp [Notes.renameIds, rowSpans, Function.comp_def]

/-- New notes with the same spans and start sample. -/
theorem FieldFrame.notes (f : Frame) (n : Notes)
    (h : rowSpans n.row1 = rowSpans f.notes.row1 ∧ n.startSample = f.notes.startSample) :
    FieldFrame f { f with notes := n } :=
  ⟨rfl, rfl, rfl, by simp, h.2, rfl, rfl, rfl, h.1⟩

/-- The effect of setting a flag. -/
theorem FieldFrame.setError (e : ErrorFlag) (mark : Notes → Notes) (f : Frame)
    (h : rowSpans (mark f.notes).row1 = rowSpans f.notes.row1 ∧ (mark f.notes).startSample = f.notes.startSample) :
    FieldFrame f (setError e mark f) :=
  ⟨rfl, rfl, rfl, by ext i; simp [Machine.setError]; grind, h.2, rfl, rfl, rfl, h.1⟩

theorem FieldFrame.setErrorIf (c : Bool) (e : ErrorFlag) (mark : Notes → Notes) (f : Frame)
    (h : rowSpans (mark f.notes).row1 = rowSpans f.notes.row1 ∧ (mark f.notes).startSample = f.notes.startSample) :
    FieldFrame f (setErrorIf c e mark f) := by
  cases c with
  | false => exact .refl f
  | true => exact .setError e mark f h

theorem markBit_spans (ref : Option Nat) (n : Notes) :
    rowSpans (n.markBit ref).row1 = rowSpans n.row1 ∧ (n.markBit ref).startSample = n.startSample :=
  changeBit_spans ref _ n fun _ => ⟨rfl, rfl⟩

theorem renameBit_spans (ref : Option Nat) (name : BitName) (n : Notes) :
    rowSpans (n.renameBit ref name).row1 = rowSpans n.row1 ∧ (n.renameBit ref name).startSample = n.startSample :=
  changeBit_spans ref _ n fun _ => ⟨rfl, rfl⟩

theorem markCurrent_spans (n : Notes) :
    rowSpans n.markCurrent.row1 = rowSpans n.row1 ∧ n.markCurrent.startSample = n.startSample :=
  markBit_spans n.currentBit n

theorem markCurField_spans (n : Notes) :
    rowSpans n.markCurField.row1 = rowSpans n.row1 ∧ n.markCurField.startSample = n.startSample := by
  have := changeField_row1 n.curField Annotation.marked n
  exact ⟨congrArg rowSpans this.1, this.2⟩

theorem markStcField_spans (n : Notes) :
    rowSpans n.markStcField.row1 = rowSpans n.row1 ∧ n.markStcField.startSample = n.startSample := by
  have := changeField_row1 n.stcField Annotation.marked n
  exact ⟨congrArg rowSpans this.1, this.2⟩

theorem FieldFrame.openField (kind : FieldKind) (index : Option Nat) (value : Nat) (f : Frame) :
    FieldFrame f (openField kind index value f) := by
  unfold Machine.openField
  split
  · exact .refl f
  · exact .notes f _ ⟨rfl, rfl⟩

theorem FieldFrame.extendField (value : Nat) (f : Frame) : FieldFrame f (extendField value f) := by
  unfold Machine.extendField
  split
  · exact .refl f
  · have := changeField_row1 f.notes.curField
      (fun r => { r with stop := ‹BitRecord›.stop, value := value, error := r.error || ‹BitRecord›.error }) f.notes
    exact .notes f _ ⟨congrArg rowSpans this.1, this.2⟩

/-! ### Roles -/

theorem FieldFrame.crcEntry (f : Frame) : FieldFrame f (crcEntry f) := .write f ..

theorem FieldFrame.nextHeaderBit (f : Frame) : FieldFrame f (nextHeaderBit f) := by
  unfold Machine.nextHeaderBit
  split
  · exact .write f ..
  · exact .refl f

theorem FieldFrame.idBit (first b : Bool) (f : Frame) : FieldFrame f (idBit first b f) := by
  unfold Machine.idBit
  dsimp only
  split
  · exact .after (.openField ..) (.write f ..)
  · exact .after (.extendField ..) (.write f ..)

theorem FieldFrame.dlcBit (b : Bool) (f : Frame) : FieldFrame f (dlcBit b f) := by
  unfold Machine.dlcBit
  dsimp only
  split
  · exact .after (.openField ..) (.write f ..)
  · exact .after (.extendField ..) (.write f ..)

theorem FieldFrame.headerComplete (f : Frame) : FieldFrame f (headerComplete f) := by
  unfold Machine.headerComplete
  dsimp only
  split
  · exact .after (.crcEntry _) (.write f ..)
  · exact .write f ..

theorem FieldFrame.ideExtended (f : Frame) : FieldFrame f (ideExtended f) := by
  have renamed : FieldFrame f
      { f with flags := { f.flags with rtr := false }, notes := f.notes.renameBit f.prov.a12 .srr } :=
    ⟨rfl, rfl, rfl, by simp, (renameBit_spans ..).2, rfl, rfl, rfl, (renameBit_spans ..).1⟩
  have checked := renamed.trans
    (.setErrorIf (!f.prov.b12) .bitStatus (Notes.markBit f.prov.a12) _ (markBit_spans _ _))
  exact checked.trans (.notes _ _ (renameIds_spans _))

theorem FieldFrame.fdfAction (b : Bool) (f : Frame) : FieldFrame f (fdfAction b f) := by
  unfold Machine.fdfAction
  dsimp only
  split
  · exact ⟨rfl, rfl, rfl, by simp, (renameBit_spans ..).2, rfl, rfl, rfl, (renameBit_spans ..).1⟩
  · exact .write f ..

theorem FieldFrame.dataBit (b : Bool) (f : Frame) : FieldFrame f (dataBit b f) := by
  unfold Machine.dataBit
  dsimp only
  split
  · exact .trans (.after (.openField ..) (.write f ..)) (.write _ ..)
  · exact .trans (.after (.extendField ..) (.write f ..)) (.write _ ..)

theorem FieldFrame.byteComplete (f : Frame) : FieldFrame f (byteComplete f) := by
  unfold Machine.byteComplete
  dsimp only
  split
  · exact .after (.crcEntry _) (.write f ..)
  · exact .write f ..

theorem FieldFrame.crcBit (first b : Bool) (f : Frame) : FieldFrame f (crcBit first b f) := by
  unfold Machine.crcBit
  dsimp only
  split
  · exact .after (.openField ..) (.write f ..)
  · exact .after (.extendField ..) (.write f ..)

theorem FieldFrame.crcComplete (w : CrcWidth) (f : Frame) : FieldFrame f (crcComplete w f) := by
  unfold Machine.crcComplete crcCheck stuffCountCheck enterTrailer
  exact (FieldFrame.write f ..).trans ((FieldFrame.setErrorIf _ _ _ _ (markCurField_spans _)).trans
    ((FieldFrame.setErrorIf _ _ _ _ (markStcField_spans _)).trans (.write _ ..)))

theorem FieldFrame.stcBit (b : Bool) (f : Frame) : FieldFrame f (stcBit b f) := by
  unfold Machine.stcBit
  dsimp only
  split
  · exact .trans (.after (.openField ..) (.write f ..)) (.notes _ _ ⟨rfl, rfl⟩)
  · exact .after (.extendField ..) (.write f ..)

theorem FieldFrame.expectRecessive (b : Bool) (f : Frame) : FieldFrame f (expectRecessive b f) :=
  .setErrorIf _ _ _ _ (markCurrent_spans _)

theorem FieldFrame.ackBit (b : Bool) (f : Frame) : FieldFrame f (ackBit b f) := by
  unfold Machine.ackBit
  split
  · exact .setError _ _ _ (markCurrent_spans _)
  · exact .write f ..

theorem FieldFrame.finishTrailer (f : Frame) : FieldFrame f (finishTrailer f) := by
  unfold Machine.finishTrailer
  split
  · exact .write f ..
  · exact .refl f

theorem FieldFrame.finishCrcBit {last : Bool} {f g : Frame} {fieldDone : Bool}
    (h : finishCrcBit last f = .ok (g, fieldDone)) : FieldFrame f g := by
  unfold Machine.finishCrcBit fieldOngoing at h
  split at h
  · split at h
    · cases h
    · cases h; exact .crcComplete ..
  · cases h; exact .refl f

/-- No role's field action changes the cursor, the timing, the runs, a flag already set or a span. -/
theorem fieldAction_frame {i : Instr} {f0 f g : Frame} {r : RoleRule} {b fieldDone : Bool}
    (hr : roleRule i f0 = some r) (h : r.fieldAction b f = .ok (g, fieldDone)) : FieldFrame f g := by
  cases i
  case dstuff => cases hr; cases h; exact .after (.setErrorIf _ _ _ _ (markCurrent_spans _)) (.write f ..)
  case fsb => cases hr; cases h; exact .setErrorIf _ _ _ _ (markCurrent_spans _)
  case sof => cases hr; cases h; exact .nextHeaderBit f
  case id => cases hr; cases h; exact .trans (.idBit ..) (.nextHeaderBit _)
  case b12 => cases hr; cases h; exact .after (.nextHeaderBit _) (.write f ..)
  case ide =>
    cases hr; cases h
    have known : FieldFrame f { f with flags := { f.flags with ide := b, ideKnown := true } } := .write f ..
    refine .after (.nextHeaderBit _) (known.trans ?_)
    cases b with
    | false => exact .refl _
    | true => exact .ideExtended _
  case fdfB => cases hr; cases h; exact .trans (.fdfAction ..) (.nextHeaderBit _)
  case fdfE => cases hr; cases h; exact .trans (.fdfAction ..) (.nextHeaderBit _)
  case resF11 => cases hr; cases h; exact .nextHeaderBit f
  case resE => cases hr; cases h; exact .nextHeaderBit f
  case brsF11 => cases hr; cases h; exact .after (.nextHeaderBit _) (.write f ..)
  case brsF29 => cases hr; cases h; exact .after (.nextHeaderBit _) (.write f ..)
  case esiF11 => cases hr; cases h; exact .after (.nextHeaderBit _) (.write f ..)
  case esiF29 => cases hr; cases h; exact .after (.nextHeaderBit _) (.write f ..)
  case idx => cases hr; cases h; exact .trans (.idBit ..) (.nextHeaderBit _)
  case b32 => cases hr; cases h; exact .after (.nextHeaderBit _) (.write f ..)
  case dlcC11 | dlcF11 | dlcC29 | dlcF29 =>
    cases hr
    rw [dlcRule_fieldAction] at h
    split at h <;> cases h
    · exact .trans (.dlcBit ..) (.trans (.headerComplete _) (.nextHeaderBit _))
    · exact .trans (.dlcBit ..) (.nextHeaderBit _)
  case data =>
    cases hr
    rw [dataRule_fieldAction] at h
    split at h <;> cases h
    · exact .trans (.dataBit ..) (.byteComplete _)
    · exact .dataBit ..
  case crcC =>
    cases hr
    rw [crcCRule_fieldAction] at h
    exact .trans (.crcBit ..) (.trans (.write _ ..) (.finishCrcBit h))
  case crcFd =>
    simp only [roleRule, Option.map_eq_some_iff] at hr
    obtain ⟨w, -, rfl⟩ := hr
    rw [crcFdRule_fieldAction] at h
    exact .trans (.crcBit ..) (.trans (.write _ ..) (.finishCrcBit h))
  case stc => cases hr; cases h; exact .after (.trans (.stcBit ..) (.write _ ..)) (.write f ..)
  case par => cases hr; cases h; exact .after (.trans (.extendField ..) (.write _ ..)) (.write f ..)
  case dl1 => cases hr; cases h; exact .trans (.expectRecessive ..) (.write _ ..)
  case ack => cases hr; cases h; exact .trans (.ackBit ..) (.write _ ..)
  case dl2 => cases hr; cases h; exact .trans (.expectRecessive ..) (.write _ ..)
  case eof => cases hr; cases h; exact .trans (.expectRecessive ..) (.trans (.write _ ..) (.finishTrailer _))

/-- A sample-point action does nothing, or switches the rate: to the FD rate in a recessive BRS bit, to the
standard rate in the DL1 bit of a frame with BRS = 1. -/
theorem samplePointAction_cases {i : Instr} {f : Frame} {r : RoleRule} (hr : roleRule i f = some r) (p : Params)
    (b : Bool) :
    r.samplePointAction p b f = f ∨
      ((i = .brsF11 ∨ i = .brsF29) ∧ b = true ∧ r.samplePointAction p b f = switchRate p true f) ∨
      (i = .dl1 ∧ f.flags.brs = true ∧ r.samplePointAction p b f = switchRate p false f) := by
  cases i
  case brsF11 | brsF29 =>
    cases hr
    cases b with
    | false => exact .inl rfl
    | true => exact .inr (.inl ⟨by simp, rfl, rfl⟩)
  case dl1 =>
    cases hr
    cases hbrs : f.flags.brs with
    | false => exact .inl (by simp [dl1Rule, dl1SamplePointAction, hbrs])
    | true => exact .inr (.inr ⟨rfl, rfl, by simp [dl1Rule, dl1SamplePointAction, hbrs]⟩)
  case crcFd =>
    simp only [roleRule, Option.map_eq_some_iff] at hr
    obtain ⟨w, -, rfl⟩ := hr
    exact .inl rfl
  all_goals cases hr; exact .inl rfl

/-- What every role does to the registers a field action leaves alone: `g` is the frame at the frame-end test. -/
structure BitFrame (s : State) (f f0 g : Frame) (b : Bool) : Prop where
  bitStart : g.bitStart = f.bitStart
  timing : g.timing = (resync s f0).timing
  recRun : g.recRun = if b then f.recRun + 1 else 0
  err : f.err &&& g.err = f.err
  startSample : g.notes.startSample = f.notes.startSample
  spans : rowSpans g.notes.row1 = rowSpans f.notes.row1 ++ [(rnd f.bitStart, rnd g.timing.bitEnd)]

/-- A role's bit in these terms; `r.samplePointAction s.params b f` is the frame after the sample-point action. -/
theorem bit_frame {i : Instr} {s : State} {f g : Frame} {r : RoleRule} {b fieldDone : Bool}
    (hr : roleRule i f = some r) (h : r.fieldAction b (beforeField r s b f) = .ok (g, fieldDone)) :
    BitFrame s f (r.samplePointAction s.params b f) (account (beforeField r s b f) r.cls b g) b := by
  have hg := fieldAction_frame hr h
  have hsame : (r.samplePointAction s.params b f).bitStart = f.bitStart ∧
      (r.samplePointAction s.params b f).recRun = f.recRun ∧ (r.samplePointAction s.params b f).err = f.err ∧
      (r.samplePointAction s.params b f).notes = f.notes := by
    rcases samplePointAction_cases hr s.params b with h | ⟨-, -, h⟩ | ⟨-, -, h⟩ <;> rw [h] <;> simp
  have hb := beforeField_eq r s b f
  obtain ⟨h1, h2, h3, h4⟩ := hsame
  have herr : f.err &&& (beforeField r s b f).err = f.err := by rw [hb]; ext j; simp [h3]; grind
  refine ⟨?_, ?_, ?_, ?_, ?_, ?_⟩
  · rw [account_bitStart, hg.bitStart, hb, h1]
  · rw [account_timing, hg.timing, hb]
  · show (if b then g.recRun + 1 else 0) = _
    rw [hg.recRun, hb, h2]
  · rw [account_err, ← herr, BitVec.and_assoc, hg.err]
  · rw [account_notes, hg.startSample, hb, h4]
  · rw [account_notes, account_timing, hg.spans, hg.timing, hb]
    simp [rowSpans, bitRecord, h1, h4]

end Sys2Proof.Machine
end

