-- ==== Sys2Proof/Laws/Memory.lean ====
section
/-! SUPPORT. The sample memory: every operation keeps the canonical form, a read after a write, and canonical
memories that read alike are equal. -/

namespace Sys2Proof.Machine.Memory

theorem wfFrom_weaken {low low' : Nat} (m : Memory) (h : low' ≤ low) (hm : wfFrom low m = true) :
    wfFrom low' m = true := by
  cases m with
  | nil => rfl
  | cons c m =>
    simp only [wfFrom, Bool.and_eq_true, decide_eq_true_eq] at *
    exact ⟨⟨by omega, hm.1.2⟩, hm.2⟩

/-- Below its first cell a canonical memory lists nothing. -/
theorem read_below {low i : Nat} (m : Memory) (h : i < low) (hm : wfFrom low m = true) : read m i = unlisted := by
  induction m generalizing low with
  | nil => rfl
  | cons c m ih =>
    simp only [wfFrom, Bool.and_eq_true, decide_eq_true_eq] at hm
    rw [read, if_neg (by omega), ih (low := c.1 + 1) (by omega) hm.2]

theorem write_wfFrom {low : Nat} (m : Memory) (i : Nat) (v : Byte) (hi : low ≤ i) (hm : wfFrom low m = true) :
    wfFrom low (write m i v) = true := by
  induction m generalizing low with
  | nil =>
    rw [write]
    split
    · rfl
    · rename_i hv; simp [wfFrom, hi, hv]
  | cons c m ih =>
    simp only [wfFrom, Bool.and_eq_true, decide_eq_true_eq] at hm
    rw [write]
    split
    · simp only [wfFrom, Bool.and_eq_true, decide_eq_true_eq]
      exact ⟨hm.1, ih (by omega) hm.2⟩
    · split
      · split
        · exact wfFrom_weaken m (by omega) hm.2
        · rename_i h1 h2 hv
          simp only [wfFrom, Bool.and_eq_true, decide_eq_true_eq]
          exact ⟨⟨hi, hv⟩, by rw [← h2]; exact hm.2⟩
      · split
        · simp only [wfFrom, Bool.and_eq_true, decide_eq_true_eq]; exact hm
        · rename_i h1 h2 hv
          simp only [wfFrom, Bool.and_eq_true, decide_eq_true_eq]
          exact ⟨⟨hi, hv⟩, ⟨by omega, hm.1.2⟩, hm.2⟩

/-- A write keeps the canonical form. -/
theorem write_wf (m : Memory) (i : Nat) (v : Byte) (hm : wf m = true) : wf (write m i v) = true :=
  write_wfFrom m i v (Nat.zero_le i) hm

theorem read_write_from {low : Nat} (m : Memory) (i k : Nat) (v : Byte) (hm : wfFrom low m = true) :
    read (write m i v) k = if k = i then v else read m k := by
  induction m generalizing low with
  | nil =>
    rw [write]
    by_cases hv : v = unlisted
    · simp [hv, read]
    · simp only [hv, if_false, read, eq_comm (a := i)]
  | cons c m ih =>
    simp only [wfFrom, Bool.and_eq_true, decide_eq_true_eq] at hm
    rw [write]
    by_cases hlt : c.1 < i
    · rw [if_pos hlt, read, ih hm.2, read]
      by_cases hk : k = i
      · simp [hk]; omega
      · simp [hk]
    · rw [if_neg hlt]
      by_cases heq : c.1 = i
      · rw [if_pos heq]
        by_cases hv : v = unlisted
        · rw [if_pos hv]
          by_cases hk : k = i
          · rw [if_pos hk, read_below m (low := c.1 + 1) (by omega) hm.2, hv]
          · rw [if_neg hk, read, if_neg (by omega)]
        · rw [if_neg hv]; simp only [read, heq, eq_comm (a := i)]
          split <;> rfl
      · rw [if_neg heq]
        by_cases hv : v = unlisted
        · rw [if_pos hv]
          by_cases hk : k = i
          · rw [if_pos hk, read, if_neg (by omega), read_below m (low := c.1 + 1) (by omega) hm.2, hv]
          · rw [if_neg hk]
        · rw [if_neg hv]; simp only [read, eq_comm (a := i)]

/-- A read after a write. -/
theorem read_write (m : Memory) (i k : Nat) (v : Byte) (hm : wf m = true) :
    read (write m i v) k = if k = i then v else read m k := read_write_from m i k v hm

theorem eq_of_read_eq_from {low : Nat} (m n : Memory) (hm : wfFrom low m = true) (hn : wfFrom low n = true)
    (h : ∀ i, read m i = read n i) : m = n := by
  induction m generalizing low n with
  | nil =>
    cases n with
    | nil => rfl
    | cons d n =>
      simp only [wfFrom, Bool.and_eq_true, decide_eq_true_eq] at hn
      have := h d.1
      simp only [read, if_true] at this
      exact absurd this.symm hn.1.2
  | cons c m ih =>
    cases n with
    | nil =>
      simp only [wfFrom, Bool.and_eq_true, decide_eq_true_eq] at hm
      have := h c.1
      simp only [read, if_true] at this
      exact absurd this hm.1.2
    | cons d n =>
      simp only [wfFrom, Bool.and_eq_true, decide_eq_true_eq] at hm hn
      have hcd : c.1 = d.1 := by
        by_contra hne
        rcases Nat.lt_or_gt_of_ne hne with hlt | hlt
        · have := h c.1
          rw [read, if_pos rfl, read, if_neg (by omega), read_below n (low := d.1 + 1) (by omega) hn.2] at this
          exact hm.1.2 this
        · have := h d.1
          rw [read, if_neg (by omega), read_below m (low := c.1 + 1) (by omega) hm.2, read, if_pos rfl] at this
          exact hn.1.2 this.symm
      have hval : c.2 = d.2 := by
        have := h c.1
        rwa [read, if_pos rfl, read, if_pos hcd.symm] at this
      have hrest : m = n := by
        refine ih (low := c.1 + 1) n hm.2 (by rw [hcd]; exact hn.2) fun i => ?_
        by_cases hi : i = c.1
        · rw [hi, read_below m (low := c.1 + 1) (by omega) hm.2,
            read_below n (low := d.1 + 1) (by omega) hn.2]
        · have := h i
          rwa [read, if_neg (by omega), read, if_neg (by omega)] at this
      rw [hrest, Prod.ext_iff.mpr ⟨hcd, hval⟩]

/-- Canonical memories that read alike are equal. -/
theorem eq_of_read_eq (m n : Memory) (hm : wf m = true) (hn : wf n = true) (h : ∀ i, read m i = read n i) : m = n :=
  eq_of_read_eq_from m n hm hn h

theorem ofSamplesFrom_wf (samples : List Bool) (i : Nat) : wfFrom i (ofSamplesFrom i samples) = true := by
  induction samples generalizing i with
  | nil => rfl
  | cons b samples ih =>
    cases b with
    | true => exact wfFrom_weaken _ (Nat.le_succ i) (ih (i + 1))
    | false =>
      simp only [ofSamplesFrom, wfFrom, Bool.and_eq_true, decide_eq_true_eq]
      exact ⟨⟨Nat.le_refl i, by decide⟩, ih (i + 1)⟩

/-- A capture given as samples is canonical. -/
theorem ofSamples_wf (samples : List Bool) : wf (ofSamples samples) = true := ofSamplesFrom_wf samples 0

theorem reset_wf : wf State.reset.raw = true := rfl

end Sys2Proof.Machine.Memory
end

