-- ==== Sys2Proof/Laws/PerInstr.lean ====
section
/-! SUPPORT. What holds of every role as syntax, one lemma for each constructor of `Instr`. -/

namespace Sys2Proof.Laws.EncodedKey

/-- The reserved bits `K[8:6]` of the key written for a role are 0 (30_encoding.md R57). -/
def Statement (i : Instr) : Prop := encode i &&& 0x01C0 = 0

/-- An index put into a pattern without reserved bits leaves them 0. -/
theorem keyOf_reserved (pattern : Key) (index : KeyIndex) (h : pattern &&& 0x01C0 = 0) :
    keyOf pattern index &&& 0x01C0 = 0 := by
  have hindex : index.setWidth 16 &&& (0x01C0 : Key) = 0 := by revert index; decide +kernel
  rw [keyOf, BitVec.and_comm, BitVec.and_or_distrib_left, BitVec.and_comm _ pattern, h,
    BitVec.and_comm _ (index.setWidth 16), hindex]
  rfl

theorem dstuff : Statement .dstuff := rfl
theorem fsb : Statement .fsb := rfl
theorem sof : Statement .sof := rfl
theorem id (index : KeyIndex) : Statement (.id index) := keyOf_reserved _ index (by decide)
theorem b12 : Statement .b12 := rfl
theorem ide : Statement .ide := rfl
theorem fdfB : Statement .fdfB := rfl
theorem dlcC11 (index : KeyIndex) : Statement (.dlcC11 index) := keyOf_reserved _ index (by decide)
theorem resF11 : Statement .resF11 := rfl
theorem brsF11 : Statement .brsF11 := rfl
theorem esiF11 : Statement .esiF11 := rfl
theorem dlcF11 (index : KeyIndex) : Statement (.dlcF11 index) := keyOf_reserved _ index (by decide)
theorem idx (index : KeyIndex) : Statement (.idx index) := keyOf_reserved _ index (by decide)
theorem b32 : Statement .b32 := rfl
theorem fdfE : Statement .fdfE := rfl
theorem resE : Statement .resE := rfl
theorem dlcC29 (index : KeyIndex) : Statement (.dlcC29 index) := keyOf_reserved _ index (by decide)
theorem brsF29 : Statement .brsF29 := rfl
theorem esiF29 : Statement .esiF29 := rfl
theorem dlcF29 (index : KeyIndex) : Statement (.dlcF29 index) := keyOf_reserved _ index (by decide)
theorem data (index : KeyIndex) : Statement (.data index) := keyOf_reserved _ index (by decide)
theorem crcC (index : KeyIndex) : Statement (.crcC index) := keyOf_reserved _ index (by decide)
theorem stc (index : KeyIndex) : Statement (.stc index) := keyOf_reserved _ index (by decide)
theorem par : Statement .par := rfl
theorem crcFd (index : KeyIndex) : Statement (.crcFd index) := keyOf_reserved _ index (by decide)
theorem dl1 : Statement .dl1 := rfl
theorem ack : Statement .ack := rfl
theorem dl2 : Statement .dl2 := rfl
theorem eof (index : KeyIndex) : Statement (.eof index) := keyOf_reserved _ index (by decide)

end Sys2Proof.Laws.EncodedKey
end

