-- ==== Sys2Proof/Laws/Rational.lean ====
section
/-! SUPPORT. The model's rational operations are the library's, and rounding in terms of the library's order. -/

namespace Sys2Proof.Machine

theorem addQ_eq (a b : Rat) : addQ a b = a + b := by rw [addQ, ← Rat.add_def']

theorem mulQ_eq (a b : Rat) : mulQ a b = a * b := by rw [mulQ, ← Rat.mul_def']

theorem subQ_eq (a b : Rat) : subQ a b = a - b := by
  rw [show subQ a b = addQ a (-b) by simp [subQ, addQ, sub_eq_add_neg], addQ_eq, sub_eq_add_neg]

theorem position_eq (i : Nat) : position i = (i : Rat) := by
  simp [position, Rat.mkRat_one]

theorem half_eq : mkRat 1 2 = (1 / 2 : Rat) := by norm_num [Rat.mkRat_eq_div]

theorem rnd_eq (x : Rat) : rnd x = ⌊x + 1 / 2⌋.toNat := by rw [rnd, addQ_eq, half_eq]; rfl

theorem rnd_mono {x y : Rat} (h : x ≤ y) : rnd x ≤ rnd y := by
  rw [rnd_eq, rnd_eq]
  exact Int.toNat_le_toNat (Int.floor_le_floor (by linarith))

@[simp] theorem rnd_natCast (n : Nat) : rnd (n : Rat) = n := by
  rw [rnd_eq, show ⌊(n : Rat) + 1 / 2⌋ = (n : Int) by rw [Int.floor_eq_iff]; constructor <;> push_cast <;> linarith]
  rfl

/-- `n ≤ rnd x` for a positive `n`, without rounding. -/
theorem le_rnd_iff {x : Rat} {n : Nat} (hn : 0 < n) : n ≤ rnd x ↔ (n : Rat) - 1 / 2 ≤ x := by
  have hfloor : n ≤ ⌊x + 1 / 2⌋.toNat ↔ (n : Int) ≤ ⌊x + 1 / 2⌋ := by omega
  rw [rnd_eq, hfloor, Int.le_floor]
  constructor <;> intro h <;> push_cast at * <;> linarith

end Sys2Proof.Machine
end

