-- ==== Sys2Proof/Tests/Slice0.lean ====
section
/-! SUPPORT. The model's own tests: the smoke test of the well-formedness check, every role's key written out from
30_encoding.md, single roles and steps on small states with results worked out from the rules and vectors of spec/,
and for every statement with hypotheses concrete values that meet them. -/

namespace Sys2Proof.Tests

open Sys2Proof.Machine Sys2Proof.Safety

/-! ### Ill-formed roles are refused (30_encoding.md R58) -/

theorem test_wf_id : (Instr.id 0).wf = false ∧ (Instr.id 12).wf = false := by decide
theorem test_wf_dlcC11 : (Instr.dlcC11 14).wf = false ∧ (Instr.dlcC11 19).wf = false := by decide
theorem test_wf_dlcF11 : (Instr.dlcF11 17).wf = false ∧ (Instr.dlcF11 22).wf = false := by decide
theorem test_wf_idx : (Instr.idx 13).wf = false ∧ (Instr.idx 32).wf = false := by decide
theorem test_wf_dlcC29 : (Instr.dlcC29 34).wf = false ∧ (Instr.dlcC29 39).wf = false := by decide
theorem test_wf_dlcF29 : (Instr.dlcF29 36).wf = false ∧ (Instr.dlcF29 41).wf = false := by decide
theorem test_wf_data : (Instr.data 8).wf = false := by decide
theorem test_wf_crcC : (Instr.crcC 15).wf = false := by decide
theorem test_wf_stc : (Instr.stc 3).wf = false := by decide
theorem test_wf_crcFd : (Instr.crcFd 3).wf = false ∧ (Instr.crcFd 25).wf = false := by decide
theorem test_wf_eof : (Instr.eof 2).wf = false ∧ (Instr.eof 10).wf = false := by decide

/-! ### Keys written out bit by bit from 30_encoding.md R57 and R58: phase, S, F, IDE, FDF, 000, index -/

theorem test_key_dstuff : decode 0b001_1_0_1_1_000_101000 = .ok .dstuff := by decide
theorem test_key_fsb : decode 0b011_0_1_0_1_000_000100 = .ok .fsb := by decide
theorem test_key_sof : decode 0b001_0_0_0_0_000_000000 = .ok .sof := by decide
theorem test_key_id : decode 0b001_0_0_0_0_000_001011 = .ok (.id 11) := by decide
theorem test_key_b12 : decode 0b001_0_0_0_0_000_001100 = .ok .b12 := by decide
theorem test_key_ide : decode 0b001_0_0_0_0_000_001101 = .ok .ide := by decide
theorem test_key_fdfB : decode 0b001_0_0_0_0_000_001110 = .ok .fdfB := by decide
theorem test_key_dlcC11 : decode 0b001_0_0_0_0_000_001111 = .ok (.dlcC11 15) := by decide
theorem test_key_resF11 : decode 0b001_0_0_0_1_000_001111 = .ok .resF11 := by decide
theorem test_key_brsF11 : decode 0b001_0_0_0_1_000_010000 = .ok .brsF11 := by decide
theorem test_key_esiF11 : decode 0b001_0_0_0_1_000_010001 = .ok .esiF11 := by decide
theorem test_key_dlcF11 : decode 0b001_0_0_0_1_000_010101 = .ok (.dlcF11 21) := by decide
theorem test_key_idx : decode 0b001_0_0_1_0_000_001110 = .ok (.idx 14) := by decide
theorem test_key_b32 : decode 0b001_0_0_1_0_000_100000 = .ok .b32 := by decide
theorem test_key_fdfE : decode 0b001_0_0_1_0_000_100001 = .ok .fdfE := by decide
theorem test_key_resE : decode 0b001_0_0_1_1_000_100010 = .ok .resE := by decide
theorem test_key_dlcC29 : decode 0b001_0_0_1_0_000_100110 = .ok (.dlcC29 38) := by decide
theorem test_key_brsF29 : decode 0b001_0_0_1_1_000_100011 = .ok .brsF29 := by decide
theorem test_key_esiF29 : decode 0b001_0_0_1_1_000_100100 = .ok .esiF29 := by decide
theorem test_key_dlcF29 : decode 0b001_0_0_1_1_000_100101 = .ok (.dlcF29 37) := by decide
theorem test_key_data : decode 0b010_0_0_1_1_000_000111 = .ok (.data 7) := by decide
theorem test_key_crcC : decode 0b011_0_0_1_0_000_001110 = .ok (.crcC 14) := by decide
theorem test_key_stc : decode 0b011_0_0_0_1_000_000010 = .ok (.stc 2) := by decide
theorem test_key_par : decode 0b011_0_0_0_1_000_000011 = .ok .par := by decide
theorem test_key_crcFd : decode 0b011_0_0_1_1_000_011000 = .ok (.crcFd 24) := by decide
theorem test_key_dl1 : decode 0b100_0_0_0_1_000_000000 = .ok .dl1 := by decide
theorem test_key_ack : decode 0b100_0_0_1_0_000_000001 = .ok .ack := by decide
theorem test_key_dl2 : decode 0b100_0_0_0_0_000_000010 = .ok .dl2 := by decide
theorem test_key_eof : decode 0b100_0_0_1_1_000_001001 = .ok (.eof 9) := by decide
theorem test_key_none : decode 0b101_0_0_0_0_000_000000 = .error .noRow := by decide

/-- The next step of the state `withFetchWord` gives runs the word's role. -/
theorem test_fetch : decodeTableWord 16 0xA000 = none ∧ decodeTableWord 16 0x6203 = some .par ∧
    (match step (State.reset.withFetchWord 16 0x6203) with
      | .next t => t.ctx.map (fun f => f.pos.j)
      | .fault _ => none
      | .refused _ => none) = some 4 := by decide

/-! ### Small states -/

/-- A frame whose first bit has begun at sample 0 under the initial parameters: its sample point is sample 7 and its
end sample 10. -/
def begun : Frame := beginBit .initial (frameReset 0)

/-- A state with a capture of 12 samples of level `b` and the given frame in progress. -/
def stateAt (f : Frame) (b : Bool) : State where
  params := { Params.initial with sampleCount := 12 }
  raw := if b then [] else Memory.ofSamples (List.replicate 12 false)
  run := { RunState.initial with mode := .frame }
  ctx := some f
  out := []

/-- The frame after a role, when it goes on. -/
def frameAfter : Host.Outcome State Fault Refusal → Option Frame
  | .next t => t.ctx
  | .fault _ => none
  | .refused _ => none

/-- The packets after a role. -/
def packetsAfter : Host.Outcome State Fault Refusal → List Packet
  | .next t => t.out
  | .fault _ => []
  | .refused _ => []

/-- A header frame at position `h`. -/
def header (h : Nat) (ide fdf : Bool) : Frame :=
  { begun with
    pos := { begun.pos with h := h }
    flags := { begun.flags with ide := ide, fdf := fdf } }

/-- The record of position 12, read dominant, as `a12` names it. -/
def withA12 (f : Frame) : Frame :=
  { f with
    prov := { f.prov with a12 := some 0, a32 := some 0 }
    notes := { f.notes with row1 := [⟨0, 10, .rtr, none, 0, false⟩] } }

/-- A frame in the CRC phase. -/
def crcPhase (w : CrcWidth) (fdf : Bool) (j k : Nat) : Frame :=
  { begun with
    phase := .crc
    pos := { begun.pos with h := headerLength false fdf - 1, j := j, k := k }
    flags := { begun.flags with fdf := fdf }
    acc := { begun.acc with crcW := some w }
    stuff := { begun.stuff with dynEn := !fdf } }

/-- A frame in the trailer. -/
def trailer (t : Nat) : Frame :=
  { begun with
    phase := .trailer
    pos := { begun.pos with h := 18, t := t }
    acc := { begun.acc with crcW := some .w15 }
    stuff := { begun.stuff with dynEn := false } }

/-! ### Roles (results from the rules named) -/

theorem test_sof : (frameAfter (exec .sof (stateAt begun false))).map (fun g => (g.pos.h, g.bitStart, g.hist)) =
    some (1, 10, [(false, .field)]) := by decide

theorem test_id : (frameAfter (exec (.id 1) (stateAt (header 1 false false) true))).map
    (fun g => (g.acc.idAcc, g.notes.row2)) = some (1, [⟨0, 10, .id, none, 1, false⟩]) := by decide

theorem test_b12 : (frameAfter (exec .b12 (stateAt (header 12 false false) true))).map
    (fun g => (g.prov.b12, g.prov.a12, g.flags.rtr)) = some (true, some 0, true) := by decide

/-- R90: position 12 read dominant is an SRR that violates its level. -/
theorem test_ide : (frameAfter (exec .ide (stateAt (withA12 (header 13 false false)) true))).map
    (fun g => (g.flags.ide, g.err, (g.notes.row1.map (fun a => (a.name, a.error))))) =
    some (true, 0x04, [(.srr, true), (.ide, false)]) := by decide

theorem test_fdfB : (frameAfter (exec .fdfB (stateAt (withA12 (header 14 false false)) true))).map
    (fun g => (g.flags.fdf, g.notes.row1.map (fun a => a.name))) = some (true, [.rrs, .fdf]) := by decide

/-- R97, R54: DLC 8 of a Classic frame is 8 bytes. -/
theorem test_dlcC11 : (frameAfter (exec (.dlcC11 18) (stateAt
    { header 18 false false with acc := { begun.acc with dlcAcc := 4 } } false))).map
    (fun g => (g.acc.dlcAcc, g.acc.nbytes, g.phase)) = some (8, 8, .data) := by decide

theorem test_resF11 : (frameAfter (exec .resF11 (stateAt (header 15 false true) false))).map
    (fun g => (g.notes.row1.map (fun a => a.name), g.pos.h)) = some ([.res], 16) := by decide

/-- R71, R93: the bit ends at `7 + 10 · 3/10` at the FD rate. -/
theorem test_brsF11 : (frameAfter (exec .brsF11 (stateAt (header 16 false true) true))).map
    (fun g => (g.flags.brs, g.timing.rate, g.bitStart)) = some (true, .fd, 10) := by decide

theorem test_esiF11 : (frameAfter (exec .esiF11 (stateAt (header 17 false true) true))).map
    (fun g => g.flags.esi) = some true := by decide

/-- R97, R54: DLC 15 of an FD frame is 64 bytes. -/
theorem test_dlcF11 : (frameAfter (exec (.dlcF11 21) (stateAt
    { header 21 false true with acc := { begun.acc with dlcAcc := 7 } } true))).map
    (fun g => (g.acc.nbytes, g.phase)) = some (64, .data) := by decide

theorem test_idx : (frameAfter (exec (.idx 14) (stateAt
    { header 14 true false with acc := { begun.acc with idAcc := 1 } } true))).map
    (fun g => (g.acc.idAcc, g.notes.row1.map (fun a => a.name))) = some (3, [.id 17]) := by decide

theorem test_b32 : (frameAfter (exec .b32 (stateAt (header 32 true false) true))).map
    (fun g => (g.prov.b32, g.prov.a32, g.flags.rtr)) = some (true, some 0, true) := by decide

theorem test_fdfE : (frameAfter (exec .fdfE (stateAt (withA12 (header 33 true false)) false))).map
    (fun g => (g.flags.fdf, g.flags.fdfKnown, g.notes.row1.map (fun a => a.name))) =
    some (false, true, [.rtr, .r1]) := by decide

theorem test_resE : (frameAfter (exec .resE (stateAt (header 34 true false) false))).map
    (fun g => g.notes.row1.map (fun a => a.name)) = some [.r0] := by decide

/-- R97, R99: DLC 0 skips the data; dynamic stuffing goes on in a Classic frame. -/
theorem test_dlcC29 : (frameAfter (exec (.dlcC29 38) (stateAt (header 38 true false) false))).map
    (fun g => (g.phase, g.acc.crcW, g.stuff.dynEn)) = some (.crc, some .w15, true) := by decide

theorem test_brsF29 : (frameAfter (exec .brsF29 (stateAt (header 35 true true) false))).map
    (fun g => (g.flags.brs, g.timing.rate)) = some (false, .std) := by decide

theorem test_esiF29 : (frameAfter (exec .esiF29 (stateAt (header 36 true true) false))).map
    (fun g => (g.flags.esi, g.pos.h)) = some (false, 37) := by decide

/-- R97, R99: DLC 0 of an FD frame skips the data and ends dynamic stuffing. -/
theorem test_dlcF29 : (frameAfter (exec (.dlcF29 40) (stateAt (header 40 true true) false))).map
    (fun g => (g.phase, g.acc.crcW, g.stuff.dynEn)) = some (.crc, some .w17, false) := by decide

/-- R98: the eighth bit appends the byte, and the last byte enters the CRC phase. -/
theorem test_data : (frameAfter (exec (.data 7) (stateAt
    { begun with
      phase := .data
      pos := { begun.pos with dbit := 7 }
      acc := { begun.acc with byteAcc := 0x2A, nbytes := 1 } } true))).map
    (fun g => (g.acc.data, g.acc.byteAcc, g.phase)) = some ([0x55], 0, .crc) := by decide

/-- R104: over no input the computed CRC is the initial value 0. -/
theorem test_crcC_match : (frameAfter (exec (.crcC 14) (stateAt (crcPhase .w15 false 14 0) false))).map
    (fun g => (g.phase, g.err, g.acc.crcRecvOut, g.acc.crcCalcOut)) = some (.trailer, 0, some 0, some 0) := by decide

theorem test_crcC_mismatch : (frameAfter (exec (.crcC 14) (stateAt (crcPhase .w15 false 14 0) true))).map
    (fun g => (g.err, g.acc.crcRecvOut, g.acc.crcCalcOut)) = some (0x02, some 1, some 0) := by decide

theorem test_stc : (frameAfter (exec (.stc 0) (stateAt (crcPhase .w17 true 0 1) true))).map
    (fun g => (g.acc.stc, g.hist, g.pos.j, g.pos.k)) = some (1, [(true, .payload)], 1, 2) := by decide

/-- R102, R55: Gray code 010 is count 3. -/
theorem test_par : (frameAfter (exec .par (stateAt
    { crcPhase .w17 true 3 4 with
      acc := { begun.acc with stc := 0b010 }
      notes := { begun.notes with row2 := [⟨0, 5, .stc, none, 2, false⟩], curField := some 0 } } true))).map
    (fun g => (g.acc.par, g.notes.row2)) = some (true, [⟨0, 10, .stc, none, 3, false⟩]) := by decide

/-- R104: over no input the 17-bit CRC is its initial value 0x10000. -/
theorem test_crcFd : (frameAfter (exec (.crcFd 20) (stateAt
    { crcPhase .w17 true 20 26 with acc := { begun.acc with crcW := some .w17, crcRecv := 0x8000 } } false))).map
    (fun g => (g.phase, g.err, g.acc.crcRecvOut)) = some (.trailer, 0, some 0x10000) := by decide

theorem test_dl1 : (frameAfter (exec .dl1 (stateAt
    { trailer 0 with
      flags := { begun.flags with fdf := true, brs := true }
      timing := { begun.timing with rate := .fd } } false))).map
    (fun g => (g.timing.rate, g.timing.ackExt, g.err)) = some (.std, true, 0x04) := by decide

theorem test_ack : (frameAfter (exec .ack (stateAt (trailer 1) false))).map
    (fun g => (g.flags.ack, g.err)) = some (true, 0) ∧
    (frameAfter (exec .ack (stateAt (trailer 1) true))).map
    (fun g => (g.flags.ack, g.err)) = some (false, 0x04) := by decide

theorem test_dl2 : (frameAfter (exec .dl2 (stateAt (trailer 2) false))).map
    (fun g => (g.err, g.notes.row1.map (fun a => a.error))) = some (0x04, [true]) := by decide

/-- R108, R128, R129: the tenth trailer bit ends the frame. -/
theorem test_eof : (packetsAfter (exec (.eof 9) (stateAt (trailer 9) true))).map
    (fun p => (p.endSample, p.row1.map (fun a => a.name))) = [(10, [.eof 7])] := by decide

/-- R110, R111: a stuff bit that continues the run is wrong, is counted and starts a new run. -/
theorem test_dstuff : (frameAfter (exec .dstuff (stateAt
    { header 5 false false with stuff := { begun.stuff with runLen := 5 } } true))).map
    (fun g => (g.err, g.stuff.dynCount, g.stuff.runLen, g.pos.h)) = some (0x08, 1, 1, 5) := by decide

/-- R113: a fixed stuff bit equal to the bit before it is wrong and stays out of the history. -/
theorem test_fsb : (frameAfter (exec .fsb (stateAt (crcPhase .w17 true 4 5) true))).map
    (fun g => (g.err, g.hist, g.pos.k, g.pos.j)) = some (0x10, [], 6, 4) := by decide

/-! ### Steps and the engines -/

/-- R78: a search of a capture without an edge completes. -/
theorem test_reset_completes : (match step State.reset with
    | .next t => some (t.run.mode, t.run.status, t.run.pollCount)
    | .fault _ => none
    | .refused _ => none) = some (.done, .completed, 1) := by decide

/-- R78: the first dominant edge starts a frame. -/
theorem test_search_finds_sof :
    (frameAfter (step (State.ofSamples .initial [true, true, false, false]))).map
      (fun g => (g.notes.startSample, g.bitStart)) = some (2, 2) := by decide

/-- R12: ties go up. -/
theorem test_rnd : rnd (mkRat 5 2) = 3 ∧ rnd (mkRat 9 4) = 2 ∧ rnd 7 = 7 := by decide

/-- R72: the end of the bit moves to the dominant edge after the sample point. -/
theorem test_resync : (resync { stateAt begun true with raw := [(9, 0)] } begun).timing.bitEnd = 9 := by decide

/-- R117, R118: one bit 1 gives the polynomial in the 15-bit engine. -/
theorem test_crc_one_bit : crcOver .w15 [true] = 0x4599 ∧ crcOver .w17 [true] = 0x00000 ∧
    crcOver .w21 [true] = 0x000000 := by decide

/-- 95_test_vectors.md E1 and E2 (R118, R120): the field bits of frame A from SOF to the data give 0x2802; with the
last data bit flipped, 0x6D9B. -/
theorem test_crc_frameA :
    crcOver .w15 [false, false, false, true, false, false, true, false, false, false, true, true, false, false, false,
      false, false, true, false, true, false, true, false, true, false, true, false, true, false, true, true, true,
      false, true, true] = 0x2802 ∧
    crcOver .w15 [false, false, false, true, false, false, true, false, false, false, true, true, false, false, false,
      false, false, true, false, true, false, true, false, true, false, true, false, true, false, true, true, true,
      false, true, false] = 0x6D9B := by decide +kernel

/-- 95_test_vectors.md, CRC values of short inputs: CRC-15 on `[1, 0]`. -/
theorem test_crc_short : crcOver .w15 [true, false] = 0x4EAB := by decide

/-- 95_test_vectors.md, CRC values of short inputs: where the polynomial is added to the register. -/
theorem test_crc_polynomials : crcOver .w17 [false] = 0x1685B ∧ crcOver .w21 [false] = 0x102899 ∧
    crcOver .w17 [false, false] = 0x1B8ED ∧ crcOver .w21 [true, true] = 0x102899 ∧
    crcOver .w17 [true, false, true, true] = 0x0D0B6 := by decide

/-- R79: the search resumes at the end sample, also where the whole frame is shorter than half a sample (I4,
assumption log 9). -/
theorem test_emit_searchFrom :
    (emit (stateAt begun true) begun).run.searchFrom = 10 ∧
    (emit (stateAt begun true)
      { begun with
        timing := { begun.timing with bitEnd := mkRat 9 4 }
        notes := { begun.notes with startSample := 2 } }).run.searchFrom = 2 := by decide

/-- R55: the table of the Gray-coded stuff count. -/
theorem test_gray : [0, 1, 2, 3, 4, 5, 6, 7].map grayEncode =
    [0b000, 0b001, 0b011, 0b010, 0b110, 0b111, 0b101, 0b100] := by decide

/-- R115: five dominant bits are followed by a recessive stuff bit. -/
theorem test_stuffing : (stuffBits true 0 [false, false, false, false, false, false]).map Prod.fst =
    [false, false, false, false, false, true, false] := by decide

/-- R63: the text of a row-2 record. -/
theorem test_text : fieldText ⟨0, 10, .data, some 3, 0xA5, false⟩ = "DATA3 0xA5" := by decide

/-! ### Witnesses: for every statement with hypotheses, values that meet them -/

/-- The bit of `stateAt` can be processed. -/
theorem ready_at (f : Frame) (b : Bool) (h : rnd f.timing.samplePoint = 7) : Ready (stateAt f b) f b where
  mode := rfl
  ctx := rfl
  inCapture := by rw [h]; show 7 < 12; decide
  value := by rw [h]; cases b <;> rfl

theorem begun_samplePoint : rnd begun.timing.samplePoint = 7 := by decide

/-- A step that goes on, from its evaluation. -/
theorem next_of_isSome {o : Host.Outcome State Fault Refusal} (h : (frameAfter o).isSome = true) :
    ∃ t g, o = .next t ∧ t.ctx = some g := by
  cases o with
  | next t =>
    obtain ⟨g, hg⟩ := Option.isSome_iff_exists.mp h
    exact ⟨t, g, rfl, hg⟩
  | fault r => cases h
  | refused r => cases h

theorem witness_DecodeOfEncodedRole : (Instr.id 1).wf = true ∧ (Instr.id 11).wf = true ∧ (Instr.crcFd 24).wf = true :=
  by decide

/-- The greatest counter of six bits in the header, and a counter of each other phase. -/
theorem witness_DispatchKeyHoldsTheRegisters :
    ((header 63 false false).phase = .header ∧ (header 63 false false).pos.h = 63) ∧
    (({ begun with phase := .data } : Frame).phase = .data ∧ begun.pos.dbit % 8 = 0) ∧
    ((crcPhase .w21 true 24 31).phase = .crc ∧ (crcPhase .w21 true 24 31).pos.j = 24) ∧
    ((trailer 9).phase = .trailer ∧ (trailer 9).pos.t = 9) := by decide

/-- A frame at its reset, and a Classic frame in its CRC phase. -/
theorem witness_DestuffingUndoesStuffing :
    (begun.stuff.dynEn = true ∧ begun.stuff.runVal = true ∧ begun.stuff.runLen = 0 ∧
      ¬ (begun.phase = .crc ∧ begun.flags.fdf = true)) ∧
    (crcPhase .w15 false 0 0).stuff.dynEn = true ∧
    ¬ ((crcPhase .w15 false 0 0).phase = .crc ∧ (crcPhase .w15 false 0 0).flags.fdf = true) := by decide

theorem witness_SearchStartsAFreshFrame :
    (State.ofSamples .initial [true, true, false]).runnable = true ∧
    (State.ofSamples .initial [true, true, false]).run.mode = .search ∧
    (State.ofSamples .initial [true, true, false]).params.abort 0 = false ∧
    max 1 (State.ofSamples .initial [true, true, false]).run.searchFrom ≤ 2 ∧
    domEdge (State.ofSamples .initial [true, true, false]) 2 = true ∧
    domEdge (State.ofSamples .initial [true, true, false]) 1 = false := by decide

/-- A poll that aborts; a capture without an edge; the first place an edge can lie, sample 1. -/
theorem witness_SearchFindsTheFirstDominantEdge :
    (({ Params.initial with abortPolls := [0] } : Params).abort 0 = true ∧
      ({ State.reset with params := { Params.initial with abortPolls := [0] } } : State).runnable = true) ∧
    (domEdge (State.ofSamples .initial [true, false]) 1 = true ∧
      (State.ofSamples .initial [true, false]).runnable = true ∧
      (State.ofSamples .initial [true, false]).run.mode = .search) ∧
    State.reset.runnable = true ∧ State.reset.run.mode = .search ∧
    State.reset.params.abort State.reset.run.pollCount = false ∧ ∀ i, domEdge State.reset i = false :=
  ⟨by decide, by decide, by decide, by decide, by decide,
    fun i => by simp [domEdge, State.reset, State.start, Params.initial]⟩

/-- Each range broken alone: the sample-point fractions just beyond their ends, and a sample that is no bit. -/
theorem witness_OutOfRangeInputsAreRefused :
    ({ Params.initial with spbStd := 0 } : Params).spbStd ≤ 0 ∧
    ({ Params.initial with spfFd := mkRat 91 100 } : Params).spfFd > 9 / 10 ∧
    ({ Params.initial with pAckSteady := mkRat 19 100 } : Params).pAckSteady < 1 / 5 ∧
    (∃ c ∈ ([(0, 2)] : Memory), c.2 ≠ 0 ∧ c.2 ≠ 1) :=
  ⟨by decide, by norm_num [Rat.mkRat_eq_div], by norm_num [Rat.mkRat_eq_div], (0, 2), by simp, by decide, by decide⟩

theorem witness_AbortPollCountsAndTakesTheAbort :
    State.reset.run.pollCount ∈ ({ Params.initial with abortPolls := [0] } : Params).abortPolls ∧
    State.reset.run.pollCount ∉ State.reset.params.abortPolls := by decide

/-- The boundary: the sample point 7 of a capture of 7 samples. -/
theorem witness_ExhaustionDropsTheFrame :
    let s : State := { stateAt begun true with params := { Params.initial with sampleCount := 7 } }
    s.runnable = true ∧ s.run.mode = .frame ∧ s.ctx = some begun ∧
    s.params.sampleCount ≤ rnd (begun.bitStart + s.params.spb begun.timing.rate * s.params.spf begun.timing.rate) :=
  ⟨by decide, rfl, rfl, by
    have h : rnd (addQ begun.bitStart (mulQ (Params.initial.spb begun.timing.rate)
      (Params.initial.spf begun.timing.rate))) = 7 := by decide
    rw [show ∀ a b c : Rat, a + b * c = addQ a (mulQ b c) from fun a b c => by
      rw [addQ, mulQ, ← Rat.mul_def', ← Rat.add_def']]
    exact Nat.le_of_eq h.symm⟩

theorem witness_NoStepOutOfRangeOrAfterTheEnd :
    let s : State := { State.reset with run := { RunState.initial with mode := .done, status := .completed } }
    s.runnable = true ∧ s.run.mode = .done := by decide

theorem witness_RolesCompleteExactlyOnReadyBits :
    State.reset.run.mode ≠ .frame ∧
    ({ stateAt begun true with ctx := none } : State).ctx = none ∧
    (({ stateAt begun true with params := { Params.initial with sampleCount := 7 } } : State).params.sampleCount ≤
      rnd begun.timing.samplePoint) ∧
    needsCrcWidth (.crcFd 4) begun ∧ begun.acc.crcW = none ∧
    needsCrcWidth (.crcC 14) { begun with pos := { begun.pos with j := 14 } } ∧ Ready (stateAt begun true) begun true :=
  ⟨by decide, rfl, by decide, .inl ⟨4, rfl⟩, rfl, .inr ⟨⟨14, rfl⟩, rfl⟩, ready_at _ _ begun_samplePoint⟩

theorem witness_StepRunsTheRoleOfTheKey :
    (stateAt begun true).runnable = true ∧ (stateAt begun true).run.mode = .frame ∧
    (stateAt begun true).ctx = some begun ∧
    rnd (beginBit (stateAt begun true).params begun).timing.samplePoint < (stateAt begun true).params.sampleCount ∧
    decode (dispatchKey (beginBit (stateAt begun true).params begun)) = .ok .sof :=
  ⟨by decide, rfl, rfl, by decide, by decide⟩

/-- A tie. -/
theorem witness_RoundingIsHalfUp : (0 : Rat) ≤ 5 / 2 := by norm_num

/-- A bit's record at the end of row 1, with an edge at the last place of its window and without one. -/
theorem witness_SteadyWindowCheckFindsAnEdge :
    let f : Frame := { begun with notes := { begun.notes with row1 := [⟨0, 10, .sof, none, 0, false⟩] } }
    f.notes.row1 = [] ++ [⟨0, 10, .sof, none, 0, false⟩] ∧
    steadyViolated { stateAt f true with raw := [(8, 0)] } f = true ∧
    steadyViolated { stateAt f true with raw := [] } f = false := by decide

/-- The edges at the first and the last place of the range of bit 0, samples 8 and 11, and a capture without one. -/
theorem witness_ResyncMovesBitEndToTheFirstDominantEdge :
    rnd begun.timing.samplePoint + 1 = 8 ∧
    rnd (addQ begun.timing.bitEnd (mulQ (Params.initial.spb begun.timing.rate) (mkRat 1 5))) = 12 ∧
    domEdge { stateAt begun true with raw := [(8, 0)] } 8 = true ∧
    domEdge { stateAt begun true with raw := [(11, 0)] } 11 = true ∧
    (∀ i < 11, 7 < i → domEdge { stateAt begun true with raw := [(11, 0)] } i = false) ∧
    (∀ e < 12, 7 < e → domEdge (stateAt begun true) e = false) := by decide

/-- A step that goes on to a next bit of the same frame. -/
theorem witness_step_in_frame :
    (stateAt begun true).runnable = true ∧ (stateAt begun true).run.mode = .frame ∧
    (stateAt begun true).ctx = some begun ∧ ∃ t g, step (stateAt begun true) = .next t ∧ t.ctx = some g :=
  ⟨by decide, rfl, rfl, next_of_isSome (by decide)⟩

theorem witness_EveryBitAdvancesByAtLeastDelta :
    ∃ t g, step (stateAt begun true) = .next t ∧ t.ctx = some g := witness_step_in_frame.2.2.2

theorem witness_ErrorFlagsNeverClear :
    (∃ t g, step (stateAt begun true) = .next t ∧ t.ctx = some g) ∧
    (packetsAfter (step (stateAt { trailer 9 with err := 0x04 } true))).map (fun p => p.err) = [0x04] :=
  ⟨witness_step_in_frame.2.2.2, by decide⟩

theorem witness_TwoRateSplitOfBrsAndDl1 :
    begun.timing.rate = .std ∧
    resyncEdge (stateAt begun true) (switchRate Params.initial true (beginBit Params.initial begun)) = none ∧
    ({ begun with timing := { begun.timing with rate := .fd } } : Frame).timing.rate = .fd ∧
    resyncEdge (stateAt begun true) (switchRate Params.initial false (beginBit Params.initial
      { begun with timing := { begun.timing with rate := .fd } })) = none ∧
    resyncEdge (stateAt begun true) (beginBit Params.initial begun) = none := by decide

/-- Header roles. -/
theorem witness_header_roles :
    Ready (stateAt (header 1 false false) true) (header 1 false false) true ∧ (header 1 false false).phase = .header ∧
    Ready (stateAt (header 31 true false) false) (header 31 true false) false ∧
    (header 31 true false).phase = .header :=
  ⟨ready_at _ _ begun_samplePoint, rfl, ready_at _ _ begun_samplePoint, rfl⟩

theorem witness_SofAndReservedBitsAreOnlyNamed :
    Ready (stateAt begun false) begun false ∧ begun.phase = .header := ⟨ready_at _ _ begun_samplePoint, rfl⟩

theorem witness_IdentifierBitsShiftIn :
    Ready (stateAt (header 11 false false) true) (header 11 false false) true ∧ (header 11 false false).phase = .header :=
  ⟨ready_at _ _ begun_samplePoint, rfl⟩

theorem witness_ProvisionalBitsAreKept :
    Ready (stateAt (header 32 true false) true) (header 32 true false) true ∧ (header 32 true false).phase = .header :=
  ⟨ready_at _ _ begun_samplePoint, rfl⟩

theorem witness_IdeBitSelectsTheIdentifierLength :
    (header 13 false false).phase = .header ∧
    Ready (stateAt (header 13 false false) false) (header 13 false false) false ∧
    Ready (stateAt (header 13 false false) true) (header 13 false false) true :=
  ⟨rfl, ready_at _ _ begun_samplePoint, ready_at _ _ begun_samplePoint⟩

theorem witness_FdfBitSelectsTheFrameFormat :
    (header 14 false false).phase = .header ∧
    Ready (stateAt (header 14 false false) false) (header 14 false false) false ∧
    Ready (stateAt (header 33 true false) true) (header 33 true false) true :=
  ⟨rfl, ready_at _ _ begun_samplePoint, ready_at _ _ begun_samplePoint⟩

theorem witness_BrsBitSwitchesTheRate :
    (header 16 false true).phase = .header ∧
    Ready (stateAt (header 16 false true) false) (header 16 false true) false ∧
    Ready (stateAt (header 35 true true) true) (header 35 true true) true :=
  ⟨rfl, ready_at _ _ begun_samplePoint, ready_at _ _ begun_samplePoint⟩

theorem witness_EsiBitIsKept :
    Ready (stateAt (header 17 false true) true) (header 17 false true) true ∧ (header 17 false true).phase = .header :=
  ⟨ready_at _ _ begun_samplePoint, rfl⟩

/-- The first DLC bit and the last but one; the last one of a code that is not 0, of the code 0, and of a remote
frame. -/
theorem witness_DlcBitsShiftInAndTheLastEndsTheHeader :
    Ready (stateAt (header 15 false false) true) (header 15 false false) true ∧
    (header 15 false false).phase = .header ∧ (header 15 false false).pos.h - 15 ≠ 3 ∧
    (header 17 false false).pos.h - 15 ≠ 3 ∧
    Ready (stateAt (header 18 false false) true) (header 18 false false) true ∧
    (header 18 false false).pos.h - 15 = 3 ∧
    byteCount false (pushBit (header 18 false false).acc.dlcAcc true) ≠ 0 ∧ (header 18 false false).flags.rtr = false ∧
    byteCount false (pushBit (header 18 false false).acc.dlcAcc false) = 0 ∧
    ({ begun with flags := { begun.flags with rtr := true } } : Frame).flags.rtr = true :=
  ⟨ready_at _ _ begun_samplePoint, rfl, by decide, by decide, ready_at _ _ begun_samplePoint, by decide, by decide, rfl,
    by decide, rfl⟩

/-- A data frame: bits 6 and 7 of the first of `n` bytes. -/
def dataFrame (dbit n : Nat) : Frame :=
  { begun with phase := .data, pos := { begun.pos with h := 18, dbit := dbit }, acc := { begun.acc with nbytes := n } }

theorem witness_DataBitsAssembleBytes :
    Ready (stateAt (dataFrame 7 2) true) (dataFrame 7 2) true ∧ (dataFrame 7 2).phase = .data ∧
    (dataFrame 6 1).pos.dbit % 8 ≠ 7 ∧
    ((dataFrame 7 2).pos.dbit % 8 = 7 ∧ (dataFrame 7 2).acc.data.length + 1 ≠ (dataFrame 7 2).acc.nbytes) ∧
    ((dataFrame 7 1).pos.dbit % 8 = 7 ∧ (dataFrame 7 1).acc.data.length + 1 = (dataFrame 7 1).acc.nbytes) :=
  ⟨ready_at _ _ begun_samplePoint, rfl, by decide, by decide, by decide⟩

/-- The last CRC bit but one and the last, Classic and FD. -/
theorem witness_CrcBitsShiftInAndTheLastChecksTheFrame :
    (Ready (stateAt (crcPhase .w15 false 13 0) true) (crcPhase .w15 false 13 0) true ∧
      (crcPhase .w15 false 13 0).phase = .crc ∧ (13 : Nat) ≠ 14 ∧ (crcPhase .w15 false 13 0).flags.fdf = false) ∧
    (Ready (stateAt (crcPhase .w21 true 23 29) true) (crcPhase .w21 true 23 29) true ∧
      (crcPhase .w21 true 23 29).acc.crcW = some .w21 ∧ (crcPhase .w21 true 23 29).flags.fdf = true ∧
      23 - 4 ≠ CrcWidth.w21.bits - 1) ∧
    (Ready (stateAt (crcPhase .w15 false 14 0) true) (crcPhase .w15 false 14 0) true ∧
      (crcPhase .w15 false 14 0).acc.crcW = some .w15 ∧ (crcPhase .w15 false 14 0).pos.j = 14 ∧
      (crcPhase .w15 false 14 0).flags.fdf = false) ∧
    Ready (stateAt (crcPhase .w17 true 20 26) true) (crcPhase .w17 true 20 26) true ∧
    (crcPhase .w17 true 20 26).acc.crcW = some .w17 ∧ 20 - 4 = CrcWidth.w17.bits - 1 ∧
    (crcPhase .w17 true 20 26).flags.fdf = true ∧ (crcPhase .w17 true 20 26).phase = .crc :=
  ⟨⟨ready_at _ _ begun_samplePoint, rfl, by decide, rfl⟩, ⟨ready_at _ _ begun_samplePoint, rfl, rfl, by decide⟩,
    ⟨ready_at _ _ begun_samplePoint, rfl, rfl, rfl⟩, ready_at _ _ begun_samplePoint, rfl, by decide, rfl, rfl⟩

theorem witness_StuffCountBitsShiftIn :
    Ready (stateAt (crcPhase .w17 true 0 1) true) (crcPhase .w17 true 0 1) true ∧
    (crcPhase .w17 true 0 1).phase = .crc ∧ (crcPhase .w17 true 0 1).flags.fdf = true :=
  ⟨ready_at _ _ begun_samplePoint, rfl, rfl⟩

theorem witness_ParityBitIsKept :
    Ready (stateAt (crcPhase .w17 true 3 4) true) (crcPhase .w17 true 3 4) true ∧
    (crcPhase .w17 true 3 4).phase = .crc ∧ (crcPhase .w17 true 3 4).flags.fdf = true :=
  ⟨ready_at _ _ begun_samplePoint, rfl, rfl⟩

theorem witness_Dl1SwitchesBackAndMustBeRecessive :
    Ready (stateAt (trailer 0) false) (trailer 0) false ∧ (trailer 0).phase = .trailer :=
  ⟨ready_at _ _ begun_samplePoint, rfl⟩

theorem witness_AckBitSetsAckOrBitStatus :
    Ready (stateAt (trailer 1) true) (trailer 1) true ∧ (trailer 1).phase = .trailer :=
  ⟨ready_at _ _ begun_samplePoint, rfl⟩

theorem witness_Dl2AndEofMustBeRecessive :
    Ready (stateAt (trailer 9) false) (trailer 9) false ∧ (trailer 9).phase = .trailer :=
  ⟨ready_at _ _ begun_samplePoint, rfl⟩

theorem witness_stuff_roles : Ready (stateAt begun false) begun false := ready_at _ _ begun_samplePoint

theorem witness_DynamicStuffBitIsCountedAndChecked :
    Ready (stateAt { begun with stuff := { begun.stuff with runLen := 5 } } true)
      { begun with stuff := { begun.stuff with runLen := 5 } } true := ready_at _ _ begun_samplePoint

theorem witness_FixedStuffBitIsChecked :
    Ready (stateAt (crcPhase .w17 true 0 0) false) (crcPhase .w17 true 0 0) false := ready_at _ _ begun_samplePoint

/-- A finished frame, a frame with an error and exactly seven recessive bits, and frames that miss each condition. -/
theorem witness_FrameEndEmitsThePacket :
    ({ begun with phase := .finished } : Frame).phase = .finished ∧
    (7 ≤ ({ begun with recRun := 7, err := 1 } : Frame).recRun ∧ ({ begun with recRun := 7, err := 1 } : Frame).err ≠ 0) ∧
    ¬ (begun.phase = .finished ∨ (7 ≤ begun.recRun ∧ begun.err ≠ 0)) := by decide

theorem witness_NothingWritesTheInputs :
    (∃ t g, step (stateAt begun true) = .next t ∧ t.ctx = some g) ∧
    ∃ t g, exec .sof (stateAt begun true) = .next t ∧ t.ctx = some g :=
  ⟨witness_step_in_frame.2.2.2, next_of_isSome (by decide)⟩

theorem witness_OutputOnlyGrows :
    (∃ t g, step (stateAt begun true) = .next t ∧ t.ctx = some g) ∧
    (packetsAfter (step (stateAt (trailer 9) true))).length = 1 := ⟨witness_step_in_frame.2.2.2, by decide⟩

/-- The greatest register of each width. -/
theorem witness_CrcEngineIsTheShiftRegister :
    (0x7FFF : BitVec 21).toNat < 2 ^ CrcWidth.w15.bits ∧ (0x1FFFF : BitVec 21).toNat < 2 ^ CrcWidth.w17.bits ∧
    (0x1FFFFF : BitVec 21).toNat < 2 ^ CrcWidth.w21.bits := by decide

theorem witness_CrcInputAndWidthFollowTheFormat : 16 ≤ 16 ∧ 16 < 17 := by decide

theorem witness_ByteCountTable : (8 : BitVec 4).toNat ≤ 8 ∧ 8 < (9 : BitVec 4).toNat := by decide

theorem witness_SampleWritesReadBackAndCompose :
    Memory.wf [(2, 0), (5, 0)] = true ∧ (5 : Nat) ≠ 2 := by decide

/-! Witnesses of the invariants, in the phases their clauses speak of. -/

theorem layout_begun : LayoutOk begun := by constructor <;> decide

theorem inv_begun : Inv (stateAt begun true) where
  coherent := by constructor <;> decide
  memory := rfl
  layout := fun f h => by cases h; exact layout_begun
  rate := fun f h => by cases h; constructor <;> decide
  running := fun f h => by cases h; exact .inl (by decide)

theorem refs_begun : RefsOk begun := by
  constructor
  case a12 | a32 | curField | stcField => intro i h; cases h
  all_goals decide

theorem witness_StepsKeepTheControlInvariant :
    Inv (stateAt begun true) ∧ ∃ t g, step (stateAt begun true) = .next t ∧ t.ctx = some g :=
  ⟨inv_begun, witness_step_in_frame.2.2.2⟩

theorem witness_StepsKeepTheReferencesValid :
    Inv (stateAt begun true) ∧ (∀ f, (stateAt begun true).ctx = some f → RefsOk f) ∧
    ∃ t g, step (stateAt begun true) = .next t ∧ t.ctx = some g :=
  ⟨inv_begun, fun f h => by cases h; exact refs_begun, witness_step_in_frame.2.2.2⟩

theorem witness_EveryFormedKeyHasARole : Inv (stateAt begun true) ∧ (stateAt begun true).ctx = some begun :=
  ⟨inv_begun, rfl⟩

theorem witness_NoStopBeforeTheEnd :
    Inv (stateAt begun true) ∧ (stateAt begun true).runnable = true ∧ (stateAt begun true).run.mode ≠ .done :=
  ⟨inv_begun, by decide, by decide⟩

/-- The header's last bit, whose step leaves the header. -/
def lastHeaderBit : Frame := header 18 false false

theorem inv_lastHeaderBit (b : Bool) : Inv (stateAt lastHeaderBit b) where
  coherent := by cases b <;> constructor <;> decide
  memory := by cases b <;> decide
  layout := fun f h => by cases h; constructor <;> decide
  rate := fun f h => by cases h; constructor <;> decide
  running := fun f h => by cases h; exact .inl (by decide)

/-- The last bit of the only byte of a frame with DLC 1. -/
def lastDataBit : Frame :=
  { dataFrame 7 1 with acc := { begun.acc with nbytes := 1, dlcAcc := 1 } }

theorem inv_lastDataBit : Inv (stateAt lastDataBit true) where
  coherent := by constructor <;> decide
  memory := rfl
  layout := fun f h => by cases h; constructor <;> decide
  rate := fun f h => by cases h; constructor <;> decide
  running := fun f h => by cases h; exact .inl (by decide)

/-- The last CRC bit of a frame without data, Classic and FD. -/
theorem inv_lastCrcBit : Inv (stateAt (crcPhase .w15 false 14 0) true) ∧ Inv (stateAt (crcPhase .w17 true 20 26) true) := by
  constructor <;>
  · constructor
    case coherent => constructor <;> decide
    case memory => rfl
    case layout => intro f h; cases h; constructor <;> decide
    case rate => intro f h; cases h; constructor <;> decide
    case running => intro f h; cases h; exact .inl (by decide)

/-- Each change of phase. -/
theorem witness_PhasesOnlyMoveForward :
    (Inv (stateAt lastHeaderBit true) ∧ Inv (stateAt lastHeaderBit false) ∧ Inv (stateAt lastDataBit true) ∧
      Inv (stateAt (crcPhase .w15 false 14 0) true) ∧ Inv (stateAt (crcPhase .w17 true 20 26) true)) ∧
    (frameAfter (step (stateAt lastHeaderBit true))).map (fun g => g.phase) = some .data ∧
    (frameAfter (step (stateAt lastHeaderBit false))).map (fun g => g.phase) = some .crc ∧
    (frameAfter (step (stateAt lastDataBit true))).map (fun g => g.phase) = some .crc ∧
    (frameAfter (step (stateAt (crcPhase .w15 false 14 0) true))).map (fun g => g.phase) = some .trailer ∧
    (frameAfter (step (stateAt (crcPhase .w17 true 20 26) true))).map (fun g => g.phase) = some .trailer :=
  ⟨⟨inv_lastHeaderBit true, inv_lastHeaderBit false, inv_lastDataBit, inv_lastCrcBit.1, inv_lastCrcBit.2⟩,
    by decide, by decide, by decide, by decide, by decide⟩

theorem witness_StepsKeepRowsContiguous :
    RowsContiguous (stateAt begun true) ∧ ∃ t g, step (stateAt begun true) = .next t ∧ t.ctx = some g :=
  ⟨⟨fun f h => by cases h; exact (show begun.notes.startSample = rnd begun.bitStart by decide), fun p h => by cases h⟩, witness_step_in_frame.2.2.2⟩

/-- A bit at a fixed stuff position, and a trailer bit. -/
theorem witness_StuffingSchemesNeverMeet :
    isFixedStuff (crcPhase .w17 true 0 0) = true ∧ LayoutOk (crcPhase .w17 true 0 0) ∧
    isDynamicStuff { begun with stuff := { begun.stuff with runLen := 5 } } = true ∧
    (trailer 0).phase = .trailer ∧ LayoutOk (trailer 0) :=
  ⟨by decide, by constructor <;> decide, by decide, rfl, by constructor <;> decide⟩

/-- The boundary: a standard bit of half a sample. -/
theorem witness_RunsEndUnlessAFrameIsFoundAgain :
    (Inv (stateAt begun true) ∧ (stateAt begun true).runnable = true) ∧
    (State.start { Params.initial with spbStd := mkRat 1 2 } []).runnable = true ∧ Memory.wf [] = true ∧
    1 / 2 ≤ ({ Params.initial with spbStd := mkRat 1 2 } : Params).spbStd :=
  ⟨⟨inv_begun, by decide⟩, by decide, rfl, by norm_num [Rat.mkRat_eq_div]⟩

theorem witness_EveryAcceptedRunEnds : (State.start .initial []).runnable = true ∧ Memory.wf [] = true := by decide

end Sys2Proof.Tests
end

/-! PROOFS. Rounding (00_scope.md R12). -/

namespace Sys2Proof.Machine

/-- Settles O17: the floor of `x + 1/2` is `n` exactly when `n ≤ x + 1/2 < n + 1`. -/
theorem roundingIsHalfUp : Obligations.RoundingIsHalfUp := by
  intro x n hx
  have hfloor : 0 ≤ ⌊x + 1 / 2⌋ := Int.floor_nonneg.mpr (by linarith)
  have htoNat : rnd x = n ↔ ⌊x + 1 / 2⌋ = (n : Int) := by rw [rnd_eq]; omega
  rw [htoNat, Int.floor_eq_iff, Int.cast_natCast]
  constructor <;> rintro ⟨hlo, hhi⟩ <;> constructor <;> linarith

end Sys2Proof.Machine

/-! PROOFS. What one bit does to the registers of the frame layout, said once for all roles (10_state.md R20 to R25,
41_frame_fsm.md R83). -/

namespace Sys2Proof.Machine

open Sys2Proof.Safety

/-! ### Operations that leave the layout registers alone -/

/-- `g` has the layout registers of `f`, apart from the stuff run. -/
structure KeepsLayout (f g : Frame) : Prop where
  phase : g.phase = f.phase
  pos : g.pos = f.pos
  flags : g.flags = f.flags
  nbytes : g.acc.nbytes = f.acc.nbytes
  dlcAcc : g.acc.dlcAcc = f.acc.dlcAcc
  data : g.acc.data = f.acc.data
  crcW : g.acc.crcW = f.acc.crcW
  dynEn : g.stuff.dynEn = f.stuff.dynEn

namespace KeepsLayout

theorem refl (f : Frame) : KeepsLayout f f := ⟨rfl, rfl, rfl, rfl, rfl, rfl, rfl, rfl⟩

theorem trans {f g h : Frame} (a : KeepsLayout f g) (b : KeepsLayout g h) : KeepsLayout f h where
  phase := b.phase.trans a.phase
  pos := b.pos.trans a.pos
  flags := b.flags.trans a.flags
  nbytes := b.nbytes.trans a.nbytes
  dlcAcc := b.dlcAcc.trans a.dlcAcc
  data := b.data.trans a.data
  crcW := b.crcW.trans a.crcW
  dynEn := b.dynEn.trans a.dynEn

theorem openField (kind : FieldKind) (index : Option Nat) (value : Nat) (f : Frame) :
    KeepsLayout f (openField kind index value f) := by constructor <;> simp

theorem extendField (value : Nat) (f : Frame) : KeepsLayout f (extendField value f) := by constructor <;> simp

theorem setErrorIf (c : Bool) (e : ErrorFlag) (mark : Notes → Notes) (f : Frame) :
    KeepsLayout f (setErrorIf c e mark f) := by constructor <;> simp

theorem idBit (first b : Bool) (f : Frame) : KeepsLayout f (idBit first b f) := by
  unfold Machine.idBit
  cases first <;> constructor <;> simp

theorem dlcBit (b : Bool) (f : Frame) :
    KeepsLayout { f with acc := { f.acc with dlcAcc := shiftIn f.acc.dlcAcc b } } (dlcBit b f) := by
  unfold Machine.dlcBit
  dsimp only
  split
  · exact .openField ..
  · exact .extendField ..

theorem dataBit (b : Bool) (f : Frame) :
    KeepsLayout { f with pos := { f.pos with dbit := f.pos.dbit + 1 } } (dataBit b f) := by
  unfold Machine.dataBit
  dsimp only
  split <;> constructor <;> simp

theorem crcBit (first b : Bool) (f : Frame) : KeepsLayout f (crcBit first b f) := by
  unfold Machine.crcBit
  cases first <;> constructor <;> simp

theorem stcBit (b : Bool) (f : Frame) : KeepsLayout f (stcBit b f) := by
  unfold Machine.stcBit
  dsimp only
  split <;> constructor <;> simp

theorem crcComplete (w : CrcWidth) (f : Frame) : KeepsLayout (enterTrailer f) (crcComplete w f) := by
  constructor <;> simp [Machine.crcComplete, enterTrailer, stuffCountCheck, crcCheck]

theorem ackBit (b : Bool) (f : Frame) :
    KeepsLayout { f with flags := { f.flags with ack := (ackBit b f).flags.ack } } (ackBit b f) := by
  cases b <;> exact ⟨rfl, rfl, rfl, rfl, rfl, rfl, rfl, rfl⟩

theorem ideExtended (f : Frame) : KeepsLayout { f with flags := { f.flags with rtr := false } } (ideExtended f) := by
  constructor <;> simp [Machine.ideExtended]

/-! Operations that write layout registers write the same ones on frames with one layout. -/

theorem nextHeaderBit {f g : Frame} (h : KeepsLayout f g) (hphase : f.phase = .header) :
    KeepsLayout { f with pos := { f.pos with h := f.pos.h + 1 } } (nextHeaderBit g) := by
  have hg : (g.phase == .header) = true := by rw [h.phase, hphase]; rfl
  rw [Machine.nextHeaderBit, if_pos hg]
  exact { h with pos := by simp only [h.pos] }

theorem nextPayloadBit {f g : Frame} (h : KeepsLayout f g) :
    KeepsLayout (nextPayloadBit f) (nextPayloadBit g) :=
  { h with pos := by simp only [Machine.nextPayloadBit, h.pos] }

theorem nextTrailerBit {f g : Frame} (h : KeepsLayout f g) :
    KeepsLayout (nextTrailerBit f) (nextTrailerBit g) :=
  { h with pos := by simp only [Machine.nextTrailerBit, h.pos] }

theorem enterTrailer {f g : Frame} (h : KeepsLayout f g) : KeepsLayout (enterTrailer f) (enterTrailer g) :=
  { h with phase := rfl, dynEn := rfl }

theorem finishTrailer {f g : Frame} (h : KeepsLayout f g) : KeepsLayout (finishTrailer f) (finishTrailer g) := by
  have ht : g.pos.t = f.pos.t := by rw [h.pos]
  rw [Machine.finishTrailer, Machine.finishTrailer, ht]
  split
  · exact { h with phase := rfl }
  · exact h

theorem crcEntry {f g : Frame} (h : KeepsLayout f g) : KeepsLayout (crcEntry f) (crcEntry g) where
  phase := rfl
  pos := by simp only [Machine.crcEntry, h.pos]
  flags := h.flags
  nbytes := h.nbytes
  dlcAcc := h.dlcAcc
  data := h.data
  crcW := by simp only [Machine.crcEntry, h.flags, h.nbytes]
  dynEn := by simp only [Machine.crcEntry, h.flags, h.dynEn]

theorem headerComplete {f g : Frame} (h : KeepsLayout f g) :
    KeepsLayout (headerComplete f) (headerComplete g) := by
  have hcounted : KeepsLayout { f with acc := { f.acc with nbytes := byteCount f.flags.fdf f.acc.dlcAcc } }
      { g with acc := { g.acc with nbytes := byteCount g.flags.fdf g.acc.dlcAcc } } :=
    { h with nbytes := by simp only [h.flags, h.dlcAcc] }
  unfold Machine.headerComplete
  simp only [h.flags, h.dlcAcc] at hcounted ⊢
  split
  · exact hcounted.crcEntry
  · exact { hcounted with phase := rfl }

/-- The data bytes have the same number, not the same values: `byteAcc` is no layout register. -/
theorem byteComplete {f g : Frame} (h : KeepsLayout f g) :
    KeepsLayout (byteComplete { f with acc := { f.acc with byteAcc := g.acc.byteAcc } }) (byteComplete g) := by
  have hstored : KeepsLayout
      { f with acc := { f.acc with data := f.acc.data ++ [g.acc.byteAcc], byteAcc := 0 } }
      { g with acc := { g.acc with data := g.acc.data ++ [g.acc.byteAcc], byteAcc := 0 } } :=
    { h with data := by simp only [h.data] }
  unfold Machine.byteComplete
  simp only [h.data, h.nbytes] at hstored ⊢
  split
  · exact hstored.crcEntry
  · exact hstored

/-- A frame with the layout registers of a frame of the layout, and a stuff run in range, has the layout. -/
theorem layoutOk {f g : Frame} (h : KeepsLayout f g) (hrun : g.stuff.runLen ≤ 5) (hf : LayoutOk f) : LayoutOk g := by
  obtain ⟨hphase, hpos, hflags, hnbytes, hdlcAcc, hdata, hcrcW, hdynEn⟩ := h
  constructor
  case runRange => exact hrun
  all_goals simp only [hphase, hpos, hflags, hnbytes, hdlcAcc, hdata, hcrcW, hdynEn]
  exacts [hf.notFinished, hf.headerRange, hf.headerKept, hf.ideSeen, hf.fdfSeen, hf.brsSeen, hf.esiSeen,
    hf.noRemoteFd, hf.counted, hf.beforeData, hf.dataRange, hf.beforeCrc, hf.crcSelected, hf.crcClassic, hf.crcFd,
    hf.trailerRange, hf.beforeTrailer, hf.dynamicStuffing]

end KeepsLayout

/-- The field action begins on a frame with other timing, notes and error flags only. -/
theorem beforeField_shape {i : Instr} {f : Frame} {r : RoleRule} (hr : roleRule i f = some r) (s : State) (b : Bool) :
    ∃ timing notes err, beforeField r s b f = { f with timing := timing, notes := notes, err := err } := by
  rw [beforeField_eq]
  rcases samplePointAction_cases hr s.params b with h | ⟨-, -, h⟩ | ⟨-, -, h⟩ <;> rw [h] <;> exact ⟨_, _, _, rfl⟩

/-! ### The flags and the header position -/

/-- The flags agree with the header position (42_header.md R90 to R94): the part of `LayoutOk` that is about flags. -/
structure FlagsOk (flags : FrameFlags) (h : Nat) : Prop where
  ideSeen : flags.ide = true → 14 ≤ h
  fdfSeen : flags.fdf = true → fdfPassed flags.ide ≤ h
  brsSeen : flags.brs = true → flags.fdf = true ∧ brsPassed flags.ide ≤ h
  esiSeen : flags.esi = true → flags.fdf = true
  noRemoteFd : flags.fdf = true → flags.rtr = false

theorem flagsOk_of_layoutOk {f : Frame} (hf : LayoutOk f) : FlagsOk f.flags f.pos.h :=
  ⟨hf.ideSeen, hf.fdfSeen, hf.brsSeen, hf.esiSeen, hf.noRemoteFd⟩

namespace FlagsOk

variable {flags : FrameFlags} {h : Nat}

theorem mono {h' : Nat} (ok : FlagsOk flags h) (hle : h ≤ h') : FlagsOk flags h' where
  ideSeen hide := (ok.ideSeen hide).trans hle
  fdfSeen hfdf := (ok.fdfSeen hfdf).trans hle
  brsSeen hbrs := (ok.brsSeen hbrs).imp_right (·.trans hle)
  esiSeen := ok.esiSeen
  noRemoteFd := ok.noRemoteFd

/-- Below its position the FDF register is 0, and with it BRS and ESI. -/
theorem of_lt_fdfPassed (ok : FlagsOk flags h) (hlt : h < fdfPassed flags.ide) :
    flags.fdf = false ∧ flags.brs = false ∧ flags.esi = false := by
  have hfdf : flags.fdf = false := Bool.eq_false_iff.mpr fun h1 => absurd (ok.fdfSeen h1) (by omega)
  refine ⟨hfdf, Bool.eq_false_iff.mpr fun h1 => ?_, Bool.eq_false_iff.mpr fun h1 => ?_⟩
  · rw [(ok.brsSeen h1).1] at hfdf; cases hfdf
  · rw [ok.esiSeen h1] at hfdf; cases hfdf

theorem fdfPassed_ge (ide : Bool) : 15 ≤ fdfPassed ide := by cases ide <;> decide

/-- The flags after RTR is read: `fdf` is still 0. -/
theorem write_rtr (ok : FlagsOk flags h) (hlt : h < fdfPassed flags.ide) (rtr : Bool) :
    FlagsOk { flags with rtr := rtr } (h + 1) := by
  obtain ⟨hfdf, -, -⟩ := ok.of_lt_fdfPassed hlt
  exact { ok.mono (Nat.le_succ h) with noRemoteFd := fun h1 => by rw [hfdf] at h1; cases h1 }

/-- The flags after IDE is read at position 13. -/
theorem write_ide (ok : FlagsOk flags 13) (ide rtr : Bool) :
    FlagsOk { flags with ide := ide, ideKnown := true, rtr := rtr } 14 := by
  obtain ⟨hfdf, hbrs, hesi⟩ := ok.of_lt_fdfPassed (Nat.lt_of_succ_lt (fdfPassed_ge _))
  constructor <;> simp [hfdf, hbrs, hesi]

/-- The flags after FDF is read. -/
theorem write_fdf (ok : FlagsOk flags h) (hpos : h + 1 = fdfPassed flags.ide) (fdf : Bool) :
    FlagsOk { flags with fdf := fdf, fdfKnown := true, rtr := if fdf then false else flags.rtr } (h + 1) := by
  obtain ⟨-, hbrs, hesi⟩ := ok.of_lt_fdfPassed (by omega)
  exact
    { ideSeen := fun h1 => (ok.ideSeen h1).trans (Nat.le_succ h)
      fdfSeen := fun _ => hpos.ge
      brsSeen := fun h1 => by simp [hbrs] at h1
      esiSeen := fun h1 => by simp [hesi] at h1
      noRemoteFd := fun h1 => if_pos h1 }

/-- The flags after BRS is read. -/
theorem write_brs (ok : FlagsOk flags h) (hfdf : flags.fdf = true) (hpos : h + 1 = brsPassed flags.ide) (brs : Bool) :
    FlagsOk { flags with brs := brs } (h + 1) :=
  { ok.mono (Nat.le_succ h) with brsSeen := fun _ => ⟨hfdf, hpos.ge⟩ }

/-- The flags after ESI is read. -/
theorem write_esi (ok : FlagsOk flags h) (hfdf : flags.fdf = true) (esi : Bool) :
    FlagsOk { flags with esi := esi } (h + 1) :=
  { ok.mono (Nat.le_succ h) with esiSeen := fun _ => hfdf }

end FlagsOk

/-! ### The moves -/

/-- The number of field bits of the CRC phase: the CRC, in an FD frame behind stuff count and parity
(43_data_crc_trailer.md R100 to R103). -/
def crcLength (f : Frame) : Nat :=
  if f.flags.fdf then 4 + (crcSelect true f.acc.nbytes).bits else 15

/-- What the field action of role `i` on a bit of value `b` does to the layout registers of `f`. -/
inductive LayoutMove (i : Instr) (b : Bool) (f g : Frame) : Prop
  /-- A stuff bit moves nothing. -/
  | stuffBit (role : i = .dstuff ∨ i = .fsb) (keeps : KeepsLayout f g)
  /-- A header bit that is not the last; its role may write flags and `dlcAcc`. -/
  | headerBit (flags : FrameFlags) (dlcAcc : BitVec 4) (phase : f.phase = .header)
      (inside : f.pos.h + 1 < headerLength flags.ide flags.fdf) (flagsOk : FlagsOk flags (f.pos.h + 1))
      (brs : flags.brs = if i = .brsF11 ∨ i = .brsF29 then b else f.flags.brs)
      (keeps : KeepsLayout
        { f with
          pos := { f.pos with h := f.pos.h + 1 }, flags := flags, acc := { f.acc with dlcAcc := dlcAcc } } g)
  /-- The last header bit. -/
  | headerEnd (dlcAcc : BitVec 4) (phase : f.phase = .header)
      (last : f.pos.h + 1 = headerLength f.flags.ide f.flags.fdf)
      (keeps : KeepsLayout (headerComplete { f with acc := { f.acc with dlcAcc := dlcAcc } }) g)
  /-- A data bit inside a byte. -/
  | dataBit (phase : f.phase = .data) (inside : f.pos.dbit % 8 ≠ 7)
      (keeps : KeepsLayout { f with pos := { f.pos with dbit := f.pos.dbit + 1 } } g)
  /-- The last bit of a byte. -/
  | byteEnd (byte : Byte) (phase : f.phase = .data) (last : f.pos.dbit % 8 = 7)
      (keeps : KeepsLayout
        (byteComplete
          { f with pos := { f.pos with dbit := f.pos.dbit + 1 }, acc := { f.acc with byteAcc := byte } }) g)
  /-- A bit of the CRC phase that is not the last. -/
  | crcBit (role : i ≠ .dstuff ∧ i ≠ .fsb) (phase : f.phase = .crc) (inside : f.pos.j + 1 < crcLength f)
      (keeps : KeepsLayout (nextPayloadBit f) g)
  /-- The last bit of the CRC phase. -/
  | crcEnd (phase : f.phase = .crc) (last : f.pos.j + 1 = crcLength f)
      (keeps : KeepsLayout (enterTrailer (nextPayloadBit f)) g)
  /-- A trailer bit; the tenth finishes the frame. -/
  | trailerBit (ack : Bool) (phase : f.phase = .trailer) (role : i = .dl1 ↔ f.pos.t = 0)
      (keeps : KeepsLayout (finishTrailer (nextTrailerBit { f with flags := { f.flags with ack := ack } })) g)

/-! ### The move of each role -/

theorem headerLength_ge (ide fdf : Bool) : 19 ≤ headerLength ide fdf := by cases ide <;> cases fdf <;> decide

theorem headerLength_ide_ge (fdf : Bool) : 39 ≤ headerLength true fdf := by cases fdf <;> decide

theorem crcWidth_bits_ge (w : CrcWidth) : 15 ≤ w.bits := by cases w <;> decide

/-- The end of the header leaves it, so the position stays at the last bit. -/
theorem nextHeaderBit_headerComplete (f : Frame) : nextHeaderBit (headerComplete f) = headerComplete f := by
  unfold headerComplete nextHeaderBit
  dsimp only
  split <;> rfl

theorem finishTrailer_of_ne {f : Frame} (h : f.pos.t ≠ 10) : finishTrailer f = f := by simp [finishTrailer, h]

/-- The outcomes of a CRC bit's end. -/
theorem finishCrcBit_ok {last fieldDone : Bool} {f g : Frame} (h : finishCrcBit last f = .ok (g, fieldDone)) :
    (last = false ∧ g = f) ∨ (last = true ∧ ∃ w, g = crcComplete w f) := by
  unfold finishCrcBit fieldOngoing at h
  split at h
  · rename_i hlast
    split at h
    · cases h
    · cases h; exact .inr ⟨hlast, _, rfl⟩
  · rename_i hlast
    cases h; exact .inl ⟨by simpa using hlast, rfl⟩

namespace LayoutMove

variable {i : Instr} {b fieldDone : Bool} {f g : Frame}

/-- A header bit inside the header, from what its role's own action leaves. -/
theorem header (flags : FrameFlags) {dlcAcc : BitVec 4} (hphase : f.phase = .header)
    (hinside : f.pos.h + 1 < headerLength flags.ide flags.fdf) (hflags : FlagsOk flags (f.pos.h + 1))
    (hbrs : flags.brs = if i = .brsF11 ∨ i = .brsF29 then b else f.flags.brs)
    (hkeeps : KeepsLayout { f with flags := flags, acc := { f.acc with dlcAcc := dlcAcc } } g) :
    LayoutMove i b f (nextHeaderBit g) :=
  .headerBit flags dlcAcc hphase hinside hflags hbrs (hkeeps.nextHeaderBit hphase)

/-- A header bit inside the header whose role writes no layout register. -/
theorem headerKept (hf : LayoutOk f) (hphase : f.phase = .header)
    (hinside : f.pos.h + 1 < headerLength f.flags.ide f.flags.fdf) (hbrs : ¬ (i = .brsF11 ∨ i = .brsF29))
    (hkeeps : KeepsLayout f g) : LayoutMove i b f (nextHeaderBit g) :=
  header f.flags hphase hinside ((flagsOk_of_layoutOk hf).mono (Nat.le_succ _)) (by rw [if_neg hbrs]) hkeeps

/-- IDE at position 13 (42_header.md R90). -/
theorem ide (hf : LayoutOk f) (hphase : f.phase = .header) (hpos : f.pos.h = 13)
    (hact : ideRule.fieldAction b f = .ok (g, fieldDone)) : LayoutMove .ide b f g := by
  cases hact
  have hok : FlagsOk f.flags 13 := hpos ▸ flagsOk_of_layoutOk hf
  have hinside : ∀ fdf, f.pos.h + 1 < headerLength b fdf := fun fdf => by
    have := headerLength_ge b fdf; omega
  refine header ({ f.flags with ide := b, ideKnown := true, rtr := if b then false else f.flags.rtr })
    hphase (hinside _) (by rw [hpos]; exact hok.write_ide _ _) (by simp) (dlcAcc := f.acc.dlcAcc) ?_
  cases b with
  | false => exact .refl _
  | true => exact .ideExtended { f with flags := { f.flags with ide := true, ideKnown := true } }

/-- FDF at its position (42_header.md R91). -/
theorem fdf (hf : LayoutOk f) (hphase : f.phase = .header) (hpos : f.pos.h + 1 = fdfPassed f.flags.ide)
    (hrole : ¬ (i = .brsF11 ∨ i = .brsF29)) : LayoutMove i b f (nextHeaderBit (fdfAction b f)) := by
  have hinside : f.pos.h + 1 < headerLength f.flags.ide b := by
    rw [hpos]; cases f.flags.ide <;> cases b <;> decide
  refine header ({ f.flags with fdf := b, fdfKnown := true, rtr := if b then false else f.flags.rtr })
    hphase hinside ((flagsOk_of_layoutOk hf).write_fdf hpos b) (by rw [if_neg hrole]) (dlcAcc := f.acc.dlcAcc) ?_
  cases b <;> exact ⟨rfl, rfl, rfl, rfl, rfl, rfl, rfl, rfl⟩

/-- BRS at its position (42_header.md R93). -/
theorem brs (hf : LayoutOk f) (hphase : f.phase = .header) (hfdf : f.flags.fdf = true)
    (hpos : f.pos.h + 1 = brsPassed f.flags.ide) (hrole : i = .brsF11 ∨ i = .brsF29)
    (hact : brsRule.fieldAction b f = .ok (g, fieldDone)) : LayoutMove i b f g := by
  cases hact
  have hinside : f.pos.h + 1 < headerLength f.flags.ide f.flags.fdf := by
    rw [hpos, hfdf]; cases f.flags.ide <;> decide
  have hflags := (flagsOk_of_layoutOk hf).write_brs hfdf hpos b
  exact header { f.flags with brs := b } hphase hinside hflags (by rw [if_pos hrole]) (dlcAcc := f.acc.dlcAcc) (.refl _)

/-- ESI (42_header.md R94). -/
theorem esi (hf : LayoutOk f) (hphase : f.phase = .header) (hfdf : f.flags.fdf = true)
    (hinside : f.pos.h + 1 < headerLength f.flags.ide f.flags.fdf) (hrole : ¬ (i = .brsF11 ∨ i = .brsF29))
    (hact : esiRule.fieldAction b f = .ok (g, fieldDone)) : LayoutMove i b f g := by
  cases hact
  have hflags := (flagsOk_of_layoutOk hf).write_esi hfdf b
  exact header { f.flags with esi := b } hphase hinside hflags (by rw [if_neg hrole]) (dlcAcc := f.acc.dlcAcc) (.refl _)

/-- The RTR position of either format, before FDF (42_header.md R89, R96). -/
theorem rtr (hf : LayoutOk f) (hphase : f.phase = .header) (hpos : f.pos.h + 1 < fdfPassed f.flags.ide)
    (hrole : ¬ (i = .brsF11 ∨ i = .brsF29)) (prov : Provisional) :
    LayoutMove i b f (nextHeaderBit { f with prov := prov, flags := { f.flags with rtr := b } }) := by
  have hinside : f.pos.h + 1 < headerLength f.flags.ide f.flags.fdf := by
    refine hpos.trans ?_
    cases f.flags.ide <;> cases f.flags.fdf <;> decide
  have hflags := (flagsOk_of_layoutOk hf).write_rtr (Nat.lt_of_succ_lt hpos) b
  exact header { f.flags with rtr := b } hphase hinside hflags (by rw [if_neg hrole])
    (dlcAcc := f.acc.dlcAcc) ⟨rfl, rfl, rfl, rfl, rfl, rfl, rfl, rfl⟩

/-- A DLC bit (42_header.md R97). -/
theorem dlc (hf : LayoutOk f) (hphase : f.phase = .header) (hrole : ¬ (i = .brsF11 ∨ i = .brsF29))
    (hact : dlcRule.fieldAction b f = .ok (g, fieldDone)) : LayoutMove i b f g := by
  have hrange := hf.headerRange hphase
  have hlen := headerLength_ge f.flags.ide f.flags.fdf
  rw [dlcRule_fieldAction] at hact
  split at hact <;> rename_i hnumber <;> cases hact <;> simp only [dlcNumber, beq_iff_eq] at hnumber
  · rw [nextHeaderBit_headerComplete]
    exact .headerEnd _ hphase (by omega) (KeepsLayout.dlcBit b f).headerComplete
  · exact header f.flags hphase (by omega) ((flagsOk_of_layoutOk hf).mono (Nat.le_succ _)) (by rw [if_neg hrole])
      (KeepsLayout.dlcBit b f)

/-- A data bit (43_data_crc_trailer.md R98). -/
theorem data (hphase : f.phase = .data) (hact : dataRule.fieldAction b f = .ok (g, fieldDone)) :
    LayoutMove i b f g := by
  rw [dataRule_fieldAction] at hact
  split at hact <;> rename_i hlast <;> cases hact <;> simp only [beq_iff_eq] at hlast
  · exact .byteEnd _ hphase hlast (KeepsLayout.dataBit b f).byteComplete
  · exact .dataBit hphase hlast (.dataBit b f)

/-- A bit of the received CRC (43_data_crc_trailer.md R100, R103). -/
theorem crc {first last : Bool} (hphase : f.phase = .crc) (hrole : i ≠ .dstuff ∧ i ≠ .fsb)
    (hrange : f.pos.j < crcLength f) (hlast : last = true ↔ f.pos.j + 1 = crcLength f)
    (hact : finishCrcBit last (nextPayloadBit (Machine.crcBit first b f)) = .ok (g, fieldDone)) :
    LayoutMove i b f g := by
  have hkeeps := (KeepsLayout.crcBit first b f).nextPayloadBit
  rcases finishCrcBit_ok hact with ⟨h, rfl⟩ | ⟨h, w, rfl⟩
  · have hne : ¬ f.pos.j + 1 = crcLength f := fun h1 => by rw [hlast.mpr h1] at h; cases h
    exact .crcBit hrole hphase (by omega) hkeeps
  · exact .crcEnd hphase (hlast.mp h) (hkeeps.enterTrailer.trans (.crcComplete w _))

/-- A trailer bit before the last (43_data_crc_trailer.md R105 to R107). -/
theorem trailer {ack : Bool} (hphase : f.phase = .trailer) (ht : f.pos.t ≤ 2) (hrole : i = .dl1 ↔ f.pos.t = 0)
    (hkeeps : KeepsLayout { f with flags := { f.flags with ack := ack } } g) :
    LayoutMove i b f (nextTrailerBit g) := by
  refine .trailerBit ack hphase hrole ?_
  rw [finishTrailer_of_ne (by simp [nextTrailerBit]; omega)]
  exact hkeeps.nextTrailerBit

end LayoutMove

/-- The CRC phase in a frame of the layout is not beyond its length. -/
theorem lt_crcLength {f : Frame} (hf : LayoutOk f) (hphase : f.phase = .crc) : f.pos.j < crcLength f := by
  unfold crcLength
  split
  · rename_i hfdf; exact (hf.crcFd hphase hfdf).1
  · rename_i hfdf; exact (hf.crcClassic hphase (by simpa using hfdf)).1

/-- Every role moves the layout registers by one of the moves. -/
theorem fieldAction_layoutMove {i : Instr} {f0 f g : Frame} {r : RoleRule} {b fieldDone : Bool}
    (hr : roleRule i f0 = some r) (hact : r.fieldAction b f = .ok (g, fieldDone)) (hacc : f0.acc = f.acc)
    (hf : LayoutOk f) (hsel : Selected f i) : LayoutMove i b f g := by
  have hlen := headerLength_ge f.flags.ide f.flags.fdf
  cases i
  case dstuff =>
    cases hr; cases hact
    have hcount : KeepsLayout f { f with stuff := { f.stuff with dynCount := f.stuff.dynCount + 1 } } :=
      ⟨rfl, rfl, rfl, rfl, rfl, rfl, rfl, rfl⟩
    exact .stuffBit (.inl rfl) (hcount.trans (.setErrorIf ..))
  case fsb => cases hr; cases hact; exact .stuffBit (.inr rfl) (.setErrorIf ..)
  case sof =>
    obtain ⟨hphase, hpos⟩ := hsel
    cases hr; cases hact
    exact .headerKept hf hphase (by omega) (by simp) (.refl f)
  case id =>
    obtain ⟨hphase, -, hpos⟩ := hsel
    cases hr; cases hact
    exact .headerKept hf hphase (by omega) (by simp) (.idBit ..)
  case b12 =>
    obtain ⟨hphase, hpos⟩ := hsel
    cases hr; cases hact
    exact .rtr hf hphase (by have := FlagsOk.fdfPassed_ge f.flags.ide; omega) (by simp) _
  case ide =>
    obtain ⟨hphase, hpos⟩ := hsel
    cases hr
    exact .ide hf hphase hpos hact
  case fdfB =>
    obtain ⟨hphase, hide, hpos⟩ := hsel
    cases hr; cases hact
    exact .fdf hf hphase (by rw [hide, hpos]; rfl) (by simp)
  case fdfE =>
    obtain ⟨hphase, hide, hpos⟩ := hsel
    cases hr; cases hact
    exact .fdf hf hphase (by rw [hide, hpos]; rfl) (by simp)
  case resF11 =>
    obtain ⟨hphase, hide, hfdf, hpos⟩ := hsel
    cases hr; cases hact
    exact .headerKept hf hphase (by omega) (by simp) (.refl f)
  case resE =>
    obtain ⟨hphase, hide, hpos⟩ := hsel
    cases hr; cases hact
    exact .headerKept hf hphase (by rw [hide, hpos]; exact Nat.lt_of_lt_of_le (by decide) (headerLength_ide_ge _))
      (by simp) (.refl f)
  case brsF11 | brsF29 =>
    obtain ⟨hphase, hide, hfdf, hpos⟩ := hsel
    cases hr
    exact .brs hf hphase hfdf (by rw [hide, hpos]; rfl) (by simp) hact
  case esiF11 | esiF29 =>
    obtain ⟨hphase, hide, hfdf, hpos⟩ := hsel
    cases hr
    exact .esi hf hphase hfdf (by rw [hide, hfdf, hpos]; decide) (by simp) hact
  case idx =>
    obtain ⟨hphase, hide, -, hpos⟩ := hsel
    cases hr; cases hact
    exact .headerKept hf hphase (by rw [hide]; have := headerLength_ide_ge f.flags.fdf; omega) (by simp) (.idBit ..)
  case b32 =>
    obtain ⟨hphase, hide, hpos⟩ := hsel
    cases hr; cases hact
    exact .rtr hf hphase (by rw [hide, hpos]; decide) (by simp) _
  case dlcC11 | dlcF11 | dlcC29 | dlcF29 => cases hr; exact .dlc hf hsel.1 (by simp) hact
  case data => cases hr; exact .data hsel hact
  case crcC =>
    obtain ⟨hphase, hfdf, hj⟩ := hsel
    cases hr
    exact .crc hphase (by simp) (lt_crcLength hf hphase) (by simp [crcLength, hfdf]) hact
  case crcFd =>
    obtain ⟨hphase, hfdf, hj, -⟩ := hsel
    have hwidth := hf.crcSelected (.inl hphase)
    simp only [roleRule, Option.map_eq_some_iff, hacc, hwidth, Option.some.injEq] at hr
    obtain ⟨w, hw, rfl⟩ := hr
    have hbits := crcWidth_bits_ge w
    rw [crcFdRule_fieldAction] at hact
    refine .crc hphase (by simp) (lt_crcLength hf hphase) ?_ hact
    rw [crcLength, if_pos hfdf, show crcSelect true f.acc.nbytes = w from hfdf ▸ hw]
    simp only [crcFdNumber, beq_iff_eq]
    omega
  case stc =>
    obtain ⟨hphase, hfdf, hj⟩ := hsel
    have hbits := crcWidth_bits_ge (crcSelect true f.acc.nbytes)
    cases hr; cases hact
    have hrecord : KeepsLayout f (recordPayload b f) := ⟨rfl, rfl, rfl, rfl, rfl, rfl, rfl, rfl⟩
    exact .crcBit (by simp) hphase (by rw [crcLength, if_pos hfdf]; omega)
      (hrecord.trans (.stcBit b _)).nextPayloadBit
  case par =>
    obtain ⟨hphase, hfdf, hj⟩ := hsel
    have hbits := crcWidth_bits_ge (crcSelect true f.acc.nbytes)
    cases hr; cases hact
    have hrecord : KeepsLayout f { recordPayload b f with acc := { f.acc with par := b } } :=
      ⟨rfl, rfl, rfl, rfl, rfl, rfl, rfl, rfl⟩
    exact .crcBit (by simp) hphase (by rw [crcLength, if_pos hfdf]; omega)
      (hrecord.trans (.extendField ..)).nextPayloadBit
  case dl1 =>
    obtain ⟨hphase, ht⟩ := hsel
    cases hr; cases hact
    exact .trailer (ack := f.flags.ack) hphase (by omega) (by simp [ht]) (.setErrorIf ..)
  case ack =>
    obtain ⟨hphase, ht⟩ := hsel
    cases hr; cases hact
    exact .trailer hphase (by omega) (by simp [ht]) (.ackBit b f)
  case dl2 =>
    obtain ⟨hphase, ht⟩ := hsel
    cases hr; cases hact
    exact .trailer (ack := f.flags.ack) hphase (by omega) (by simp [ht]) (.setErrorIf ..)
  case eof =>
    obtain ⟨hphase, ht, -⟩ := hsel
    cases hr; cases hact
    exact .trailerBit f.flags.ack hphase (by simp; omega) (KeepsLayout.setErrorIf ..).nextTrailerBit.finishTrailer

/-! ### The layout after a bit -/

/-- The counter `k` after a bit (41_frame_fsm.md R81): `f` is the frame before the field action, `g` the one after. -/
def nextK (f g : Frame) : Nat := if f.phase == .crc && g.flags.fdf then g.pos.k + 1 else g.pos.k

theorem nextK_of_ne_crc {f : Frame} (g : Frame) (h : f.phase ≠ .crc) : nextK f g = g.pos.k := by simp [nextK, h]

theorem stuffAfterBit_dynEn (dynWas : Bool) (cls : BitClass) (b : Bool) (st : StuffState) :
    (stuffAfterBit dynWas cls b st).dynEn = st.dynEn := by
  have hrun : (runUpdate cls b st).dynEn = st.dynEn := by unfold runUpdate; split <;> rfl
  unfold stuffAfterBit
  cases dynWas
  · rfl
  · exact hrun

/-- The bookkeeping of a bit moves `k` and no other layout register. -/
theorem KeepsLayout.account {f e g : Frame} (h : KeepsLayout e g) (cls : BitClass) (b : Bool) :
    KeepsLayout { e with pos := { e.pos with k := nextK f e } } (account f cls b g) where
  phase := h.phase
  pos := by simp only [Machine.account, nextK, h.pos, h.flags]
  flags := h.flags
  nbytes := h.nbytes
  dlcAcc := h.dlcAcc
  data := h.data
  crcW := h.crcW
  dynEn := (stuffAfterBit_dynEn ..).trans h.dynEn

theorem KeepsLayout.account_of_ne_crc {f e g : Frame} (h : KeepsLayout e g) (cls : BitClass) (b : Bool)
    (hphase : f.phase ≠ .crc) : KeepsLayout e (Machine.account f cls b g) := by
  have hk := h.account (f := f) cls b
  rwa [nextK_of_ne_crc _ hphase] at hk

/-- A run of five is broken by its stuff bit, so no run gets longer (44_stuffing.md R109, R111). -/
theorem account_runLen_le {f g : Frame} {cls : BitClass} (b : Bool) (hf : f.stuff.runLen ≤ 5)
    (hg : g.stuff.runLen = f.stuff.runLen) (hcls : cls = .dstuff ∨ isDynamicStuff f = false) :
    (account f cls b g).stuff.runLen ≤ 5 := by
  simp only [account, stuffAfterBit, runUpdate]
  split
  · rename_i hdyn
    split
    · exact (by decide : 1 ≤ 5)
    · rename_i hrun
      rcases hcls with rfl | hno
      · simp at hrun
      · have hne : f.stuff.runLen ≠ 5 := by simpa [isDynamicStuff, hdyn] using hno
        simp only [hg]
        omega
  · exact hg ▸ hf

section

variable {f : Frame} (hf : LayoutOk f)

include hf

theorem dynEn_of_beforeCrc (h : f.phase = .header ∨ f.phase = .data) : f.stuff.dynEn = true :=
  hf.dynamicStuffing.mpr (h.imp_right .inl)

/-- A dynamic stuff bit, or a fixed one at its position. -/
theorem layoutOk_stuffBit (hk : f.phase = .crc → f.flags.fdf = true → f.pos.k % 5 = 0) :
    LayoutOk { f with pos := { f.pos with k := nextK f f } } :=
  { hf with
    beforeCrc := fun h => by
      rw [nextK_of_ne_crc f (by rcases h with h | h <;> exact fun h1 => by rw [h1] at h; cases h)]
      exact hf.beforeCrc h
    crcClassic := fun h hfdf => by
      rw [show nextK f f = f.pos.k by simp_all [nextK]]
      exact hf.crcClassic h hfdf
    crcFd := fun h hfdf => by
      obtain ⟨hj, hfixed⟩ := hf.crcFd h hfdf
      have hmod := hk h hfdf
      rw [show nextK f f = f.pos.k + 1 by simp_all [nextK]]
      exact ⟨hj, by show f.pos.j + (f.pos.k + 1 + 4) / 5 = f.pos.k + 1; omega⟩ }

theorem layoutOk_headerBit {flags : FrameFlags} (dlcAcc : BitVec 4) (hphase : f.phase = .header)
    (hinside : f.pos.h + 1 < headerLength flags.ide flags.fdf) (hflags : FlagsOk flags (f.pos.h + 1)) :
    LayoutOk
      { f with
        pos := { f.pos with h := f.pos.h + 1 }, flags := flags, acc := { f.acc with dlcAcc := dlcAcc } } :=
  { hf with
    headerRange := fun _ => hinside
    headerKept := fun h => absurd hphase h
    ideSeen := hflags.ideSeen
    fdfSeen := hflags.fdfSeen
    brsSeen := hflags.brsSeen
    esiSeen := hflags.esiSeen
    noRemoteFd := hflags.noRemoteFd
    counted := fun h => absurd hphase h
    dataRange := fun h => by rw [hphase] at h; cases h
    crcSelected := fun h => by rw [hphase] at h; simp at h
    crcClassic := fun h => by rw [hphase] at h; cases h
    crcFd := fun h => by rw [hphase] at h; cases h
    dynamicStuffing :=
      have hdyn := dynEn_of_beforeCrc hf (.inl hphase)
      ⟨fun _ => .inl hphase, fun _ => hdyn⟩ }

/-- CRC-phase entry from the end of the header or of the data (43_data_crc_trailer.md R99). -/
theorem layoutOk_crcEntry {dbit : Nat} {acc : Accumulators} (hphase : f.phase = .header ∨ f.phase = .data)
    (hlast : f.pos.h = headerLength f.flags.ide f.flags.fdf - 1)
    (hcounted : acc.nbytes = byteCount f.flags.fdf acc.dlcAcc) :
    LayoutOk (crcEntry { f with pos := { f.pos with dbit := dbit }, acc := acc }) where
  notFinished := by simp [crcEntry]
  headerRange h := by simp [crcEntry] at h
  headerKept _ := hlast
  ideSeen := hf.ideSeen
  fdfSeen := hf.fdfSeen
  brsSeen := hf.brsSeen
  esiSeen := hf.esiSeen
  noRemoteFd := hf.noRemoteFd
  counted _ := hcounted
  beforeData h := by simp [crcEntry] at h
  dataRange h := by simp [crcEntry] at h
  beforeCrc h := by simp [crcEntry] at h
  crcSelected _ := rfl
  crcClassic _ _ := ⟨Nat.zero_lt_succ _, rfl⟩
  crcFd _ _ := ⟨Nat.add_pos_left (Nat.zero_lt_succ _) _, by simp [crcEntry]⟩
  trailerRange h := by simp [crcEntry] at h
  beforeTrailer _ := hf.beforeTrailer fun h => by rw [h] at hphase; simp at hphase
  dynamicStuffing := by
    have hdyn := dynEn_of_beforeCrc hf hphase
    cases hfdf : f.flags.fdf <;> simp [crcEntry, hfdf, hdyn]
  runRange := hf.runRange

/-- The data phase is entered from the end of the header (42_header.md R97). -/
theorem layoutOk_dataEntry {acc : Accumulators} (hphase : f.phase = .header)
    (hlast : f.pos.h = headerLength f.flags.ide f.flags.fdf - 1)
    (hcounted : acc.nbytes = byteCount f.flags.fdf acc.dlcAcc) (hbytes : acc.nbytes ≠ 0)
    (hrtr : f.flags.rtr = false) (hdata : acc.data = f.acc.data) (hcrcW : acc.crcW = f.acc.crcW) :
    LayoutOk { f with acc := acc, phase := .data } := by
  obtain ⟨hdbit, hempty⟩ := hf.beforeData hphase
  obtain ⟨hj, hk, hunselected⟩ := hf.beforeCrc (.inl hphase)
  have hdyn := dynEn_of_beforeCrc hf (.inl hphase)
  exact
    { hf with
      notFinished := by simp
      headerRange := fun h => by cases h
      headerKept := fun _ => hlast
      counted := fun _ => hcounted
      beforeData := fun h => by cases h
      dataRange := fun _ => by
        refine ⟨?_, ?_, hrtr⟩
        · show f.pos.dbit < 8 * acc.nbytes; omega
        · show acc.data.length = f.pos.dbit / 8; rw [hdata, hempty, hdbit]; rfl
      beforeCrc := fun _ => ⟨hj, hk, hcrcW.trans hunselected⟩
      crcSelected := fun h => by simp at h
      crcClassic := fun h => by cases h
      crcFd := fun h => by cases h
      trailerRange := fun h => by cases h
      beforeTrailer := fun _ => hf.beforeTrailer (by simp [hphase])
      dynamicStuffing := ⟨fun _ => .inr (.inl rfl), fun _ => hdyn⟩ }

/-- The end of the header (42_header.md R97). -/
theorem layoutOk_headerEnd (dlcAcc : BitVec 4) (hphase : f.phase = .header)
    (hlast : f.pos.h + 1 = headerLength f.flags.ide f.flags.fdf) :
    LayoutOk (headerComplete { f with acc := { f.acc with dlcAcc := dlcAcc } }) := by
  by_cases hcrc : byteCount f.flags.fdf dlcAcc = 0 ∨ f.flags.rtr = true
  · rw [headerComplete_crc hcrc]
    exact layoutOk_crcEntry hf (.inl hphase) (by omega) rfl
  · simp only [not_or, Bool.not_eq_true] at hcrc
    obtain ⟨hbytes, hrtr⟩ := hcrc
    rw [headerComplete_data (f := { f with acc := { f.acc with dlcAcc := dlcAcc } }) hbytes hrtr]
    exact layoutOk_dataEntry hf hphase (by omega) rfl hbytes hrtr rfl rfl

theorem layoutOk_dataBit (hphase : f.phase = .data) (hinside : f.pos.dbit % 8 ≠ 7) :
    LayoutOk { f with pos := { f.pos with dbit := f.pos.dbit + 1 } } := by
  obtain ⟨hdbit, hlength, hrtr⟩ := hf.dataRange hphase
  exact
    { hf with
      beforeData := fun h => by rw [hphase] at h; cases h
      dataRange := fun _ => by
        refine ⟨?_, ?_, hrtr⟩
        · show f.pos.dbit + 1 < 8 * f.acc.nbytes; omega
        · show f.acc.data.length = (f.pos.dbit + 1) / 8; omega }

/-- The end of a data byte (43_data_crc_trailer.md R98). -/
theorem layoutOk_byteEnd (byte : Byte) (hphase : f.phase = .data) (hlast : f.pos.dbit % 8 = 7) :
    LayoutOk
      (byteComplete
        { f with pos := { f.pos with dbit := f.pos.dbit + 1 }, acc := { f.acc with byteAcc := byte } }) := by
  obtain ⟨hdbit, hlength, hrtr⟩ := hf.dataRange hphase
  have hleft : f.phase ≠ .header := by simp [hphase]
  unfold byteComplete
  dsimp only
  split
  · exact layoutOk_crcEntry hf (.inr hphase) (hf.headerKept hleft) (hf.counted hleft)
  · rename_i hmore
    have hne : f.acc.data.length + 1 ≠ f.acc.nbytes := by simpa using hmore
    exact
      { hf with
        beforeData := fun h => absurd h hleft
        dataRange := fun _ => by
          refine ⟨?_, ?_, hrtr⟩
          · show f.pos.dbit + 1 < 8 * f.acc.nbytes; omega
          · show (f.acc.data ++ [byte]).length = (f.pos.dbit + 1) / 8; rw [List.length_append]; simp; omega }

/-- A bit of the CRC phase, at no fixed stuff position. -/
theorem layoutOk_crcBit (hphase : f.phase = .crc) (hinside : f.pos.j + 1 < crcLength f)
    (hfield : isFixedStuff f = false) :
    LayoutOk { nextPayloadBit f with pos := { (nextPayloadBit f).pos with k := nextK f (nextPayloadBit f) } } :=
  { hf with
    beforeCrc := fun h => by simp [nextPayloadBit, hphase] at h
    crcClassic := fun _ hfdf => by
      have hfdf : f.flags.fdf = false := hfdf
      obtain ⟨-, hk⟩ := hf.crcClassic hphase hfdf
      rw [crcLength, if_neg (by simp [hfdf])] at hinside
      exact ⟨hinside, by simpa [nextK, nextPayloadBit, hfdf] using hk⟩
    crcFd := fun _ hfdf => by
      have hfdf : f.flags.fdf = true := hfdf
      obtain ⟨-, hk⟩ := hf.crcFd hphase hfdf
      have hmod : f.pos.k % 5 ≠ 0 := by simpa [isFixedStuff, hphase, hfdf] using hfield
      rw [crcLength, if_pos hfdf] at hinside
      have hnext : nextK f (nextPayloadBit f) = f.pos.k + 1 := by simp [nextK, nextPayloadBit, hphase, hfdf]
      rw [hnext]
      exact ⟨hinside, by show f.pos.j + 1 + (f.pos.k + 1 + 4) / 5 = f.pos.k + 1; omega⟩ }

/-- The end of the CRC phase (43_data_crc_trailer.md R104). -/
theorem layoutOk_crcEnd (k : Nat) (hphase : f.phase = .crc) :
    LayoutOk { enterTrailer (nextPayloadBit f) with pos := { (nextPayloadBit f).pos with k := k } } :=
  { hf with
    notFinished := by simp [enterTrailer]
    headerRange := fun h => by cases h
    headerKept := fun _ => hf.headerKept (by simp [hphase])
    counted := fun _ => hf.counted (by simp [hphase])
    beforeData := fun h => by cases h
    dataRange := fun h => by cases h
    beforeCrc := fun h => by simp [enterTrailer] at h
    crcSelected := fun _ => hf.crcSelected (.inl hphase)
    crcClassic := fun h => by cases h
    crcFd := fun h => by cases h
    trailerRange := fun _ => by
      have ht := hf.beforeTrailer (by simp [hphase])
      show f.pos.t < 10; omega
    beforeTrailer := fun h => absurd rfl h
    dynamicStuffing := by simp [enterTrailer] }

theorem layoutOk_trailerBit (ack : Bool) (hphase : f.phase = .trailer) (hinside : f.pos.t + 1 ≠ 10) :
    LayoutOk (nextTrailerBit { f with flags := { f.flags with ack := ack } }) :=
  { hf with
    trailerRange := fun _ => by
      have ht := hf.trailerRange hphase
      show f.pos.t + 1 < 10; omega
    beforeTrailer := fun h => absurd hphase h }

end

/-- The tenth trailer bit finishes the frame, and no other does. -/
theorem finishTrailer_phase (f : Frame) : (finishTrailer f).phase = if f.pos.t = 10 then .finished else f.phase := by
  unfold finishTrailer
  by_cases h : f.pos.t = 10 <;> simp [h]

/-- A bit that does not finish the frame keeps the layout. -/
theorem LayoutMove.layoutOk {i : Instr} {b : Bool} {f g : Frame} {cls : BitClass} (hmove : LayoutMove i b f g)
    (hf : LayoutOk f) (hsel : Selected f i)
    (hclass : i ≠ .dstuff → isDynamicStuff f = false ∧ (i ≠ .fsb → isFixedStuff f = false))
    (hrun : (account f cls b g).stuff.runLen ≤ 5) (hgoes : g.phase ≠ .finished) : LayoutOk (account f cls b g) := by
  cases hmove with
  | stuffBit role keeps =>
    refine (keeps.account cls b).layoutOk hrun (layoutOk_stuffBit hf fun hphase hfdf => ?_)
    rcases role with rfl | rfl
    · have hdyn := hf.dynamicStuffing.mp hsel.1
      simp [hphase, hfdf] at hdyn
    · exact hsel.2.2
  | headerBit flags dlcAcc phase inside flagsOk brs keeps =>
    exact (keeps.account_of_ne_crc cls b (by simp [phase])).layoutOk hrun
      (layoutOk_headerBit hf dlcAcc phase inside flagsOk)
  | headerEnd dlcAcc phase last keeps =>
    exact (keeps.account_of_ne_crc cls b (by simp [phase])).layoutOk hrun (layoutOk_headerEnd hf dlcAcc phase last)
  | dataBit phase inside keeps =>
    exact (keeps.account_of_ne_crc cls b (by simp [phase])).layoutOk hrun (layoutOk_dataBit hf phase inside)
  | byteEnd byte phase last keeps =>
    exact (keeps.account_of_ne_crc cls b (by simp [phase])).layoutOk hrun (layoutOk_byteEnd hf byte phase last)
  | crcBit role phase inside keeps =>
    exact (keeps.account cls b).layoutOk hrun (layoutOk_crcBit hf phase inside ((hclass role.1).2 role.2))
  | crcEnd phase last keeps => exact (keeps.account cls b).layoutOk hrun (layoutOk_crcEnd hf _ phase)
  | trailerBit ack phase role keeps =>
    have hinside : f.pos.t + 1 ≠ 10 := fun h => hgoes (keeps.phase.trans ((finishTrailer_phase _).trans (if_pos h)))
    rw [finishTrailer_of_ne hinside] at keeps
    exact (keeps.account_of_ne_crc cls b (by simp [phase])).layoutOk hrun (layoutOk_trailerBit hf ack phase hinside)

/-! ### The rate after a bit -/

/-- The registers that the active rate depends on, after a bit that does not finish the frame. -/
structure RateMove (i : Instr) (b : Bool) (f g : Frame) : Prop where
  brs : g.flags.brs = if i = .brsF11 ∨ i = .brsF29 then b else f.flags.brs
  pastDl1 : g.phase = .trailer ∧ 1 ≤ g.pos.t ↔ i = .dl1 ∨ (f.phase = .trailer ∧ 1 ≤ f.pos.t)
  atAck : g.phase = .trailer ∧ g.pos.t = 1 ↔ i = .dl1

/-- A bit that begins and ends outside the trailer, or enters it. -/
theorem RateMove.before {i : Instr} {b : Bool} {f g : Frame}
    (hbrs : g.flags.brs = if i = .brsF11 ∨ i = .brsF29 then b else f.flags.brs) (hdl1 : i ≠ .dl1)
    (hf : f.phase ≠ .trailer) (hg : g.phase = .trailer → g.pos.t = 0) : RateMove i b f g where
  brs := hbrs
  pastDl1 := by simp only [hdl1, hf, false_and, or_false, iff_false]; rintro ⟨h, ht⟩; have := hg h; omega
  atAck := by simp only [hdl1, iff_false]; rintro ⟨h, ht⟩; have := hg h; omega

theorem headerComplete_phase_ne_trailer (f : Frame) : (headerComplete f).phase ≠ .trailer := by
  unfold headerComplete; dsimp only; split <;> simp [crcEntry]

theorem headerComplete_flags (f : Frame) : (headerComplete f).flags = f.flags := by
  unfold headerComplete; dsimp only; split <;> rfl

theorem byteComplete_phase_ne_trailer {f : Frame} (h : f.phase = .data) : (byteComplete f).phase ≠ .trailer := by
  unfold byteComplete; dsimp only; split <;> simp [crcEntry, h]

theorem byteComplete_flags (f : Frame) : (byteComplete f).flags = f.flags := by
  unfold byteComplete; dsimp only; split <;> rfl

/-- DL1 runs in the trailer. -/
theorem Selected.ne_dl1 {f : Frame} {i : Instr} (hsel : Selected f i) (hphase : f.phase ≠ .trailer) : i ≠ .dl1 := by
  rintro rfl; exact hphase hsel.1

/-- BRS runs in the header. -/
theorem Selected.not_brs {f : Frame} {i : Instr} (hsel : Selected f i) (hphase : f.phase ≠ .header) :
    ¬ (i = .brsF11 ∨ i = .brsF29) := by
  rintro (rfl | rfl) <;> exact hphase hsel.1

/-- A stuff bit is no trailer bit. -/
theorem stuffBit_phase_ne_trailer {f : Frame} {i : Instr} (hf : LayoutOk f) (hsel : Selected f i)
    (hi : i = .dstuff ∨ i = .fsb) : f.phase ≠ .trailer := by
  intro hphase
  rcases hi with rfl | rfl
  · have hdyn := hf.dynamicStuffing.mp hsel.1
    simp [hphase] at hdyn
  · exact absurd (hphase.symm.trans hsel.1) (by simp)

theorem LayoutMove.rateMove {i : Instr} {b : Bool} {f g : Frame} (hmove : LayoutMove i b f g) (hf : LayoutOk f)
    (hsel : Selected f i) (hgoes : g.phase ≠ .finished) : RateMove i b f g := by
  cases hmove with
  | stuffBit role keeps =>
    have hphase := stuffBit_phase_ne_trailer hf hsel role
    refine .before ?_ (hsel.ne_dl1 hphase) hphase fun h => absurd (keeps.phase.symm.trans h) hphase
    rw [keeps.flags, if_neg (by rcases role with rfl | rfl <;> simp)]
  | headerBit flags dlcAcc phase inside flagsOk brs keeps =>
    have hphase : f.phase ≠ .trailer := by simp [phase]
    exact .before (by rw [keeps.flags]; exact brs) (hsel.ne_dl1 hphase) hphase
      fun h => absurd (keeps.phase.symm.trans h) hphase
  | headerEnd dlcAcc phase last keeps =>
    have hphase : f.phase ≠ .trailer := by simp [phase]
    refine .before ?_ (hsel.ne_dl1 hphase) hphase fun h =>
      absurd (keeps.phase.symm.trans h) (headerComplete_phase_ne_trailer _)
    rw [keeps.flags, headerComplete_flags, if_neg]
    rintro (rfl | rfl) <;>
    · obtain ⟨-, hide, hfdf, hpos⟩ := hsel
      rw [hide, hfdf, hpos] at last
      cases last
  | dataBit phase inside keeps =>
    have hphase : f.phase ≠ .trailer := by simp [phase]
    refine .before ?_ (hsel.ne_dl1 hphase) hphase fun h => absurd (keeps.phase.symm.trans h) hphase
    rw [keeps.flags, if_neg (hsel.not_brs (by simp [phase]))]
  | byteEnd byte phase last keeps =>
    have hphase : f.phase ≠ .trailer := by simp [phase]
    refine .before ?_ (hsel.ne_dl1 hphase) hphase fun h =>
      absurd (keeps.phase.symm.trans h) (byteComplete_phase_ne_trailer phase)
    rw [keeps.flags, byteComplete_flags, if_neg (hsel.not_brs (by simp [phase]))]
  | crcBit role phase inside keeps =>
    have hphase : f.phase ≠ .trailer := by simp [phase]
    refine .before ?_ (hsel.ne_dl1 hphase) hphase fun h => absurd (keeps.phase.symm.trans h) hphase
    rw [keeps.flags, if_neg (hsel.not_brs (by simp [phase]))]
    rfl
  | crcEnd phase last keeps =>
    have hphase : f.phase ≠ .trailer := by simp [phase]
    refine .before ?_ (hsel.ne_dl1 hphase) hphase fun _ => ?_
    · rw [keeps.flags, if_neg (hsel.not_brs (by simp [phase]))]
      rfl
    · rw [keeps.pos]; exact hf.beforeTrailer hphase
  | trailerBit ack phase role keeps =>
    have hinside : f.pos.t + 1 ≠ 10 := fun h => hgoes (keeps.phase.trans ((finishTrailer_phase _).trans (if_pos h)))
    rw [finishTrailer_of_ne hinside] at keeps
    have hphase : g.phase = .trailer := keeps.phase.trans phase
    have ht : g.pos.t = f.pos.t + 1 := by rw [keeps.pos]; rfl
    refine ⟨?_, ?_, ?_⟩
    · rw [keeps.flags, if_neg (hsel.not_brs (by simp [phase]))]
      rfl
    · simp only [hphase, phase, ht, role, true_and]; omega
    · simp only [hphase, ht, role, true_and]; omega

/-- The sample-point action of each role (41_frame_fsm.md R80, 42_header.md R93, 43_data_crc_trailer.md R105). -/
theorem samplePointAction_eq {i : Instr} {f : Frame} {r : RoleRule} (hr : roleRule i f = some r) (p : Params)
    (b : Bool) :
    r.samplePointAction p b f =
      if i = .brsF11 ∨ i = .brsF29 then (if b then switchRate p true f else f)
      else if i = .dl1 then (if f.flags.brs then switchRate p false f else f)
      else f := by
  cases i
  case crcFd =>
    simp only [roleRule, Option.map_eq_some_iff] at hr
    obtain ⟨w, -, rfl⟩ := hr
    rfl
  all_goals cases hr; rfl

/-- BRS is read once: before it the register is 0. -/
theorem brs_false_before {i : Instr} {f : Frame} (hf : LayoutOk f) (hsel : Selected f i)
    (hi : i = .brsF11 ∨ i = .brsF29) : f.flags.brs = false := by
  refine Bool.eq_false_iff.mpr fun hbrs => ?_
  have hpos := (hf.brsSeen hbrs).2
  rcases hi with rfl | rfl <;>
  · obtain ⟨-, hide, -, hh⟩ := hsel
    rw [hide, hh] at hpos
    exact absurd hpos (by decide)

/-- A bit that does not finish the frame keeps the rate in step with the frame's position. -/
theorem RateMove.rateOk {i : Instr} {b : Bool} {f g : Frame} {r : RoleRule} {s : State} (hmove : RateMove i b f g)
    (hr : roleRule i f = some r) (hf : LayoutOk f) (hsel : Selected f i)
    (hrate : f.timing.rate = .fd ↔ f.flags.brs = true ∧ ¬ (f.phase = .trailer ∧ 1 ≤ f.pos.t))
    (hack : f.timing.ackExt = false) (hg : g.timing = (resync s (r.samplePointAction s.params b f)).timing) :
    RateOk g := by
  obtain ⟨hbrs, hpast, hatAck⟩ := hmove
  rw [samplePointAction_eq hr] at hg
  by_cases hi : i = .brsF11 ∨ i = .brsF29
  case pos =>
    have hphase : f.phase ≠ .trailer := by rcases hi with rfl | rfl <;> simp [hsel.1]
    have hdl1 := hsel.ne_dl1 hphase
    have hstd : f.timing.rate ≠ .fd := fun h => by
      have := (hrate.mp h).1
      rw [brs_false_before hf hsel hi] at this; cases this
    rw [if_pos hi] at hg hbrs
    simp only [hdl1, hphase, false_and, or_false, iff_false] at hpast hatAck
    cases b with
    | false => exact ⟨by simp [hg, hbrs, hstd], by simp [hg, hbrs, hack]⟩
    | true =>
      exact ⟨iff_of_true (by simp [hg, rateOf]) ⟨hbrs, hpast⟩,
        iff_of_false (by simp [hg, switchRate, hack]) fun h => hatAck h.2⟩
  case neg =>
    rw [if_neg hi] at hg hbrs
    by_cases hdl1 : i = .dl1
    · subst hdl1
      obtain ⟨hphase, ht⟩ := hsel
      simp only [true_or, iff_true] at hpast hatAck
      rw [if_pos rfl] at hg
      cases hflag : f.flags.brs with
      | false =>
        have hstd : f.timing.rate ≠ .fd := fun h => by simp [hflag] at hrate; exact hrate h
        exact ⟨by simp [hg, hbrs, hflag, hstd], by simp [hg, hbrs, hflag, hack]⟩
      | true => exact ⟨by simp [hg, hbrs, hflag, rateOf, hpast], by simp [hg, hbrs, hflag, switchRate, hatAck]⟩
    · rw [if_neg hdl1] at hg
      simp only [hdl1, false_or, iff_false] at hpast hatAck
      exact ⟨by rw [hg, resync_rate, hrate, hbrs, hpast],
        iff_of_false (by simp [hg, hack]) fun h => hatAck h.2⟩

/-! ### The control invariant -/

/-- The position counter of a frame with the layout fits in the index of a key. -/
theorem positionCounter_lt {f : Frame} (hf : LayoutOk f) : positionCounter f < 64 := by
  unfold positionCounter
  cases hphase : f.phase with
  | header =>
    have hrange := hf.headerRange hphase
    have hlen : headerLength f.flags.ide f.flags.fdf ≤ 41 := by cases f.flags.ide <;> cases f.flags.fdf <;> decide
    simp only; omega
  | data => simp only; omega
  | crc =>
    have hrange := lt_crcLength hf hphase
    have hbits : (crcSelect true f.acc.nbytes).bits ≤ 21 := by cases crcSelect true f.acc.nbytes <;> decide
    unfold crcLength at hrange
    simp only
    split at hrange <;> omega
  | trailer => have hrange := hf.trailerRange hphase; simp only; omega
  | finished => exact absurd hphase hf.notFinished

/-- Other timing, cursor, notes and error flags leave the layout alone. -/
theorem layoutOk_retime {f : Frame} (hf : LayoutOk f) (bitStart : Rat) (timing : Timing) (notes : Notes)
    (err : BitVec 6) :
    LayoutOk { f with bitStart := bitStart, timing := timing, notes := notes, err := err } :=
  KeepsLayout.layoutOk (f := f) ⟨rfl, rfl, rfl, rfl, rfl, rfl, rfl, rfl⟩ hf.runRange hf

theorem layoutOk_begin {f : Frame} (hf : LayoutOk f) (p : Params) : LayoutOk (beginBit p f) :=
  layoutOk_retime hf f.bitStart _ f.notes f.err

theorem layoutOk_advance {f : Frame} (hf : LayoutOk f) : LayoutOk (advance f) :=
  layoutOk_retime hf _ f.timing f.notes f.err

theorem rateOk_advance {f : Frame} (hf : RateOk f) : RateOk (advance f) := ⟨hf.rate, hf.ackExt⟩

theorem stillRunning_advance {f : Frame} (hf : StillRunning f) : StillRunning (advance f) := hf

/-- The selection of a role does not depend on timing, notes or error flags. -/
theorem Selected.retime {f : Frame} {i : Instr} (h : Selected f i) (timing : Timing) (notes : Notes)
    (err : BitVec 6) : Selected { f with timing := timing, notes := notes, err := err } i := by
  cases i <;> exact h

/-- A frame at its start of frame has the layout and the standard rate. -/
theorem layoutOk_frameReset (sof : Nat) : LayoutOk (frameReset sof) := by
  constructor <;> simp [frameReset, headerLength]

theorem rateOk_frameReset (sof : Nat) : RateOk (frameReset sof) := by constructor <;> simp [frameReset]

/-- What a bit of a frame with the layout leaves at the frame-end test, unless it finishes the frame. -/
theorem bit_keeps_layout_and_rate {i : Instr} {s : State} {f g : Frame} {r : RoleRule} {b fieldDone : Bool}
    (hf : LayoutOk f) (hrate : RateOk f) (hdec : decode (dispatchKey (beginBit s.params f)) = .ok i)
    (hr : roleRule i (beginBit s.params f) = some r)
    (hact : r.fieldAction b (beforeField r (beginState s) b (beginBit s.params f)) = .ok (g, fieldDone))
    (hgoes : g.phase ≠ .finished) :
    LayoutOk (account (beforeField r (beginState s) b (beginBit s.params f)) r.cls b g) ∧
      RateOk (account (beforeField r (beginState s) b (beginBit s.params f)) r.cls b g) := by
  have hbegun := layoutOk_begin hf s.params
  obtain ⟨hsel, hclass⟩ := selected_of_decode (positionCounter_lt hbegun) hdec
  have hbit := bit_frame hr hact
  have hfield := fieldAction_frame hr hact
  have hcls : r.cls = .dstuff ∨ isDynamicStuff (beginBit s.params f) = false := by
    by_cases hi : i = .dstuff
    · subst hi; cases hr; exact .inl rfl
    · exact .inr (hclass hi).1
  obtain ⟨timing, notes, err, hbefore⟩ := beforeField_shape hr (beginState s) b
  rw [hbefore] at hact hfield hbit ⊢
  have hlayout := layoutOk_retime hbegun (beginBit s.params f).bitStart timing notes err
  have hselB := hsel.retime timing notes err
  have hmove := fieldAction_layoutMove hr hact rfl hlayout hselB
  refine ⟨hmove.layoutOk hlayout hselB hclass (account_runLen_le b hlayout.runRange hfield.runLen hcls) hgoes, ?_⟩
  obtain ⟨hbrs, hpastDl1, hatAck⟩ := hmove.rateMove hlayout hselB hgoes
  exact RateMove.rateOk (f := beginBit s.params f) ⟨hbrs, hpastDl1, hatAck⟩ hr hbegun hsel hrate.rate rfl hbit.timing

/-- A frame that does not end has not finished and need not end early. -/
theorem frameEnds_false {f : Frame} (h : frameEnds f = false) : f.phase ≠ .finished ∧ StillRunning f := by
  simp only [frameEnds, Bool.or_eq_false_iff, Bool.and_eq_false_iff, decide_eq_false_iff_not, beq_eq_false_iff_ne,
    bne_eq_false_iff_eq] at h
  exact ⟨h.1, h.2.imp (by omega) id⟩

/-- No step writes the inputs. -/
theorem step_inputs {s t : State} (h : step s = .next t) : t.params = s.params ∧ t.raw = s.raw := by
  obtain ⟨-, ⟨-, rfl⟩ | ⟨f, -, -, ⟨-, rfl⟩ | ⟨i, -, -, hexec⟩⟩⟩ := step_next h
  · rcases searchStep_cases s with ⟨-, h⟩ | ⟨-, -, h⟩ | ⟨sof, -, -, h⟩ <;> rw [h] <;> exact ⟨rfl, rfl⟩
  · exact ⟨rfl, rfl⟩
  · obtain ⟨f, b, r, g, fieldDone, -, -, -, rfl⟩ := exec_next hexec
    obtain ⟨hparams, hraw, -⟩ := closeBit_frame (beginState s)
      (account (beforeField r (beginState s) b f) r.cls b g) fieldDone
    exact ⟨hparams, hraw⟩

/-- The run state after a step agrees with the frame context and the status. -/
theorem step_coherent {s t : State} (hs : RunCoherent s) (h : step s = .next t) : RunCoherent t := by
  obtain ⟨-, hcases⟩ := step_next h
  have hstatus : s.run.status = .running := by
    by_contra hne
    have hdone := hs.endedWhenDone.mpr hne
    rcases hcases with ⟨hmode, -⟩ | ⟨f, hmode, -⟩ <;> rw [hmode] at hdone <;> cases hdone
  rcases hcases with ⟨-, rfl⟩ | ⟨f, hmode, -, ⟨-, rfl⟩ | ⟨i, -, -, hexec⟩⟩
  · rcases searchStep_cases s with ⟨-, h⟩ | ⟨-, -, h⟩ | ⟨sof, -, -, h⟩ <;> rw [h] <;> constructor <;> simp [hstatus]
  · constructor <;> simp [exhaust]
  · obtain ⟨f, b, r, g, fieldDone, -, -, -, rfl⟩ := exec_next hexec
    rcases closeBit_cases (beginState s) (account (beforeField r (beginState s) b f) r.cls b g) fieldDone with
      ⟨-, h⟩ | ⟨-, -, h⟩ | ⟨-, -, -, h⟩ | ⟨-, -, -, h⟩ <;> rw [h] <;> constructor <;> simp [hstatus, hmode]

/-- The frame in progress after a step has the layout, its rate, and need not end. -/
theorem step_frame_ok {s t : State} {g : Frame} (hs : Inv s) (h : step s = .next t) (hg : t.ctx = some g) :
    LayoutOk g ∧ RateOk g ∧ StillRunning g := by
  obtain ⟨-, ⟨-, rfl⟩ | ⟨f, hmode, hctx, -⟩⟩ := step_next h
  · rcases searchStep_cases s with ⟨-, h⟩ | ⟨-, -, h⟩ | ⟨sof, -, -, h⟩ <;> rw [h] at hg <;> cases hg
    exact ⟨layoutOk_frameReset sof, rateOk_frameReset sof, .inr rfl⟩
  · rcases step_next_frame hmode hctx h with rfl | ⟨i, r, b, g', fieldDone, hdec, -, hr, hact, rfl⟩
    · cases hg
    · obtain ⟨hends, rfl⟩ := closeBit_ctx hg
      obtain ⟨hgoes, hrunning⟩ := frameEnds_false hends
      rw [account_phase] at hgoes
      obtain ⟨hlayout, hrate⟩ :=
        bit_keeps_layout_and_rate (hs.layout f hctx) (hs.rate f hctx) hdec hr hact hgoes
      exact ⟨layoutOk_advance hlayout, rateOk_advance hrate, stillRunning_advance hrunning⟩

/-- Every step keeps the control invariant. -/
theorem step_inv {s t : State} (hs : Inv s) (h : step s = .next t) : Inv t where
  coherent := step_coherent hs.coherent h
  memory := by rw [(step_inputs h).2]; exact hs.memory
  layout _ hg := (step_frame_ok hs h hg).1
  rate _ hg := (step_frame_ok hs h hg).2.1
  running _ hg := (step_frame_ok hs h hg).2.2

end Sys2Proof.Machine

/-! PROOFS. No state with the control invariant stops before its run ends (00_scope.md R9, 30_encoding.md R58). -/

namespace Sys2Proof.Machine

open Sys2Proof.Safety

/-- A list of roles with one whose range takes the index gives a role. -/
theorem firstRole_isSome {index : KeyIndex} {roles : List (Nat × Nat × Instr)}
    (h : ∃ e ∈ roles, e.1 ≤ index.toNat ∧ index.toNat ≤ e.2.1) : ∃ i, firstRole index roles = some i := by
  induction roles with
  | nil => obtain ⟨e, he, -⟩ := h; cases he
  | cons r roles ih =>
    obtain ⟨lo, hi, j⟩ := r
    rw [firstRole]
    split
    · exact ⟨j, rfl⟩
    · rename_i hno
      obtain ⟨e, he, hrange⟩ := h
      rcases List.mem_cons.mp he with rfl | he
      · exact absurd (by simpa [KeyIndex.within] using hrange) hno
      · exact ih ⟨e, he, hrange⟩

/-- The ranges of a phase's roles cover the positions of the frame layout. -/
theorem phaseRoles_cover {f : Frame} (hf : LayoutOk f) (index : KeyIndex) :
    ∃ e ∈ phaseRoles f.phase f.flags.ide f.flags.fdf index, e.1 ≤ positionCounter f ∧ positionCounter f ≤ e.2.1 := by
  unfold positionCounter
  cases hphase : f.phase with
  | header =>
    have hrange := hf.headerRange hphase
    cases hide : f.flags.ide <;> cases hfdf : f.flags.fdf <;> rw [hide, hfdf, headerLength] at hrange <;>
      simp [phaseRoles, headerRoles] <;> omega
  | data => simp [phaseRoles]; omega
  | crc =>
    have hrange := lt_crcLength hf hphase
    have hbits : (crcSelect true f.acc.nbytes).bits ≤ 21 := by cases crcSelect true f.acc.nbytes <;> decide
    unfold crcLength at hrange
    cases hfdf : f.flags.fdf <;> simp [hfdf] at hrange <;> simp [phaseRoles] <;> omega
  | trailer => have hrange := hf.trailerRange hphase; simp [phaseRoles]; omega
  | finished => exact absurd hphase hf.notFinished

/-- The key of a bit of a frame with the layout has a role. -/
theorem dispatchKey_hasRole {f : Frame} (hf : LayoutOk f) : ∃ i, decode (dispatchKey f) = .ok i := by
  simp only [decode_eq_ok, decode_dispatchKey]
  split
  · exact ⟨_, rfl⟩
  · split
    · exact ⟨_, rfl⟩
    · refine firstRole_isSome ?_
      rw [BitVec.toNat_ofNat, Nat.mod_eq_of_lt (positionCounter_lt hf)]
      exact phaseRoles_cover hf _

/-- A CRC bit goes on once a width is selected. -/
theorem finishCrcBit_goes_on (last : Bool) {f : Frame} (hw : f.acc.crcW ≠ none) :
    ∃ result, finishCrcBit last f = .ok result := by
  obtain ⟨w, hw⟩ := Option.ne_none_iff_exists'.mp hw
  cases last
  · exact ⟨_, rfl⟩
  · exact ⟨_, by simp only [finishCrcBit, if_true, hw]; rfl⟩

/-- The field action of a selected role goes on. -/
theorem fieldAction_goes_on {i : Instr} {f0 f : Frame} {r : RoleRule} (b : Bool) (hr : roleRule i f0 = some r)
    (hf : LayoutOk f) (hsel : Selected f i) : ∃ result, r.fieldAction b f = .ok result := by
  have hwidth : ∀ first, f.phase = .crc → (nextPayloadBit (crcBit first b f)).acc.crcW ≠ none := fun first hphase => by
    rw [(KeepsLayout.crcBit first b f).nextPayloadBit.crcW, nextPayloadBit, hf.crcSelected (.inl hphase)]
    simp
  cases i
  case dlcC11 | dlcF11 | dlcC29 | dlcF29 =>
    cases hr; rw [dlcRule_fieldAction]; split <;> exact ⟨_, rfl⟩
  case data => cases hr; rw [dataRule_fieldAction]; split <;> exact ⟨_, rfl⟩
  case crcC => cases hr; rw [crcCRule_fieldAction]; exact finishCrcBit_goes_on _ (hwidth _ hsel.1)
  case crcFd =>
    simp only [roleRule, Option.map_eq_some_iff] at hr
    obtain ⟨w, -, rfl⟩ := hr
    rw [crcFdRule_fieldAction]
    exact finishCrcBit_goes_on _ (hwidth _ hsel.1)
  all_goals cases hr; exact ⟨_, rfl⟩

/-- A selected role goes on, on a bit that can be processed. -/
theorem exec_goes_on {i : Instr} {s : State} {f : Frame} {b : Bool} (hready : Ready s f b) (hf : LayoutOk f)
    (hsel : Selected f i) : ∃ t, exec i s = .next t := by
  rcases roleRule_isSome i f with ⟨r, hr⟩ | ⟨⟨index, rfl⟩, hw⟩
  · obtain ⟨timing, notes, err, hbefore⟩ := beforeField_shape hr s b
    obtain ⟨⟨g, fieldDone⟩, hact⟩ := fieldAction_goes_on b hr
      (layoutOk_retime hf f.bitStart timing notes err) (hsel.retime timing notes err)
    rw [exec_eq_bitStep (frame?_of_mode hready.mode hready.ctx) hr, bitStep_ready r hready, runField, hbefore, hact]
    exact ⟨_, rfl⟩
  · rw [hf.crcSelected (.inl hsel.1)] at hw; cases hw

/-! ### The cases of a step, forward -/

section

variable {s : State} {f : Frame} (hrun : s.runnable = true)

include hrun

theorem step_of_search (hmode : s.run.mode = .search) : step s = .next (searchStep s) := by
  rw [step, if_pos hrun, hmode]

variable (hmode : s.run.mode = .frame) (hctx : s.ctx = some f)

include hmode hctx

theorem step_of_exhausted (hex : exhausted s.params (beginBit s.params f) = true) : step s = .next (exhaust s) := by
  simp only [step, if_pos hrun, hmode, hctx, frameStep, hex, if_true]

theorem step_of_role {i : Instr} (hex : exhausted s.params (beginBit s.params f) = false)
    (hdec : decode (dispatchKey (beginBit s.params f)) = .ok i) : step s = exec i (beginState s) := by
  simp only [step, if_pos hrun, hmode, hctx, frameStep, hex, if_neg Bool.false_ne_true, roleOfBit, hdec]

end

/-- A run whose inputs are in range takes a step from every state with the control invariant before mode `DONE`. -/
theorem step_goes_on {s : State} (hs : Inv s) (hrun : s.runnable = true) (hmode : s.run.mode ≠ .done) :
    ∃ t, step s = .next t := by
  cases hm : s.run.mode with
  | done => exact absurd hm hmode
  | search => exact ⟨_, step_of_search hrun hm⟩
  | frame =>
    obtain ⟨f, hctx⟩ := Option.isSome_iff_exists.mp (hs.coherent.ctxInFrame.mp hm)
    have hf := layoutOk_begin (hs.layout f hctx) s.params
    cases hex : exhausted s.params (beginBit s.params f) with
    | true => exact ⟨_, step_of_exhausted hrun hm hctx hex⟩
    | false =>
      obtain ⟨i, hdec⟩ := dispatchKey_hasRole hf
      have hin : rnd (beginBit s.params f).timing.samplePoint < s.params.sampleCount := by
        simpa [exhausted] using hex
      have hready : Ready (beginState s) (beginBit s.params f) _ :=
        ⟨hm, by rw [beginState_ctx, hctx]; rfl, hin, rfl⟩
      rw [step_of_role hrun hm hctx hex hdec]
      exact exec_goes_on hready hf (selected_of_decode (positionCounter_lt hf) hdec).1

end Sys2Proof.Machine

/-! PROOFS. Every bit advances the bit cursor (40_bit_timing.md R75). -/

namespace Sys2Proof.Machine

open Sys2Proof.Safety

/-- The parameter ranges of a run that is not refused (00_scope.md R5). -/
theorem runnable_params {s : State} (h : s.runnable = true) :
    0 < s.params.spbStd ∧ 0 < s.params.spbFd ∧ (1 / 2 ≤ s.params.spfStd ∧ s.params.spfStd ≤ 9 / 10) ∧
      (1 / 2 ≤ s.params.spfFd ∧ s.params.spfFd ≤ 9 / 10) := by
  have hnine : mkRat 9 10 = (9 / 10 : Rat) := by norm_num [Rat.mkRat_eq_div]
  simp only [State.runnable, Params.inRange, between, Bool.and_eq_true, decide_eq_true_eq, half_eq, hnine] at h
  obtain ⟨⟨⟨⟨⟨⟨hstd, hfd⟩, hspfStd⟩, hspfFd⟩, -⟩, -⟩, -⟩ := h
  exact ⟨hstd, hfd, hspfStd, hspfFd⟩

/-- The least advance of a bit is positive. -/
theorem leastAdvance_pos {s : State} (h : s.runnable = true) : 0 < leastAdvance s.params := by
  obtain ⟨hstd, hfd, ⟨hstd1, hstd2⟩, ⟨hfd1, hfd2⟩⟩ := runnable_params h
  have hup : 0 < s.params.spbStd * s.params.spfStd + s.params.spbFd * (1 - s.params.spfFd) := by
    have := mul_pos hstd (show 0 < s.params.spfStd by linarith)
    have := mul_pos hfd (show 0 < 1 - s.params.spfFd by linarith)
    linarith
  have hdown : 0 < s.params.spbFd * s.params.spfFd + s.params.spbStd * (1 - s.params.spfStd) := by
    have := mul_pos hfd (show 0 < s.params.spfFd by linarith)
    have := mul_pos hstd (show 0 < 1 - s.params.spfStd by linarith)
    linarith
  simp only [leastAdvance, lt_min_iff]
  exact ⟨by norm_num, hstd, hfd, hup, hdown⟩

/-- `rnd` is at most half a sample below its argument. -/
theorem sub_half_le_rnd (x : Rat) : x - 1 / 2 ≤ rnd x := by
  have hfloor : (⌊x + 1 / 2⌋ : Rat) ≤ (⌊x + 1 / 2⌋.toNat : Rat) := by exact_mod_cast Int.self_le_toNat _
  have hlt := Int.lt_floor_add_one (x + 1 / 2)
  rw [rnd_eq]
  linarith

/-- A resynchronising edge lies at least half a sample after the sample point (40_bit_timing.md R72). -/
theorem le_resync_bitEnd {s : State} {f : Frame} {lo : Rat} (hsample : lo ≤ f.timing.samplePoint + 1 / 2)
    (hend : lo ≤ f.timing.bitEnd) : lo ≤ (resync s f).timing.bitEnd := by
  rcases resync_cases s f with ⟨-, h⟩ | ⟨e, hedge, h⟩ <;> rw [h]
  · exact hend
  · have hafter : rnd f.timing.samplePoint + 1 ≤ e := (find_indices_eq_some.mp hedge).1
    have hcast : (rnd f.timing.samplePoint : Rat) + 1 ≤ e := by exact_mod_cast hafter
    have hround := sub_half_le_rnd f.timing.samplePoint
    show lo ≤ position e
    rw [position_eq]
    linarith

theorem beginBit_samplePoint (p : Params) (f : Frame) :
    (beginBit p f).timing.samplePoint = f.bitStart + p.spb f.timing.rate * p.spf f.timing.rate := by
  simp [beginBit, beginTiming, addQ_eq, mulQ_eq]

theorem beginBit_bitEnd (p : Params) (f : Frame) :
    (beginBit p f).timing.bitEnd = f.bitStart + p.spb f.timing.rate := by
  simp [beginBit, beginTiming, addQ_eq]

theorem switchRate_bitEnd (p : Params) (toHigh : Bool) (f : Frame) :
    (switchRate p toHigh f).timing.bitEnd =
      f.timing.samplePoint + p.spb (rateOf toHigh) * (1 - p.spf (rateOf toHigh)) := by
  simp [switchRate, addQ_eq, mulQ_eq, subQ_eq]

/-- Without a switch a bit lasts the samples-per-bit of its rate. -/
theorem leastAdvance_le_begin (p : Params) (f : Frame) :
    f.bitStart + leastAdvance p ≤ (beginBit p f).timing.bitEnd := by
  have hleast := le_refl (leastAdvance p)
  simp only [leastAdvance, le_min_iff] at hleast
  obtain ⟨-, hstd, hfd, -, -⟩ := hleast
  rw [beginBit_bitEnd]
  cases f.timing.rate <;> simp only [Params.spb, leastAdvance] <;> linarith

/-- With a switch a bit lasts the shares of the two rates; a switch to the rate already active changes nothing. -/
theorem leastAdvance_le_switch (p : Params) (toHigh : Bool) (f : Frame) :
    f.bitStart + leastAdvance p ≤ (switchRate p toHigh (beginBit p f)).timing.bitEnd := by
  have hleast := le_refl (leastAdvance p)
  simp only [leastAdvance, le_min_iff] at hleast
  obtain ⟨-, hstd, hfd, hup, hdown⟩ := hleast
  rw [switchRate_bitEnd, beginBit_samplePoint]
  cases toHigh <;> cases f.timing.rate <;> simp only [Params.spb, Params.spf, rateOf, leastAdvance] <;>
    simp <;> linarith

section

variable {s : State} (hrun : s.runnable = true) (f : Frame)

include hrun

/-- The sample point of a bit does not lie before its start. -/
theorem bitStart_le_samplePoint : f.bitStart ≤ (beginBit s.params f).timing.samplePoint := by
  obtain ⟨hstd, hfd, ⟨hstd1, -⟩, ⟨hfd1, -⟩⟩ := runnable_params hrun
  rw [beginBit_samplePoint]
  cases f.timing.rate with
  | std => have := mul_pos hstd (show 0 < s.params.spfStd by linarith); simp only [Params.spb, Params.spf]; linarith
  | fd => have := mul_pos hfd (show 0 < s.params.spfFd by linarith); simp only [Params.spb, Params.spf]; linarith

/-- Every bit ends at least the least advance after it starts, whatever its role (40_bit_timing.md R75). -/
theorem leastAdvance_le_bitEnd {i : Instr} {r : RoleRule} {b : Bool} {s' : State}
    (hr : roleRule i (beginBit s.params f) = some r) :
    f.bitStart + leastAdvance s.params ≤
      (resync s' (r.samplePointAction s.params b (beginBit s.params f))).timing.bitEnd := by
  have hsample := bitStart_le_samplePoint hrun f
  have hhalf : leastAdvance s.params ≤ 1 / 2 := min_le_left _ _
  rcases samplePointAction_cases hr s.params b with h | ⟨-, -, h⟩ | ⟨-, -, h⟩ <;> rw [h] <;> apply le_resync_bitEnd
  · linarith
  · exact leastAdvance_le_begin s.params f
  · rw [switchRate_samplePoint]; linarith
  · exact leastAdvance_le_switch s.params true f
  · rw [switchRate_samplePoint]; linarith
  · exact leastAdvance_le_switch s.params false f

/-- A bit that starts at or beyond the end of the capture is not sampled (40_bit_timing.md R69). -/
theorem exhausted_of_le (hle : (s.params.sampleCount : Rat) ≤ f.bitStart) :
    exhausted s.params (beginBit s.params f) = true := by
  rw [exhausted, decide_eq_true_eq, ← rnd_natCast s.params.sampleCount]
  exact rnd_mono (hle.trans (bitStart_le_samplePoint hrun f))

end

/-! ### The outcomes of a step in a frame -/

/-- What a step in a frame leaves: the run ends, the frame is emitted and the search resumes at its end, or the next
bit of the frame starts. `bitEnd` is where the step's bit ends. -/
inductive FrameOutcome (s : State) (f : Frame) (bitEnd : Rat) (t : State) : Prop
  | ended (done : t.run.mode = .done) (out : t.out = s.out) (noFrame : t.ctx = none)
  | emitted (p : Packet) (search : t.run.mode = .search) (out : t.out = s.out ++ [p])
      (start : p.startSample = f.notes.startSample) (stop : p.endSample = rnd bitEnd)
      (resumes : t.run.searchFrom = p.endSample) (noFrame : t.ctx = none)
  | nextBit (g : Frame) (mode : t.run.mode = .frame) (out : t.out = s.out) (ctx : t.ctx = some g)
      (start : g.notes.startSample = f.notes.startSample) (cursor : g.bitStart = bitEnd)

/-- A step in a frame: the capture is exhausted, or a bit is processed. -/
theorem step_frameOutcome {s t : State} {f : Frame} (hmode : s.run.mode = .frame) (hctx : s.ctx = some f)
    (h : step s = .next t) :
    t = exhaust s ∨
      ∃ i r b, decode (dispatchKey (beginBit s.params f)) = .ok i ∧ roleRule i (beginBit s.params f) = some r ∧
        FrameOutcome s f
          (resync (beginState s) (r.samplePointAction s.params b (beginBit s.params f))).timing.bitEnd t := by
  rcases step_next_frame hmode hctx h with rfl | ⟨i, r, b, g, fieldDone, hdec, -, hr, hact, rfl⟩
  · exact .inl rfl
  · refine .inr ⟨i, r, b, hdec, hr, ?_⟩
    have hbit := bit_frame hr hact
    have hbitEnd := congrArg Timing.bitEnd hbit.timing
    rcases closeBit_cases (beginState s)
        (account (beforeField r (beginState s) b (beginBit s.params f)) r.cls b g) fieldDone with
      ⟨-, h⟩ | ⟨-, -, h⟩ | ⟨-, -, -, h⟩ | ⟨-, -, -, h⟩ <;> rw [h]
    · exact .emitted _ rfl rfl hbit.startSample (congrArg rnd hbitEnd) rfl rfl
    · exact .nextBit _ hmode rfl rfl hbit.startSample hbitEnd
    · exact .ended rfl rfl rfl
    · exact .nextBit _ hmode rfl rfl hbit.startSample hbitEnd

end Sys2Proof.Machine

/-! PROOFS. Where a run ends (00_scope.md R9). -/

namespace Sys2Proof.Machine

open Sys2Proof.Safety

/-! ### Runs -/

/-- The machine comes from `s` to `t` in some number of steps. -/
def Reaches (s t : State) : Prop := ∃ n, Sys2Proof.core.run n s = .next t

/-- A run of one step more begins with a step. -/
theorem core_run_succ (M : Host.Core) {n : Nat} {s t : M.State} :
    M.run (n + 1) s = .next t ↔ ∃ u, M.step s = .next u ∧ M.run n u = .next t := by
  rw [Host.Core.run]
  cases M.step s <;> simp

theorem run_succ {n : Nat} {s t : State} :
    Sys2Proof.core.run (n + 1) s = .next t ↔ ∃ u, step s = .next u ∧ Sys2Proof.core.run n u = .next t :=
  core_run_succ Sys2Proof.core

namespace Reaches

theorem refl (s : State) : Reaches s s := ⟨0, rfl⟩

theorem head {s t u : State} (h : step s = .next u) (hut : Reaches u t) : Reaches s t := by
  obtain ⟨n, hn⟩ := hut
  exact ⟨n + 1, run_succ.mpr ⟨u, h, hn⟩⟩

/-- What every step keeps holds of every state reached. -/
theorem keeps {P : State → Prop} (hstep : ∀ s t, P s → step s = .next t → P t) {s t : State} (hst : Reaches s t)
    (hs : P s) : P t := by
  obtain ⟨n, hn⟩ := hst
  induction n generalizing s with
  | zero => cases hn; exact hs
  | succ n ih =>
    obtain ⟨u, hu, hn⟩ := run_succ.mp hn
    exact ih (hstep s u hs hu) hn

theorem trans {s t u : State} (hst : Reaches s t) (htu : Reaches t u) : Reaches s u := by
  obtain ⟨n, hn⟩ := hst
  induction n generalizing s with
  | zero => cases hn; exact htu
  | succ n ih =>
    obtain ⟨v, hv, hn⟩ := run_succ.mp hn
    exact head hv (ih hn)

theorem inv {s t : State} (hst : Reaches s t) (hs : Inv s) : Inv t := hst.keeps (fun _ _ => step_inv) hs

theorem inputs {s t : State} (hst : Reaches s t) : t.params = s.params ∧ t.raw = s.raw :=
  hst.keeps (P := fun u => u.params = s.params ∧ u.raw = s.raw)
    (fun _ _ hu h => ⟨(step_inputs h).1.trans hu.1, (step_inputs h).2.trans hu.2⟩) ⟨rfl, rfl⟩

theorem runnable {s t : State} (hst : Reaches s t) (hs : s.runnable = true) : t.runnable = true := by
  obtain ⟨hparams, hraw⟩ := hst.inputs
  rw [State.runnable, hparams, hraw]
  exact hs

end Reaches

/-- A step only appends to the output. -/
theorem step_out {s t : State} (h : step s = .next t) : ∃ more, t.out = s.out ++ more := by
  obtain ⟨-, ⟨-, rfl⟩ | ⟨f, hmode, hctx, -⟩⟩ := step_next h
  · refine ⟨[], ?_⟩
    rcases searchStep_cases s with ⟨-, h⟩ | ⟨-, -, h⟩ | ⟨sof, -, -, h⟩ <;> rw [h] <;> exact (List.append_nil _).symm
  · rcases step_frameOutcome hmode hctx h with rfl | ⟨i, r, b, -, -, houtcome⟩
    · exact ⟨[], (List.append_nil _).symm⟩
    · cases houtcome with
      | ended _ hout => exact ⟨[], by rw [hout, List.append_nil]⟩
      | emitted p _ hout => exact ⟨[p], hout⟩
      | nextBit _ _ hout => exact ⟨[], by rw [hout, List.append_nil]⟩

theorem Reaches.out {s t : State} (hst : Reaches s t) : ∃ more, t.out = s.out ++ more :=
  hst.keeps (P := fun u => ∃ more, u.out = s.out ++ more)
    (fun _ _ hu h => by
      obtain ⟨before, hbefore⟩ := hu
      obtain ⟨more, hmore⟩ := step_out h
      exact ⟨before ++ more, by rw [hmore, hbefore, List.append_assoc]⟩) ⟨[], (List.append_nil _).symm⟩

/-! ### Every frame ends -/

/-- A frame has been left for `t`: the run has ended, or the frame's packet is emitted and the search resumes at
its end. `start` is the frame's start sample. -/
def FrameLeft (s : State) (start : Nat) (t : State) : Prop :=
  t.run.mode = .done ∨
    ∃ p, t.run.mode = .search ∧ t.out = s.out ++ [p] ∧ p.startSample = start ∧ t.run.searchFrom = p.endSample

/-- A frame of which `k` least advances reach the end of the capture is left: each bit takes one of them. -/
theorem frame_left_within (k : Nat) : ∀ {s : State} {f : Frame}, Inv s → s.runnable = true → s.ctx = some f →
    (s.params.sampleCount : Rat) ≤ f.bitStart + k * leastAdvance s.params →
    ∃ t, Reaches s t ∧ FrameLeft s f.notes.startSample t := by
  induction k with
  | zero =>
    intro s f hs hrun hctx hle
    have hmode : s.run.mode = .frame := hs.coherent.ctxInFrame.mpr (by rw [hctx]; rfl)
    have hex := exhausted_of_le hrun f (by simpa using hle)
    exact ⟨_, .head (step_of_exhausted hrun hmode hctx hex) (.refl _), .inl rfl⟩
  | succ k ih =>
    intro s f hs hrun hctx hle
    have hmode : s.run.mode = .frame := hs.coherent.ctxInFrame.mpr (by rw [hctx]; rfl)
    obtain ⟨t, ht⟩ := step_goes_on hs hrun (by simp [hmode])
    have hst : Reaches s t := .head ht (.refl t)
    rcases step_frameOutcome hmode hctx ht with rfl | ⟨i, r, b, -, hr, houtcome⟩
    · exact ⟨_, hst, .inl rfl⟩
    · cases houtcome with
      | ended hdone => exact ⟨t, hst, .inl hdone⟩
      | emitted p hsearch hout hstart hstop hresumes =>
        exact ⟨t, hst, .inr ⟨p, hsearch, hout, hstart, hresumes⟩⟩
      | nextBit g _ hout hg hstart hcursor =>
        have hadvance := leastAdvance_le_bitEnd (s' := beginState s) (b := b) hrun f hr
        rw [← hcursor] at hadvance
        obtain ⟨u, htu, hleft⟩ := ih (hst.inv hs) (hst.runnable hrun) hg (by
          rw [hst.inputs.1]; push_cast at hle; linarith)
        rw [FrameLeft, hout, hstart] at hleft
        exact ⟨u, hst.trans htu, hleft⟩

/-- Every frame in progress is left after finitely many bits (40_bit_timing.md R75). -/
theorem frame_left {s : State} {f : Frame} (hs : Inv s) (hrun : s.runnable = true) (hctx : s.ctx = some f) :
    ∃ t, Reaches s t ∧ FrameLeft s f.notes.startSample t := by
  obtain ⟨k, hk⟩ := exists_nat_ge (((s.params.sampleCount : Rat) - f.bitStart) / leastAdvance s.params)
  rw [div_le_iff₀ (leastAdvance_pos hrun)] at hk
  exact frame_left_within k hs hrun hctx (by linarith)

/-! ### The run ends, or a frame is found again -/

/-- A packet is emitted that does not end above its start sample. -/
def FindsAgain (s : State) : Prop :=
  ∃ t more p, Reaches s t ∧ t.out = s.out ++ more ∧ p ∈ more ∧ p.endSample ≤ p.startSample

theorem runEnds_of_reaches {s t : State} (hst : Reaches s t) (ht : RunEnds t) : RunEnds s := by
  obtain ⟨n, u, hn, hdone⟩ := ht
  obtain ⟨m, hm⟩ := hst.trans ⟨n, hn⟩
  exact ⟨m, u, hm, hdone⟩

theorem runEnds_of_done {s t : State} (hst : Reaches s t) (hdone : t.run.mode = .done) : RunEnds s :=
  runEnds_of_reaches hst ⟨0, t, rfl, hdone⟩

theorem findsAgain_of_reaches {s t : State} (hst : Reaches s t) (ht : FindsAgain t) : FindsAgain s := by
  obtain ⟨u, more, p, htu, hout, hp, hle⟩ := ht
  obtain ⟨before, hbefore⟩ := hst.out
  exact ⟨u, before ++ more, p, hst.trans htu, by rw [hout, hbefore, List.append_assoc],
    List.mem_append_right _ hp, hle⟩

/-- The alternative holds of a state if it holds of one it comes to. -/
theorem runEnds_or_findsAgain_of_reaches {s t : State} (hst : Reaches s t) (ht : RunEnds t ∨ FindsAgain t) :
    RunEnds s ∨ FindsAgain s :=
  ht.imp (runEnds_of_reaches hst) (findsAgain_of_reaches hst)

/-- A search takes an edge at or above the place it begins, inside the capture (41_frame_fsm.md R78). -/
theorem sofEdge_bounds {s : State} {sof : Nat} (h : sofEdge s = some sof) :
    s.run.searchFrom ≤ sof ∧ sof < s.params.sampleCount := by
  obtain ⟨hle, hlt, -, -⟩ := find_indices_eq_some.mp h
  exact ⟨(le_max_right _ _).trans hle, hlt⟩

/-- From a search: each frame found starts at or above where the search began, and the next search begins above that
unless the frame ends at or below its own start. -/
theorem search_ends {s : State} (hs : Inv s) (hrun : s.runnable = true) (hmode : s.run.mode = .search) :
    RunEnds s ∨ FindsAgain s := by
  induction hleft : s.params.sampleCount - s.run.searchFrom using Nat.strong_induction_on generalizing s with
  | _ left ih =>
    have hst : Reaches s (searchStep s) := .head (step_of_search hrun hmode) (.refl _)
    rcases searchStep_cases s with ⟨-, h⟩ | ⟨-, -, h⟩ | ⟨sof, -, hedge, h⟩
    · exact .inl (runEnds_of_done hst (by rw [h]))
    · exact .inl (runEnds_of_done hst (by rw [h]))
    · obtain ⟨hfrom, hlt⟩ := sofEdge_bounds hedge
      obtain ⟨t, hframe, hdone | ⟨p, hsearch, hout, hstart, hresumes⟩⟩ :=
        frame_left (hst.inv hs) (hst.runnable hrun) (f := frameReset sof) (by rw [h])
      · exact .inl (runEnds_of_done (hst.trans hframe) hdone)
      · have hreach := hst.trans hframe
        have hstart : p.startSample = sof := hstart
        by_cases hle : p.endSample ≤ p.startSample
        · exact .inr ⟨t, [p], p, hreach, by rw [hout, h], List.mem_singleton_self p, hle⟩
        · refine runEnds_or_findsAgain_of_reaches hreach
            (ih _ ?_ (hreach.inv hs) (hreach.runnable hrun) hsearch rfl)
          rw [hreach.inputs.1, hresumes]
          omega

/-- From every state with the control invariant the run ends, or a frame is found again. -/
theorem runEnds_or_findsAgain {s : State} (hs : Inv s) (hrun : s.runnable = true) : RunEnds s ∨ FindsAgain s := by
  cases hmode : s.run.mode with
  | done => exact .inl (runEnds_of_done (.refl s) hmode)
  | search => exact search_ends hs hrun hmode
  | frame =>
    obtain ⟨f, hctx⟩ := Option.isSome_iff_exists.mp (hs.coherent.ctxInFrame.mp hmode)
    obtain ⟨t, hst, hdone | ⟨-, hsearch, -⟩⟩ := frame_left hs hrun hctx
    · exact .inl (runEnds_of_done hst hdone)
    · exact runEnds_or_findsAgain_of_reaches hst (search_ends (hst.inv hs) (hst.runnable hrun) hsearch)

/-! ### Standard bits of at least half a sample -/

/-- Every frame ends above its start sample: the frame in progress is at its first bit, or half a sample on. -/
structure FramesAdvance (s : State) : Prop where
  packets : ∀ p ∈ s.out, p.startSample < p.endSample
  frame : ∀ f, s.ctx = some f →
    f = frameReset f.notes.startSample ∨ (f.notes.startSample : Rat) + 1 / 2 ≤ f.bitStart

/-- The first bit of a frame does not switch the rate (42_header.md R93, 43_data_crc_trailer.md R105). -/
theorem samplePointAction_frameReset {p : Params} {sof : Nat} {i : Instr} {r : RoleRule} (b : Bool)
    (hdec : decode (dispatchKey (beginBit p (frameReset sof))) = .ok i)
    (hr : roleRule i (beginBit p (frameReset sof)) = some r) :
    r.samplePointAction p b (beginBit p (frameReset sof)) = beginBit p (frameReset sof) := by
  have hlayout := layoutOk_begin (layoutOk_frameReset sof) p
  have hsel := (selected_of_decode (positionCounter_lt hlayout) hdec).1
  rcases samplePointAction_cases hr p b with h | ⟨rfl | rfl, -, -⟩ | ⟨rfl, -, -⟩
  · exact h
  · cases hsel.2.2.1
  · cases hsel.2.2.1
  · cases hsel.1

/-- A bit of a frame at its first bit or half a sample on ends at least half a sample after the frame's start. -/
theorem half_le_bitEnd {s s' : State} {f : Frame} {i : Instr} {r : RoleRule} {b : Bool} (hrun : s.runnable = true)
    (hspb : 1 / 2 ≤ s.params.spbStd)
    (hf : f = frameReset f.notes.startSample ∨ (f.notes.startSample : Rat) + 1 / 2 ≤ f.bitStart)
    (hdec : decode (dispatchKey (beginBit s.params f)) = .ok i) (hr : roleRule i (beginBit s.params f) = some r) :
    (f.notes.startSample : Rat) + 1 / 2 ≤
      (resync s' (r.samplePointAction s.params b (beginBit s.params f))).timing.bitEnd := by
  rcases hf with hfirst | hlater
  · generalize f.notes.startSample = sof at hfirst ⊢
    subst hfirst
    have hstart : (frameReset sof).bitStart = sof := position_eq sof
    have hsample := bitStart_le_samplePoint hrun (frameReset sof)
    rw [hstart] at hsample
    rw [samplePointAction_frameReset b hdec hr]
    refine le_resync_bitEnd (by linarith) ?_
    rw [beginBit_bitEnd, hstart]
    show (sof : Rat) + 1 / 2 ≤ sof + s.params.spbStd
    linarith
  · have hadvance := leastAdvance_le_bitEnd (s' := s') (b := b) hrun f hr
    have hpos := leastAdvance_pos hrun
    linarith

theorem step_framesAdvance {s t : State} (hspb : 1 / 2 ≤ s.params.spbStd) (hs : FramesAdvance s)
    (h : step s = .next t) : FramesAdvance t := by
  obtain ⟨hrun, ⟨-, rfl⟩ | ⟨f, hmode, hctx, -⟩⟩ := step_next h
  · rcases searchStep_cases s with ⟨-, h⟩ | ⟨-, -, h⟩ | ⟨sof, -, -, h⟩ <;> rw [h] <;> refine ⟨hs.packets, ?_⟩
    · rintro f ⟨⟩
    · rintro f ⟨⟩
    · rintro f ⟨⟩; exact .inl rfl
  · rcases step_frameOutcome hmode hctx h with rfl | ⟨i, r, b, hdec, hr, houtcome⟩
    · exact ⟨hs.packets, fun _ hg => by cases hg⟩
    · have hhalf := half_le_bitEnd (s' := beginState s) (b := b) hrun hspb (hs.frame f hctx) hdec hr
      cases houtcome with
      | ended _ hout hnone => exact ⟨hout ▸ hs.packets, fun _ hg => by rw [hnone] at hg; cases hg⟩
      | emitted p _ hout hstart hstop _ hnone =>
        refine ⟨fun q hq => ?_, fun _ hg => by rw [hnone] at hg; cases hg⟩
        rw [hout, List.mem_append, List.mem_singleton] at hq
        rcases hq with hq | rfl
        · exact hs.packets q hq
        · rw [hstart, hstop]
          exact (le_rnd_iff (Nat.succ_pos _)).mpr (by push_cast; linarith)
      | nextBit g _ hout hg hstart hcursor =>
        refine ⟨hout ▸ hs.packets, fun g' hg' => .inr ?_⟩
        cases hg.symm.trans hg'
        rw [hstart, hcursor]
        exact hhalf

theorem framesAdvance_start (p : Params) (raw : Memory) : FramesAdvance (State.start p raw) := by
  constructor <;> simp [State.start]

/-- With standard bits of at least half a sample no frame of a run from reset is found again. -/
theorem not_findsAgain {p : Params} {raw : Memory} (hspb : 1 / 2 ≤ p.spbStd) : ¬ FindsAgain (State.start p raw) := by
  rintro ⟨t, more, q, hst, hout, hq, hle⟩
  have ht : FramesAdvance t ∧ t.params = p := by
    refine hst.keeps (P := fun u => FramesAdvance u ∧ u.params = p) (fun u v hu h => ?_)
      ⟨framesAdvance_start p raw, rfl⟩
    obtain ⟨hu, hparams⟩ := hu
    exact ⟨step_framesAdvance (by rw [hparams]; exact hspb) hu h, (step_inputs h).1.trans hparams⟩
  have hq : q ∈ t.out := by rw [hout]; exact List.mem_append_right _ hq
  exact absurd (ht.1.packets q hq) (Nat.not_lt.mpr hle)

/-- The control invariant holds at the start of every run with a canonical sample memory. -/
theorem inv_start (p : Params) {raw : Memory} (hraw : Memory.wf raw = true) : Inv (State.start p raw) where
  coherent := by constructor <;> simp [State.start, RunState.initial]
  memory := hraw
  layout _ h := by cases h
  rate _ h := by cases h
  running _ h := by cases h

/-- A run that has ended has one of the three statuses (10_state.md R16). -/
theorem status_of_done {s : State} (hs : Inv s) (hdone : s.run.mode = .done) :
    s.run.status = .completed ∨ s.run.status = .exhausted ∨ s.run.status = .aborted := by
  have hne := hs.coherent.endedWhenDone.mp hdone
  cases h : s.run.status <;> simp_all

/-- Settles O59: every frame is left after finitely many bits, as each advances the cursor by δ, and each search
begins above the one before it unless a packet ends at or below its own start; with standard bits of half a sample
none does. -/
theorem runsEndUnlessAFrameIsFoundAgain : Obligations.RunsEndUnlessAFrameIsFoundAgain := by
  refine ⟨fun s hs hrun => ?_, fun p raw hrun hraw hspb => ?_⟩
  · refine (runEnds_or_findsAgain hs hrun).imp_right ?_
    rintro ⟨t, more, p, ⟨n, hn⟩, hout, hp, hle⟩
    exact ⟨n, t, more, p, hn, hout, hp, hle⟩
  · have hstart := inv_start p hraw
    obtain ⟨n, t, hn, hdone⟩ := (runEnds_or_findsAgain hstart hrun).resolve_right (not_findsAgain hspb)
    exact ⟨n, t, hn, hdone, status_of_done (Reaches.inv ⟨n, hn⟩ hstart) hdone⟩

end Sys2Proof.Machine

/-! PROOFS. A run without end (00_scope.md R9, assumption log 9): a frame shorter than half a sample is found again at
its own edge. -/

namespace Sys2Proof.Machine

open Sys2Proof.Safety

/-! ### What a step does not read -/

/-- `t` is `s` with another output, another poll count and another place to search from that gives the same search. -/
def SameRun (s t : State) : Prop :=
  ∃ (out : List Packet) (pollCount searchFrom : Nat), max 1 searchFrom = max 1 s.run.searchFrom ∧
    t = { s with out := out, run := { s.run with pollCount := pollCount, searchFrom := searchFrom } }

theorem SameRun.refl (s : State) : SameRun s s := ⟨s.out, s.run.pollCount, s.run.searchFrom, rfl, rfl⟩

theorem SameRun.trans {s t u : State} (hst : SameRun s t) (htu : SameRun t u) : SameRun s u := by
  obtain ⟨out1, pollCount1, from1, hfrom1, rfl⟩ := hst
  obtain ⟨out, pollCount, from2, hfrom2, rfl⟩ := htu
  exact ⟨out, pollCount, from2, hfrom2.trans hfrom1, rfl⟩

theorem SameRun.registers {s t : State} (h : SameRun s t) :
    t.params = s.params ∧ t.raw = s.raw ∧ t.run.mode = s.run.mode ∧ t.ctx = s.ctx := by
  obtain ⟨out, pollCount, searchFrom, -, rfl⟩ := h
  exact ⟨rfl, rfl, rfl, rfl⟩

/-- A host that never aborts. -/
theorem abort_of_nil {p : Params} (h : p.abortPolls = []) (n : Nat) : p.abort n = false := by simp [Params.abort, h]

/-- A search that no poll aborts. -/
theorem searchStep_of_no_abort {s : State} (habort : s.params.abortPolls = []) :
    searchStep s =
      match sofEdge s with
      | none =>
        { s with
          run := { s.run with pollCount := s.run.pollCount + 1, status := .completed, mode := .done }, ctx := none }
      | some sof =>
        { s with
          run := { s.run with pollCount := s.run.pollCount + 1, mode := .frame }, ctx := some (frameReset sof) } := by
  rcases searchStep_cases s with ⟨h, -⟩ | ⟨-, hnone, h⟩ | ⟨sof, -, hsof, h⟩
  · rw [abort_of_nil habort] at h; cases h
  · rw [h, hnone]
  · rw [h, hsof]

section

variable {s t : State} (habort : s.params.abortPolls = []) (hsame : SameRun s t)

include habort hsame

theorem closeBit_sameRun (f : Frame) (fieldDone : Bool) :
    SameRun (closeBit s f fieldDone) (closeBit t f fieldDone) := by
  obtain ⟨out, pollCount, searchFrom, hfrom, rfl⟩ := hsame
  unfold closeBit
  split
  · exact ⟨_, pollCount, _, rfl, rfl⟩
  · cases fieldDone with
    | false => exact ⟨_, _, _, hfrom, rfl⟩
    | true =>
      simp only [pollAfterField, abortPoll, if_true, abort_of_nil habort, if_neg Bool.false_ne_true]
      exact ⟨_, _, _, hfrom, rfl⟩

theorem exec_sameRun {i : Instr} {s' : State} (h : exec i s = .next s') :
    ∃ t', exec i t = .next t' ∧ SameRun s' t' := by
  obtain ⟨f, b, r, g, fieldDone, hready, hr, hact, rfl⟩ := exec_next h
  have hclose := closeBit_sameRun habort hsame (account (beforeField r s b f) r.cls b g) fieldDone
  obtain ⟨out, pollCount, searchFrom, hfrom, rfl⟩ := hsame
  generalize ht : { s with out := out, run := { s.run with pollCount := pollCount, searchFrom := searchFrom } } = t
    at hclose ⊢
  have hreadyT : Ready t f b := by
    subst ht
    exact ⟨hready.mode, hready.ctx, hready.inCapture, hready.value⟩
  have hbefore : beforeField r t b f = beforeField r s b f := by subst ht; rfl
  refine ⟨_, ?_, hclose⟩
  rw [exec_eq_bitStep (frame?_of_mode hreadyT.mode hreadyT.ctx) hr, bitStep_ready r hreadyT, runField, hbefore, hact]

theorem searchStep_sameRun : SameRun (searchStep s) (searchStep t) := by
  obtain ⟨out, pollCount, searchFrom, hfrom, rfl⟩ := hsame
  have hedge : sofEdge { s with out := out, run := { s.run with pollCount := pollCount, searchFrom := searchFrom } } =
      sofEdge s := by
    simp only [sofEdge, hfrom]; rfl
  rw [searchStep_of_no_abort habort, searchStep_of_no_abort (by exact habort), hedge]
  cases sofEdge s with
  | none => exact ⟨_, _, _, hfrom, rfl⟩
  | some sof => exact ⟨_, _, _, hfrom, rfl⟩

theorem step_sameRun {s' : State} (h : step s = .next s') : ∃ t', step t = .next t' ∧ SameRun s' t' := by
  obtain ⟨hrun, hcases⟩ := step_next h
  have hsearch := searchStep_sameRun habort hsame
  have hbegin : SameRun (beginState s) (beginState t) := by
    obtain ⟨out, pollCount, searchFrom, hfrom, rfl⟩ := hsame
    exact ⟨out, pollCount, searchFrom, hfrom, rfl⟩
  have hexhaust : SameRun (exhaust s) (exhaust t) := by
    obtain ⟨out, pollCount, searchFrom, hfrom, rfl⟩ := hsame
    exact ⟨out, pollCount, searchFrom, hfrom, rfl⟩
  obtain ⟨hparams, hraw, hmodes, hctxs⟩ := hsame.registers
  have hrunT : t.runnable = true := by rw [State.runnable, hparams, hraw]; exact hrun
  rcases hcases with ⟨hmode, rfl⟩ | ⟨f, hmode, hctx, hcases⟩ <;> rw [← hmodes] at hmode
  · exact ⟨_, step_of_search hrunT hmode, hsearch⟩
  · rw [← hctxs] at hctx
    rw [← hparams] at hcases
    rcases hcases with ⟨hex, rfl⟩ | ⟨i, hex, hdec, hexec⟩
    · exact ⟨_, step_of_exhausted hrunT hmode hctx hex, hexhaust⟩
    · rw [step_of_role hrunT hmode hctx hex hdec]
      exact exec_sameRun (s := beginState s) habort hbegin hexec

end

/-- Runs of one length from states that agree up to what no step reads. -/
theorem run_sameRun {n : Nat} {s t s' : State} (habort : s.params.abortPolls = []) (hsame : SameRun s t)
    (h : Sys2Proof.core.run n s = .next s') : ∃ t', Sys2Proof.core.run n t = .next t' ∧ SameRun s' t' := by
  induction n generalizing s t with
  | zero => cases h; exact ⟨t, rfl, hsame⟩
  | succ n ih =>
    obtain ⟨u, hu, h⟩ := run_succ.mp h
    obtain ⟨v, hv, hsame⟩ := step_sameRun habort hsame hu
    obtain ⟨t', ht', hsame'⟩ := ih (by rw [(step_inputs hu).1]; exact habort) hsame h
    exact ⟨t', run_succ.mpr ⟨v, hv, ht'⟩, hsame'⟩

/-! ### A run that comes back to where it was -/

/-- A run in two parts. -/
theorem run_add {m n : Nat} {s t : State} :
    Sys2Proof.core.run (m + n) s = .next t ↔
      ∃ u, Sys2Proof.core.run m s = .next u ∧ Sys2Proof.core.run n u = .next t := by
  induction m generalizing s with
  | zero =>
    rw [Nat.zero_add]
    constructor
    · exact fun h => ⟨s, rfl, h⟩
    · rintro ⟨u, hu, h⟩
      cases hu
      exact h
  | succ m ih =>
    rw [Nat.succ_add]
    constructor
    · intro h
      obtain ⟨v, hv, h⟩ := run_succ.mp h
      obtain ⟨u, hu, h⟩ := ih.mp h
      exact ⟨u, run_succ.mpr ⟨v, hv, hu⟩, h⟩
    · rintro ⟨u, hu, h⟩
      obtain ⟨v, hv, hu⟩ := run_succ.mp hu
      exact run_succ.mpr ⟨v, hv, ih.mpr ⟨u, hu, h⟩⟩

/-- An ended run takes no further step (41_frame_fsm.md R77). -/
theorem run_succ_ne_next_of_done {n : Nat} {s t : State} (hdone : s.run.mode = .done) :
    Sys2Proof.core.run (n + 1) s ≠ .next t := by
  intro h
  obtain ⟨u, hu, -⟩ := run_succ.mp h
  obtain ⟨-, ⟨hmode, -⟩ | ⟨f, hmode, -⟩⟩ := step_next hu <;> rw [hdone] at hmode <;> cases hmode

/-- A run that comes back to its first state, up to what no step reads, goes on for ever. -/
theorem rounds_go_on {n : Nat} {s t : State} (habort : s.params.abortPolls = [])
    (hround : Sys2Proof.core.run n s = .next t) (hsame : SameRun s t) (m : Nat) :
    ∃ u, Sys2Proof.core.run (n * m) s = .next u ∧ SameRun s u := by
  induction m with
  | zero => exact ⟨s, rfl, .refl s⟩
  | succ m ih =>
    obtain ⟨u, hu, hsu⟩ := ih
    obtain ⟨v, hv, htv⟩ := run_sameRun habort hsu hround
    exact ⟨v, by rw [Nat.mul_succ]; exact run_add.mpr ⟨u, hu, hv⟩, hsame.trans htv⟩

theorem not_runEnds_of_round {n : Nat} {s t : State} (hn : 0 < n) (habort : s.params.abortPolls = [])
    (hround : Sys2Proof.core.run n s = .next t) (hsame : SameRun s t) : ¬ RunEnds s := by
  rintro ⟨k, u, hk, hdone⟩
  obtain ⟨v, hv, -⟩ := rounds_go_on habort hround hsame (k + 1)
  obtain ⟨rest, hrest⟩ := Nat.exists_eq_add_of_le (show k + 1 ≤ n * (k + 1) from Nat.le_mul_of_pos_left _ hn)
  rw [hrest, Nat.add_assoc, Nat.add_comm 1] at hv
  obtain ⟨u', hu', hv⟩ := run_add.mp hv
  cases hk.symm.trans hu'
  exact run_succ_ne_next_of_done hdone hv

/-! ### The frame shorter than half a sample -/

/-- Two samples, recessive and dominant, and bits of a thousandth of a sample: every bit of the frame found at sample 1
reads that sample, and the frame ends there after 52 bits. -/
def shortFrameRun : State :=
  .start { Params.initial with sampleCount := 2, spbStd := mkRat 1 1000, spbFd := mkRat 1 1000 } [(1, 0)]

/-- The outcome is a state that is `s` up to what no step reads. -/
def comesRound (s : State) : Host.Outcome State Fault Refusal → Bool
  | .next t =>
    decide (max 1 t.run.searchFrom = max 1 s.run.searchFrom) &&
      decide (t =
        { s with out := t.out, run := { s.run with pollCount := t.run.pollCount, searchFrom := t.run.searchFrom } })
  | .fault _ => false
  | .refused _ => false

theorem sameRun_of_comesRound {s : State} {o : Host.Outcome State Fault Refusal} (h : comesRound s o = true) :
    ∃ t, o = .next t ∧ SameRun s t := by
  cases o with
  | next t =>
    simp only [comesRound, Bool.and_eq_true, decide_eq_true_eq] at h
    exact ⟨t, rfl, t.out, t.run.pollCount, t.run.searchFrom, h⟩
  | fault | refused => cases h

/-- One search and 52 bits: the packet is emitted and the search resumes at the frame's own edge. -/
theorem shortFrameRun_comesRound : comesRound shortFrameRun (Sys2Proof.core.run 53 shortFrameRun) = true := by
  decide +kernel

theorem shortFrameRun_never_ends : ¬ RunEnds shortFrameRun := by
  obtain ⟨t, hround, hsame⟩ := sameRun_of_comesRound shortFrameRun_comesRound
  exact not_runEnds_of_round (by decide) rfl hround hsame

/-- Refutes O60: with samples 1, 0 and bits of a thousandth of a sample, the frame found at sample 1 ends at sample 1,
and every search after it finds it again. -/
theorem not_everyAcceptedRunEnds : ¬ Obligations.EveryAcceptedRunEnds := by
  intro h
  obtain ⟨n, t, hn, hdone, -⟩ := h shortFrameRun.params shortFrameRun.raw (by decide) (by decide)
  exact shortFrameRun_never_ends ⟨n, t, hn, hdone⟩

end Sys2Proof.Machine

/-! PROOFS. The bit of a frame that goes on, and the phase it leaves (41_frame_fsm.md R81, R83). -/

namespace Sys2Proof.Machine

open Sys2Proof.Safety

/-! ### The bit of a step within a frame -/

/-- What the field action of a bit of `f` runs on: the bit's record is the last of row 1, and else only timing and error
flags differ from `f` (41_frame_fsm.md R81). -/
def BitBegun (f e : Frame) : Prop :=
  ∃ timing record err,
    e = { f with timing := timing, err := err, notes := { f.notes with row1 := f.notes.row1 ++ [record] } }

theorem bitBegun_beforeField {i : Instr} {f : Frame} {r : RoleRule} (hr : roleRule i f = some r) (s : State) (b : Bool) :
    BitBegun f (beforeField r s b f) := by
  rw [beforeField_eq]
  rcases samplePointAction_cases hr s.params b with h | ⟨-, -, h⟩ | ⟨-, -, h⟩ <;> rw [h] <;> exact ⟨_, _, _, rfl⟩

/-- The bit of `f` that role `i` with rule `r` processed: its field action runs on `e` and leaves `e'`. -/
structure BitRun (f : Frame) (i : Instr) (r : RoleRule) (b : Bool) (e e' : Frame) : Prop where
  begun : BitBegun f e
  rule : ∃ f0, roleRule i f0 = some r
  action : ∃ fieldDone, r.fieldAction b e = .ok (e', fieldDone)
  layout : LayoutOk e
  selected : Selected e i
  noStuff : i ≠ .dstuff → isDynamicStuff f = false ∧ (i ≠ .fsb → isFixedStuff f = false)
  move : LayoutMove i b e e'

/-- A step within a frame processes a bit, and the frame that goes on is not finished. -/
theorem step_bitRun {s t : State} {f g : Frame} (hs : Inv s) (hctx : s.ctx = some f) (h : step s = .next t)
    (hg : t.ctx = some g) :
    ∃ i r b e e', BitRun f i r b e e' ∧ e'.phase ≠ .finished ∧ g = advance (account e r.cls b e') := by
  have hmode : s.run.mode = .frame := hs.coherent.ctxInFrame.mpr (by rw [hctx]; rfl)
  rcases step_next_frame hmode hctx h with rfl | ⟨i, r, b, e', fieldDone, hdec, -, hr, hact, rfl⟩
  · cases hg
  · obtain ⟨hends, rfl⟩ := closeBit_ctx hg
    have hbegun := layoutOk_begin (hs.layout f hctx) s.params
    obtain ⟨hsel, hclass⟩ := selected_of_decode (positionCounter_lt hbegun) hdec
    have hgoes := (frameEnds_false hends).1
    rw [account_phase] at hgoes
    refine ⟨i, r, b, _, e', ?_, hgoes, rfl⟩
    obtain ⟨timing, record, err, hbefore⟩ := bitBegun_beforeField hr (beginState s) b
    rw [hbefore] at hact ⊢
    have hlayout := layoutOk_retime hbegun f.bitStart timing
      { f.notes with row1 := f.notes.row1 ++ [record] } err
    have hselected := hsel.retime timing { f.notes with row1 := f.notes.row1 ++ [record] } err
    exact ⟨⟨timing, record, err, rfl⟩, ⟨_, hr⟩, ⟨fieldDone, hact⟩, hlayout, hselected, hclass,
      fieldAction_layoutMove hr hact rfl hlayout hselected⟩

/-- A stuff bit writes no layout register. -/
theorem stuffBit_keepsLayout {i : Instr} {f0 f g : Frame} {r : RoleRule} {b fieldDone : Bool}
    (hi : i = .dstuff ∨ i = .fsb) (hr : roleRule i f0 = some r) (hact : r.fieldAction b f = .ok (g, fieldDone)) :
    KeepsLayout f g := by
  rcases hi with rfl | rfl <;> cases hr <;> cases hact
  · have hcount : KeepsLayout f { f with stuff := { f.stuff with dynCount := f.stuff.dynCount + 1 } } :=
      ⟨rfl, rfl, rfl, rfl, rfl, rfl, rfl, rfl⟩
    exact hcount.trans (.setErrorIf ..)
  · exact .setErrorIf ..

/-- A bit is a stuff bit, which writes no layout register, or a field bit. -/
theorem BitRun.stuffBit_or_field {f e e' : Frame} {i : Instr} {r : RoleRule} {b : Bool} (h : BitRun f i r b e e') :
    KeepsLayout e e' ∨ (i ≠ .dstuff ∧ i ≠ .fsb ∧ classify f = .field) := by
  by_cases hi : i = .dstuff ∨ i = .fsb
  · obtain ⟨f0, hr⟩ := h.rule
    obtain ⟨fieldDone, hact⟩ := h.action
    exact .inl (stuffBit_keepsLayout hi hr hact)
  · obtain ⟨hdstuff, hfsb⟩ := not_or.mp hi
    obtain ⟨hdyn, hfix⟩ := h.noStuff hdstuff
    exact .inr ⟨hdstuff, hfsb, by simp [classify, hdyn, hfix hfsb]⟩

/-! ### The phase after a bit -/

/-- The changes of phase (41_frame_fsm.md R83), each with the bit and the condition it comes with. -/
inductive PhaseMove (f g : Frame) : Prop
  | stays (phase : g.phase = f.phase)
  | headerToData (phase : f.phase = .header) (next : g.phase = .data)
      (last : f.pos.h + 1 = headerLength f.flags.ide f.flags.fdf) (bytes : g.acc.nbytes ≠ 0)
      (rtr : g.flags.rtr = false)
  | headerToCrc (phase : f.phase = .header) (next : g.phase = .crc)
      (last : f.pos.h + 1 = headerLength f.flags.ide f.flags.fdf) (noData : g.acc.nbytes = 0 ∨ g.flags.rtr = true)
  | dataToCrc (phase : f.phase = .data) (next : g.phase = .crc) (last : f.pos.dbit + 1 = 8 * f.acc.nbytes)
      (stored : g.acc.data.length = g.acc.nbytes)
  | crcToTrailer (phase : f.phase = .crc) (next : g.phase = .trailer) (last : f.pos.j + 1 = crcLength f)
  | finishes (phase : f.phase = .trailer) (next : g.phase = .finished)

/-- The end of the header enters DATA or CRC (42_header.md R97). -/
theorem phaseMove_headerEnd {f g : Frame} {dlcAcc : BitVec 4} (hphase : f.phase = .header)
    (hlast : f.pos.h + 1 = headerLength f.flags.ide f.flags.fdf)
    (hkeeps : KeepsLayout (headerComplete { f with acc := { f.acc with dlcAcc := dlcAcc } }) g) : PhaseMove f g := by
  by_cases hcrc : byteCount f.flags.fdf dlcAcc = 0 ∨ f.flags.rtr = true
  · rw [headerComplete_crc hcrc] at hkeeps
    exact .headerToCrc hphase hkeeps.phase hlast (by rw [hkeeps.nbytes, hkeeps.flags]; exact hcrc)
  · obtain ⟨hbytes, hrtr⟩ := not_or.mp hcrc
    rw [headerComplete_data (f := { f with acc := { f.acc with dlcAcc := dlcAcc } }) hbytes (by simpa using hrtr)]
      at hkeeps
    exact .headerToData hphase hkeeps.phase hlast (by rw [hkeeps.nbytes]; exact hbytes)
      (by rw [hkeeps.flags]; simpa using hrtr)

/-- The end of the last data byte enters CRC, the end of another stays in DATA (43_data_crc_trailer.md R98). -/
theorem phaseMove_byteEnd {f g : Frame} {byte : Byte} (hf : LayoutOk f) (hphase : f.phase = .data)
    (hlast : f.pos.dbit % 8 = 7)
    (hkeeps : KeepsLayout
      (byteComplete
        { f with pos := { f.pos with dbit := f.pos.dbit + 1 }, acc := { f.acc with byteAcc := byte } }) g) :
    PhaseMove f g := by
  obtain ⟨-, hlength, -⟩ := hf.dataRange hphase
  unfold byteComplete at hkeeps
  dsimp only at hkeeps
  split at hkeeps
  · rename_i hall
    have hall : f.acc.data.length + 1 = f.acc.nbytes := by simpa using hall
    exact .dataToCrc hphase hkeeps.phase (by omega)
      (by rw [hkeeps.data, hkeeps.nbytes]; simpa [crcEntry] using hall)
  · exact .stays hkeeps.phase

/-- Every bit moves the phase by one of the changes of R83, or not at all. -/
theorem LayoutMove.phaseMove {i : Instr} {b : Bool} {f g : Frame} (hmove : LayoutMove i b f g) (hf : LayoutOk f) :
    PhaseMove f g := by
  cases hmove with
  | stuffBit role keeps => exact .stays keeps.phase
  | headerBit flags dlcAcc phase inside flagsOk brs keeps => exact .stays keeps.phase
  | headerEnd dlcAcc phase last keeps => exact phaseMove_headerEnd phase last keeps
  | dataBit phase inside keeps => exact .stays keeps.phase
  | byteEnd byte phase last keeps => exact phaseMove_byteEnd hf phase last keeps
  | crcBit role phase inside keeps => exact .stays keeps.phase
  | crcEnd phase last keeps => exact .crcToTrailer phase keeps.phase last
  | trailerBit ack phase role keeps =>
    have hnext := keeps.phase.trans (finishTrailer_phase _)
    split at hnext
    · exact .finishes phase hnext
    · exact .stays hnext

/-- No change of phase goes back. -/
theorem PhaseMove.rank_le {f g : Frame} (h : PhaseMove f g) : phaseRank f.phase ≤ phaseRank g.phase := by
  cases h with
  | stays phase => rw [phase]
  | headerToData phase next | headerToCrc phase next | dataToCrc phase next | crcToTrailer phase next
  | finishes phase next => rw [phase, next]; decide

/-- The last bit of the CRC phase, by its position. -/
theorem last_crc_position {f : Frame} (hlast : f.pos.j + 1 = crcLength f) :
    f.pos.j = if f.flags.fdf then 3 + (crcSelect true f.acc.nbytes).bits else 14 := by
  unfold crcLength at hlast
  split <;> rename_i hfdf
  · rw [if_pos hfdf] at hlast; omega
  · rw [if_neg hfdf] at hlast; omega

/-- The header lengths of R49. -/
theorem headerLength_eq (ide fdf : Bool) :
    headerLength ide fdf = if ide then (if fdf then 41 else 39) else (if fdf then 22 else 19) := by
  cases ide <;> cases fdf <;> rfl

/-- Settles O56: a stuff bit keeps the phase, and a field bit moves it by a change of R83. -/
theorem phasesOnlyMoveForward : Obligations.PhasesOnlyMoveForward := by
  intro s t f g hs hctx h hg
  obtain ⟨i, r, b, e, e', hrun, hgoes, rfl⟩ := step_bitRun hs hctx h hg
  have hmove := hrun.move.phaseMove hrun.layout
  have hfield := hrun.stuffBit_or_field
  obtain ⟨timing, record, err, rfl⟩ := hrun.begun
  dsimp only
  rw [← headerLength_eq]
  refine ⟨hmove.rank_le, fun hne => ?_⟩
  have hclass := (hfield.resolve_left fun hkeeps => hne hkeeps.phase.symm).2.2
  refine ⟨hclass, ?_⟩
  cases hmove with
  | stays phase => exact absurd phase.symm hne
  | headerToData phase next last bytes rtr => exact .inl ⟨phase, last, .inl ⟨next, bytes, rtr⟩⟩
  | headerToCrc phase next last noData => exact .inl ⟨phase, last, .inr ⟨next, noData⟩⟩
  | dataToCrc phase next last stored => exact .inr (.inl ⟨phase, next, last, stored⟩)
  | crcToTrailer phase next last => exact .inr (.inr ⟨phase, next, last_crc_position last⟩)
  | finishes phase next => exact absurd next hgoes

end Sys2Proof.Machine

/-! PROOFS. The references into the annotation rows (10_state.md R23, R29). -/

namespace Sys2Proof.Machine

open Sys2Proof.Safety

/-! ### What keeps a reference -/

/-- A reference into a row of `n` records that becomes `ref'` into a row of `n'`: it is not lost, and it still names a
record if it did. -/
structure RefKept (ref : Option Nat) (n : Nat) (ref' : Option Nat) (n' : Nat) : Prop where
  known : ref.isSome = true → ref'.isSome = true
  bounded : (∀ i, ref = some i → i < n) → ∀ i, ref' = some i → i < n'

namespace RefKept

theorem grow (ref : Option Nat) {n n' : Nat} (h : n ≤ n') : RefKept ref n ref n' :=
  ⟨id, fun hn i hi => (hn i hi).trans_le h⟩

theorem store (ref : Option Nat) (n : Nat) {i n' : Nat} (h : i < n') : RefKept ref n (some i) n' :=
  ⟨fun _ => rfl, fun _ j hj => by cases hj; exact h⟩

theorem trans {ref ref' ref'' : Option Nat} {n n' n'' : Nat} (a : RefKept ref n ref' n')
    (b : RefKept ref' n' ref'' n'') : RefKept ref n ref'' n'' :=
  ⟨fun h => b.known (a.known h), fun h => b.bounded (a.bounded h)⟩

end RefKept

/-- The four references of the frame context are kept. -/
structure RefsKept (f g : Frame) : Prop where
  a12 : RefKept f.prov.a12 f.notes.row1.length g.prov.a12 g.notes.row1.length
  a32 : RefKept f.prov.a32 f.notes.row1.length g.prov.a32 g.notes.row1.length
  curField : RefKept f.notes.curField f.notes.row2.length g.notes.curField g.notes.row2.length
  stcField : RefKept f.notes.stcField f.notes.row2.length g.notes.stcField g.notes.row2.length

/-- The notes differ in the contents of their records only. -/
structure SameRefs (n m : Notes) : Prop where
  row1 : m.row1.length = n.row1.length
  row2 : m.row2.length = n.row2.length
  curField : m.curField = n.curField
  stcField : m.stcField = n.stcField

theorem SameRefs.changeBit (ref : Option Nat) (change : BitRecord → BitRecord) (n : Notes) :
    SameRefs n (n.changeBit ref change) := by
  cases ref with
  | none => exact ⟨rfl, rfl, rfl, rfl⟩
  | some i => exact ⟨List.length_modify .., rfl, rfl, rfl⟩

theorem SameRefs.changeField (ref : Option Nat) (change : FieldRecord → FieldRecord) (n : Notes) :
    SameRefs n (n.changeField ref change) := by
  cases ref with
  | none => exact ⟨rfl, rfl, rfl, rfl⟩
  | some i => exact ⟨rfl, List.length_modify .., rfl, rfl⟩

theorem SameRefs.renameIds (n : Notes) : SameRefs n n.renameIds := ⟨List.length_map .., rfl, rfl, rfl⟩

namespace RefsKept

theorem trans {f g h : Frame} (a : RefsKept f g) (b : RefsKept g h) : RefsKept f h :=
  ⟨a.a12.trans b.a12, a.a32.trans b.a32, a.curField.trans b.curField, a.stcField.trans b.stcField⟩

/-- `trans` with the last part first. -/
theorem after {f g h : Frame} (b : RefsKept g h) (a : RefsKept f g) : RefsKept f h := a.trans b

/-- A change of the contents of records, and of registers that hold no reference. -/
theorem renote {f g : Frame} (hprov : g.prov = f.prov) (hnotes : SameRefs f.notes g.notes) : RefsKept f g := by
  constructor <;> simp only [hprov, hnotes.row1, hnotes.row2, hnotes.curField, hnotes.stcField] <;>
    exact .grow _ le_rfl

theorem refl (f : Frame) : RefsKept f f := renote rfl ⟨rfl, rfl, rfl, rfl⟩

/-- A change of registers that hold no reference. -/
theorem write (f : Frame) (phase : Phase) (pos : Position) (flags : FrameFlags) (acc : Accumulators)
    (stuff : StuffState) (hist : List (Bool × HistClass)) :
    RefsKept f { f with phase := phase, pos := pos, flags := flags, acc := acc, stuff := stuff, hist := hist } :=
  renote rfl ⟨rfl, rfl, rfl, rfl⟩

theorem ite {c : Prop} [Decidable c] {f g h : Frame} (hg : RefsKept f g) (hh : RefsKept f h) :
    RefsKept f (if c then g else h) := by
  split
  · exact hg
  · exact hh

theorem setErrorIf (c : Bool) (e : ErrorFlag) {mark : Notes → Notes} (f : Frame) (h : SameRefs f.notes (mark f.notes)) :
    RefsKept f (setErrorIf c e mark f) := .ite (.renote rfl h) (.refl f)

theorem openField (kind : FieldKind) (index : Option Nat) (value : Nat) (f : Frame) :
    RefsKept f (openField kind index value f) := by
  unfold Machine.openField
  split
  · exact .refl f
  · exact ⟨.grow _ le_rfl, .grow _ le_rfl, .store _ _ (by simp), .grow _ (by simp)⟩

theorem extendField (value : Nat) (f : Frame) : RefsKept f (extendField value f) := by
  unfold Machine.extendField
  split
  · exact .refl f
  · exact .renote rfl (.changeField ..)

/-! ### The operations of the roles -/

theorem nextHeaderBit (f : Frame) : RefsKept f (nextHeaderBit f) := .ite (.write _ ..) (.refl f)

theorem idBit (first b : Bool) (f : Frame) : RefsKept f (idBit first b f) :=
  .ite (.after (.openField ..) (.write f ..)) (.after (.extendField ..) (.write f ..))

theorem ideExtended (f : Frame) : RefsKept f (ideExtended f) :=
  have renamed : RefsKept f
      { f with flags := { f.flags with rtr := false }, notes := f.notes.renameBit f.prov.a12 .srr } :=
    .renote rfl (.changeBit ..)
  have checked := renamed.trans (.setErrorIf (!f.prov.b12) .bitStatus _ (.changeBit f.prov.a12 Annotation.marked _))
  checked.trans (.renote rfl (.renameIds _))

theorem fdfAction (b : Bool) (f : Frame) : RefsKept f (fdfAction b f) :=
  .ite (.renote rfl (.changeBit ..)) (.write _ ..)

theorem dlcBit (b : Bool) (f : Frame) : RefsKept f (dlcBit b f) :=
  .ite (.after (.openField ..) (.write f ..)) (.after (.extendField ..) (.write f ..))

theorem headerComplete (f : Frame) : RefsKept f (headerComplete f) := .ite (.write _ ..) (.write _ ..)

theorem dataBit (b : Bool) (f : Frame) : RefsKept f (dataBit b f) := by
  unfold Machine.dataBit
  dsimp only
  split
  · exact .trans (.after (.openField ..) (.write f ..)) (.write _ ..)
  · exact .trans (.after (.extendField ..) (.write f ..)) (.write _ ..)

theorem byteComplete (f : Frame) : RefsKept f (byteComplete f) := .ite (.write _ ..) (.write _ ..)

theorem crcBit (first b : Bool) (f : Frame) : RefsKept f (crcBit first b f) :=
  .ite (.after (.openField ..) (.write f ..)) (.after (.extendField ..) (.write f ..))

theorem crcComplete (w : CrcWidth) (f : Frame) : RefsKept f (crcComplete w f) := by
  have checked : RefsKept f (crcCheck (crcOver w (crcInput f.flags.fdf f.hist)) f) :=
    .after (.setErrorIf _ _ _ (.changeField ..)) (.write f ..)
  have counted := checked.trans (.setErrorIf _ _ _ (.changeField ..) : RefsKept _ (stuffCountCheck _))
  exact counted.trans (.write _ ..)

theorem finishCrcBit {last fieldDone : Bool} {f g : Frame} (h : finishCrcBit last f = .ok (g, fieldDone)) :
    RefsKept f g := by
  rcases finishCrcBit_ok h with ⟨-, rfl⟩ | ⟨-, w, rfl⟩
  · exact .refl _
  · exact .crcComplete w f

theorem expectRecessive (b : Bool) (f : Frame) : RefsKept f (expectRecessive b f) := .setErrorIf _ _ _ (.changeBit ..)

theorem ackBit (b : Bool) (f : Frame) : RefsKept f (ackBit b f) := .ite (.renote rfl (.changeBit ..)) (.write _ ..)

theorem finishTrailer (f : Frame) : RefsKept f (finishTrailer f) := .ite (.write _ ..) (.refl f)

end RefsKept

/-! ### References to the bit's own record and to the field it opens -/

section

variable {f : Frame} {row : List BitRecord} {a : BitRecord} (hlast : f.notes.row1 = row ++ [a])

include hlast

/-- The current bit's record is the last of row 1. -/
theorem currentBit_of_last : f.notes.currentBit = some row.length := by simp [Notes.currentBit, hlast]

/-- A provisional bit's record exists (42_header.md R89, R96). -/
theorem refKept_currentBit (ref : Option Nat) (n : Nat) : RefKept ref n f.notes.currentBit f.notes.row1.length := by
  rw [currentBit_of_last hlast, hlast]
  exact .store _ _ (by simp)

/-- An opened field is the current one. -/
theorem openField_curField (kind : FieldKind) (index : Option Nat) (value : Nat) :
    (openField kind index value f).notes.curField = some f.notes.row2.length := by
  rw [openField_of_last hlast]

/-- The first identifier bit opens a field (42_header.md R88). -/
theorem idBit_opens (b : Bool) : (idBit true b f).notes.curField = some f.notes.row2.length :=
  openField_curField (f := { f with acc := { f.acc with idAcc := shiftIn f.acc.idAcc b } }) hlast ..

/-- A stuff-count bit; the first opens the field that `stcField` names (43_data_crc_trailer.md R101). -/
theorem stcBit_opens (b : Bool) (hj : f.pos.j = 0) : (stcBit b f).notes.stcField = some f.notes.row2.length := by
  unfold stcBit
  rw [if_pos (by simp [hj])]
  exact openField_curField (f := { f with acc := { f.acc with stc := shiftIn f.acc.stc b } }) hlast ..

theorem RefsKept.stcBit (b : Bool) : RefsKept f (stcBit b f) := by
  have hopen := openField_of_last (f := { f with acc := { f.acc with stc := shiftIn f.acc.stc b } }) hlast .stc none
  unfold Machine.stcBit
  dsimp only
  split
  · rw [hopen]
    exact ⟨.grow _ le_rfl, .grow _ le_rfl, .store _ _ (by simp), .store _ _ (by simp)⟩
  · exact .after (.extendField ..) (.write f ..)

/-- No role's field action loses a reference or lets it name no record. -/
theorem fieldAction_refsKept {i : Instr} {f0 g : Frame} {r : RoleRule} {b fieldDone : Bool}
    (hr : roleRule i f0 = some r) (h : r.fieldAction b f = .ok (g, fieldDone)) : RefsKept f g := by
  cases i
  case dstuff => cases hr; cases h; exact .after (.setErrorIf _ _ _ (.changeBit ..)) (.write f ..)
  case fsb => cases hr; cases h; exact .setErrorIf _ _ _ (.changeBit ..)
  case sof | resF11 | resE => cases hr; cases h; exact .nextHeaderBit f
  case id | idx => cases hr; cases h; exact .trans (.idBit ..) (.nextHeaderBit _)
  case b12 =>
    cases hr; cases h
    exact .after (.nextHeaderBit _)
      ⟨refKept_currentBit hlast _ _, .grow _ le_rfl, .grow _ le_rfl, .grow _ le_rfl⟩
  case b32 =>
    cases hr; cases h
    exact .after (.nextHeaderBit _)
      ⟨.grow _ le_rfl, refKept_currentBit hlast _ _, .grow _ le_rfl, .grow _ le_rfl⟩
  case ide =>
    cases hr; cases h
    exact .after (.nextHeaderBit _) (.ite (.after (.ideExtended _) (.write f ..)) (.write f ..))
  case fdfB | fdfE => cases hr; cases h; exact .trans (.fdfAction ..) (.nextHeaderBit _)
  case brsF11 | brsF29 | esiF11 | esiF29 => cases hr; cases h; exact .after (.nextHeaderBit _) (.write f ..)
  case dlcC11 | dlcF11 | dlcC29 | dlcF29 =>
    cases hr
    rw [dlcRule_fieldAction] at h
    split at h <;> cases h
    · exact .trans (.dlcBit ..) (.trans (.headerComplete _) (.nextHeaderBit _))
    · exact .trans (.dlcBit ..) (.nextHeaderBit _)
  case data =>
    cases hr
    rw [dataRule_fieldAction] at h
    split at h <;> cases h
    · exact .trans (.dataBit ..) (.byteComplete _)
    · exact .dataBit ..
  case crcC =>
    cases hr
    rw [crcCRule_fieldAction] at h
    exact .trans (.crcBit ..) (.trans (.write _ ..) (.finishCrcBit h))
  case crcFd =>
    simp only [roleRule, Option.map_eq_some_iff] at hr
    obtain ⟨w, -, rfl⟩ := hr
    rw [crcFdRule_fieldAction] at h
    exact .trans (.crcBit ..) (.trans (.write _ ..) (.finishCrcBit h))
  case stc =>
    cases hr; cases h
    exact .trans (.after (.stcBit (f := recordPayload b f) hlast b) (.write f ..)) (.write _ ..)
  case par => cases hr; cases h; exact .trans (.after (.extendField ..) (.write f ..)) (.write _ ..)
  case dl1 | dl2 => cases hr; cases h; exact .trans (.expectRecessive ..) (.write _ ..)
  case ack => cases hr; cases h; exact .trans (.ackBit ..) (.write _ ..)
  case eof => cases hr; cases h; exact .trans (.expectRecessive ..) (.trans (.write _ ..) (.finishTrailer _))

/-! ### The bits that store a reference -/

variable {g : Frame} {b fieldDone : Bool}

/-- B12 keeps the reference to its record (42_header.md R89). -/
theorem b12_stores_a12 (h : b12Rule.fieldAction b f = .ok (g, fieldDone)) : g.prov.a12.isSome = true := by
  cases h
  exact (RefsKept.nextHeaderBit _).a12.known (by simp [currentBit_of_last hlast])

/-- B32 keeps the reference to its record (42_header.md R96). -/
theorem b32_stores_a32 (h : b32Rule.fieldAction b f = .ok (g, fieldDone)) : g.prov.a32.isSome = true := by
  cases h
  exact (RefsKept.nextHeaderBit _).a32.known (by simp [currentBit_of_last hlast])

/-- ID at position 1 opens a field (42_header.md R88). -/
theorem id_opens_field (hpos : f.pos.h = 1) (h : idRule.fieldAction b f = .ok (g, fieldDone)) :
    g.notes.curField.isSome = true := by
  cases h
  exact (RefsKept.nextHeaderBit _).curField.known (by simp [hpos, idBit_opens hlast])

/-- STC at `j = 0` opens the stuff-count field (43_data_crc_trailer.md R101). -/
theorem stc_opens_stcField (hj : f.pos.j = 0) (h : stcRule.fieldAction b f = .ok (g, fieldDone)) :
    g.notes.stcField.isSome = true := by
  cases h
  exact Option.isSome_of_eq_some (stcBit_opens (f := recordPayload b f) hlast b hj)

end

/-! ### Where a bit passes the position of a reference -/

/-- The roles at the positions whose bit stores a reference. -/
theorem Selected.role_of_header {f : Frame} {i : Instr} (hsel : Selected f i) (hfield : i ≠ .dstuff ∧ i ≠ .fsb)
    (hphase : f.phase = .header) :
    (f.pos.h = 1 → ∃ index, i = .id index) ∧ (f.pos.h = 12 → i = .b12) ∧ (f.pos.h = 32 → i = .b32) := by
  cases i <;> simp [Selected, hphase] at hsel hfield ⊢ <;> omega

theorem Selected.role_of_crc {f : Frame} {i : Instr} (hsel : Selected f i) (hfield : i ≠ .dstuff ∧ i ≠ .fsb)
    (hphase : f.phase = .crc) (hfdf : f.flags.fdf = true) (hj : f.pos.j = 0) : ∃ index, i = .stc index := by
  cases i <;> simp [Selected, hphase, hfdf, hj] at hsel hfield ⊢

theorem headerComplete_h (f : Frame) : (headerComplete f).pos.h = f.pos.h := by
  unfold headerComplete; dsimp only; split <;> rfl

theorem byteComplete_h (f : Frame) : (byteComplete f).pos.h = f.pos.h := by
  unfold byteComplete; dsimp only; split <;> rfl

theorem finishTrailer_pos (f : Frame) : (finishTrailer f).pos = f.pos := by
  unfold finishTrailer; split <;> rfl

theorem headerComplete_j_le (f : Frame) : (headerComplete f).pos.j ≤ f.pos.j := by
  unfold headerComplete; dsimp only; split
  · exact Nat.zero_le _
  · exact le_rfl

theorem byteComplete_j_le (f : Frame) : (byteComplete f).pos.j ≤ f.pos.j := by
  unfold byteComplete; dsimp only; split
  · exact Nat.zero_le _
  · exact le_rfl

/-- The header position moves by one bit in the header, and not else (42_header.md R86). -/
theorem LayoutMove.header_position {i : Instr} {b : Bool} {f g : Frame} (hmove : LayoutMove i b f g) :
    g.pos.h = f.pos.h ∨ (f.phase = .header ∧ g.pos.h = f.pos.h + 1) := by
  cases hmove with
  | stuffBit role keeps => exact .inl (by rw [keeps.pos])
  | headerBit flags dlcAcc phase inside flagsOk brs keeps => exact .inr ⟨phase, by rw [keeps.pos]⟩
  | headerEnd dlcAcc phase last keeps => exact .inl (by rw [keeps.pos, headerComplete_h])
  | dataBit phase inside keeps => exact .inl (by rw [keeps.pos])
  | byteEnd byte phase last keeps => exact .inl (by rw [keeps.pos, byteComplete_h])
  | crcBit role phase inside keeps => exact .inl (by rw [keeps.pos]; rfl)
  | crcEnd phase last keeps => exact .inl (by rw [keeps.pos]; rfl)
  | trailerBit ack phase role keeps => exact .inl (by rw [keeps.pos, finishTrailer_pos]; rfl)

/-- The CRC phase is entered at `j = 0`, and a bit of it moves `j` by at most one (43_data_crc_trailer.md R99 to
R103). -/
theorem LayoutMove.crc_position {i : Instr} {b : Bool} {f g : Frame} (hmove : LayoutMove i b f g) (hf : LayoutOk f)
    (hphase : g.phase = .crc) (hj : 1 ≤ g.pos.j) :
    f.phase = .crc ∧ g.flags.fdf = f.flags.fdf ∧ g.pos.j ≤ f.pos.j + 1 := by
  cases hmove with
  | stuffBit role keeps => exact ⟨keeps.phase.symm.trans hphase, by rw [keeps.flags], by rw [keeps.pos]; omega⟩
  | headerBit flags dlcAcc phase inside flagsOk brs keeps =>
    exact absurd (keeps.phase.symm.trans hphase) (by simp [phase])
  | headerEnd dlcAcc phase last keeps =>
    have hzero := (hf.beforeCrc (.inl phase)).1
    rw [keeps.pos] at hj
    exact absurd (hj.trans (headerComplete_j_le _)) (by simp [hzero])
  | dataBit phase inside keeps => exact absurd (keeps.phase.symm.trans hphase) (by simp [phase])
  | byteEnd byte phase last keeps =>
    have hzero := (hf.beforeCrc (.inr phase)).1
    rw [keeps.pos] at hj
    exact absurd (hj.trans (byteComplete_j_le _)) (by simp [hzero])
  | crcBit role phase inside keeps => exact ⟨phase, by rw [keeps.flags]; rfl, by rw [keeps.pos]; rfl⟩
  | crcEnd phase last keeps => exact absurd (keeps.phase.symm.trans hphase) (by simp [enterTrailer])
  | trailerBit ack phase role keeps =>
    have hnext := keeps.phase.symm.trans hphase
    rw [finishTrailer_phase] at hnext
    split at hnext
    · cases hnext
    · exact absurd hnext (by simp [nextTrailerBit, phase])

/-- Header positions from 22 on are those of a 29-bit frame (30_encoding.md R49). -/
theorem ide_of_header_position {f : Frame} (hf : LayoutOk f) (h : 22 ≤ f.pos.h) : f.flags.ide = true := by
  by_contra hide
  have hide : f.flags.ide = false := by simpa using hide
  have hlen : headerLength f.flags.ide f.flags.fdf ≤ 22 := by rw [hide]; cases f.flags.fdf <;> decide
  by_cases hphase : f.phase = .header
  · have := hf.headerRange hphase; omega
  · have := hf.headerKept hphase; omega

section

variable {f e e' : Frame} {i : Instr} {r : RoleRule} {b : Bool} (h : BitRun f i r b e e')

include h

/-- The bit that passes a header position is the field bit at that position. -/
theorem BitRun.passes_header_position {n : Nat} (hn : n + 1 ≤ e'.pos.h) :
    n + 1 ≤ e.pos.h ∨ (e.phase = .header ∧ e.pos.h = n ∧ i ≠ .dstuff ∧ i ≠ .fsb) := by
  rcases h.stuffBit_or_field with hkeeps | ⟨hdstuff, hfsb, -⟩
  · exact .inl (by rw [← hkeeps.pos]; exact hn)
  · rcases h.move.header_position with hsame | ⟨hphase, hnext⟩
    · exact .inl (hsame ▸ hn)
    · by_cases hpos : e.pos.h = n
      · exact .inr ⟨hphase, hpos, hdstuff, hfsb⟩
      · exact .inl (by omega)

/-- The bit that passes `j = 0` of the CRC phase is the field bit there. -/
theorem BitRun.passes_crc_start (hphase : e'.phase = .crc) (hj : 1 ≤ e'.pos.j) :
    e.phase = .crc ∧ e'.flags.fdf = e.flags.fdf ∧ (1 ≤ e.pos.j ∨ (e.pos.j = 0 ∧ i ≠ .dstuff ∧ i ≠ .fsb)) := by
  obtain ⟨hcrc, hfdf, -⟩ := h.move.crc_position h.layout hphase hj
  refine ⟨hcrc, hfdf, ?_⟩
  rcases h.stuffBit_or_field with hkeeps | ⟨hdstuff, hfsb, -⟩
  · exact .inl (by rw [← hkeeps.pos]; exact hj)
  · by_cases hzero : e.pos.j = 0
    · exact .inr ⟨hzero, hdstuff, hfsb⟩
    · exact .inl (Nat.one_le_iff_ne_zero.mpr hzero)

/-- The row-1 record of the bit is the last one when the field action begins. -/
theorem BitRun.last : ∃ row a, e.notes.row1 = row ++ [a] := by
  obtain ⟨timing, record, err, rfl⟩ := h.begun
  exact ⟨_, _, rfl⟩

/-- The references when the field action begins. -/
theorem BitRun.refsOk_begun (hf : RefsOk f) : RefsOk e := by
  obtain ⟨timing, record, err, rfl⟩ := h.begun
  have hle : f.notes.row1.length ≤ (f.notes.row1 ++ [record]).length := by simp
  exact
    { hf with
      a12 := fun i hi => (hf.a12 i hi).trans_le hle
      a32 := fun i hi => (hf.a32 i hi).trans_le hle }

/-- A bit keeps the references valid. -/
theorem BitRun.refsOk (hf : RefsOk f) : RefsOk e' := by
  have he := h.refsOk_begun hf
  obtain ⟨row, a, hlast⟩ := h.last
  obtain ⟨f0, hr⟩ := h.rule
  obtain ⟨fieldDone, hact⟩ := h.action
  have hkept := fieldAction_refsKept hlast hr hact
  refine
    { a12 := hkept.a12.bounded he.a12
      a32 := hkept.a32.bounded he.a32
      curField := hkept.curField.bounded he.curField
      stcField := hkept.stcField.bounded he.stcField
      a12Known := fun hpos => ?_
      a32Known := fun _ hpos => ?_
      fieldOpen := fun hpos => ?_
      stcOpen := fun hphase hfdf hj => ?_ }
  · rcases h.passes_header_position hpos with hle | ⟨hphase, hh, hfield⟩
    · exact hkept.a12.known (he.a12Known hle)
    · obtain rfl := (h.selected.role_of_header hfield hphase).2.1 hh
      cases hr
      exact b12_stores_a12 hlast hact
  · rcases h.passes_header_position hpos with hle | ⟨hphase, hh, hfield⟩
    · exact hkept.a32.known (he.a32Known (ide_of_header_position h.layout (by omega)) hle)
    · obtain rfl := (h.selected.role_of_header hfield hphase).2.2 hh
      cases hr
      exact b32_stores_a32 hlast hact
  · rcases h.passes_header_position hpos with hle | ⟨hphase, hh, hfield⟩
    · exact hkept.curField.known (he.fieldOpen hle)
    · obtain ⟨index, rfl⟩ := (h.selected.role_of_header hfield hphase).1 hh
      cases hr
      exact id_opens_field hlast hh hact
  · obtain ⟨hcrc, hsame, hle | ⟨hzero, hfield⟩⟩ := h.passes_crc_start hphase hj
    · exact hkept.stcField.known (he.stcOpen hcrc (hsame ▸ hfdf) hle)
    · obtain ⟨index, rfl⟩ := h.selected.role_of_crc hfield hcrc (hsame ▸ hfdf) hzero
      cases hr
      exact stc_opens_stcField hlast hzero hact

end

/-- The bookkeeping of a bit and the advance to the next one leave the references alone. -/
theorem refsOk_nextBit {g : Frame} (hg : RefsOk g) (f : Frame) (cls : BitClass) (b : Bool) :
    RefsOk (advance (account f cls b g)) :=
  ⟨hg.a12, hg.a32, hg.curField, hg.stcField, hg.a12Known, hg.a32Known, hg.fieldOpen, hg.stcOpen⟩

/-- A frame at its start of frame has no references (70_reset_and_hazards.md R145). -/
theorem refsOk_frameReset (sof : Nat) : RefsOk (frameReset sof) := by constructor <;> simp [frameReset]

/-- Settles O53: no field action loses a reference, and the bit at the position from which a reference must exist
stores it. -/
theorem stepsKeepTheReferencesValid : Obligations.StepsKeepTheReferencesValid := by
  intro s t hs hrefs h g hg
  obtain ⟨-, ⟨-, rfl⟩ | ⟨f, -, hctx, -⟩⟩ := step_next h
  · rcases searchStep_cases s with ⟨-, h⟩ | ⟨-, -, h⟩ | ⟨sof, -, -, h⟩ <;> rw [h] at hg <;> cases hg
    exact refsOk_frameReset sof
  · obtain ⟨i, r, b, e, e', hrun, -, rfl⟩ := step_bitRun hs hctx h hg
    exact refsOk_nextBit (hrun.refsOk (hrefs f hctx)) e r.cls b

end Sys2Proof.Machine

/-! PROOFS. The dispatch key and the role table (30_encoding.md R57, R58). -/

namespace Sys2Proof.Machine

open Sys2Proof.Safety

/-! ### The row of a role -/

/-- The row of a role: the roles are declared in the order of the role table (30_encoding.md R58). -/
def roleRow (i : Instr) : RoleRow :=
  roleTable[i.ctorIdx]'(by cases i <;> exact of_decide_eq_true rfl)

theorem roleRow_mem (i : Instr) : roleRow i ∈ roleTable := List.getElem_mem _

/-- The pattern of a row lies inside its mask, and the mask leaves the index bits out. -/
theorem pattern_and_mask_of_mem : ∀ r ∈ roleTable, r.pattern &&& r.mask = r.pattern ∧ r.mask &&& 0x3F = 0 := by
  simp [roleTable, stuffingRows, headerRows11, headerRows29, tailRows]

theorem index_keyOf {pattern : Key} (index : KeyIndex) (h : pattern.setWidth 6 = 0#6) :
    Key.index (keyOf pattern index) = index := index_or pattern index h

/-- A role's own key is its row's pattern with an index. -/
theorem encode_eq_keyOf (i : Instr) : ∃ index, encode i = keyOf (roleRow i).pattern index := by
  cases i <;> exact ⟨_, rfl⟩

/-- A role's own key has the fixed bits of its row. -/
theorem encode_and_mask (i : Instr) : encode i &&& (roleRow i).mask = (roleRow i).pattern := by
  obtain ⟨index, hkey⟩ := encode_eq_keyOf i
  obtain ⟨hpattern, hmask⟩ := pattern_and_mask_of_mem _ (roleRow_mem i)
  rw [hkey, keyOf, and_mask _ _ _ hmask, hpattern]

/-- The row of a role gives the role at the index of the role's own key. -/
theorem roleRow_role (i : Instr) : (roleRow i).role (Key.index (encode i)) = i := by
  cases i
  case id n | dlcC11 n | dlcF11 n | idx n | dlcC29 n | dlcF29 n | data n | crcC n | stc n | crcFd n | eof n =>
    exact congrArg _ (index_keyOf n rfl)
  all_goals rfl

/-- A role is well formed exactly when the index of its own key is in the range of its row. -/
theorem wf_eq_within (i : Instr) : i.wf = KeyIndex.within (Key.index (encode i)) (roleRow i).lo (roleRow i).hi := by
  cases i
  case id n | dlcC11 n | dlcF11 n | idx n | dlcC29 n | dlcF29 n | data n | crcC n | stc n | crcFd n | eof n =>
    exact congrArg (KeyIndex.within · _ _) (index_keyOf n rfl).symm
  all_goals rfl

theorem accepts_iff {r : RoleRow} {k : Key} :
    r.accepts k = true ↔ k &&& r.mask = r.pattern ∧ KeyIndex.within (Key.index k) r.lo r.hi = true := by
  rw [RoleRow.accepts, Bool.and_eq_true, beq_iff_eq]

/-- Only one row gives a role, at whatever index. -/
theorem eq_roleRow {r : RoleRow} {index : KeyIndex} {i : Instr} (hr : r ∈ roleTable) (h : r.role index = i) :
    r = roleRow i :=
  List.inj_on_of_nodup_map ctorIdx_nodup hr (roleRow_mem i) <| by
    rw [← ctorIdx_role hr index, h, ← ctorIdx_role (roleRow_mem i) (Key.index (encode i)), roleRow_role]

/-- A key has the role `i` exactly when the row of `i` accepts it and gives `i` at its index (30_encoding.md R58). -/
theorem decode_eq_ok_iff_roleRow {k : Key} {i : Instr} :
    decode k = .ok i ↔ (roleRow i).accepts k = true ∧ (roleRow i).role (Key.index k) = i := by
  constructor
  · intro h
    rw [decode] at h
    split at h
    · rename_i r hfind
      have haccepts := List.find?_some hfind
      have hrole := Except.ok.inj h
      obtain rfl := eq_roleRow (List.mem_of_find?_eq_some hfind) hrole
      exact ⟨haccepts, hrole⟩
    · cases h
  · rintro ⟨haccepts, hrole⟩
    rw [decode, find_of_apart roleTable_apart (roleRow_mem i) haccepts]
    exact congrArg _ hrole

/-! ### The key bits that select a role -/

/-- The row of the role takes every index and gives the one role. -/
def TakesAnyIndex (i : Instr) : Prop :=
  ∀ n, KeyIndex.within n (roleRow i).lo (roleRow i).hi = true ∧ (roleRow i).role n = i

/-- The row of the role gives it at one index only, that of the role's own key. -/
def TakesOneIndex (i : Instr) : Prop :=
  ∀ n, KeyIndex.within n (roleRow i).lo (roleRow i).hi = true → (roleRow i).role n = i → n = Key.index (encode i)

theorem within_all (n : KeyIndex) : KeyIndex.within n 0 63 = true := by
  have hle : n.toNat ≤ 63 := Nat.le_of_lt_succ n.isLt
  simp [KeyIndex.within, hle]

theorem eq_of_within_one {n index : KeyIndex} (h : KeyIndex.within n index.toNat index.toNat = true) : n = index := by
  simp only [KeyIndex.within, Bool.and_eq_true, decide_eq_true_eq] at h
  exact BitVec.eq_of_toNat_eq (Nat.le_antisymm h.2 h.1)

/-- The bits that select a role other than DSTUFF and FSB are its row's mask and the index bits. -/
theorem roleKeyMask_eq_or {i : Instr} (hdstuff : i ≠ .dstuff) (hfsb : i ≠ .fsb) :
    roleKeyMask i = (roleRow i).mask ||| 0x3F := by
  cases i
  case dstuff | fsb => contradiction
  case id | data | eof => rw [show (roleRow _).mask = 0xF800 from rfl]; rfl
  case idx => rw [show (roleRow _).mask = 0xFC00 from rfl]; rfl
  case dlcC11 | dlcF11 | dlcC29 | dlcF29 => rw [show (roleRow _).mask = 0xFE00 from rfl]; rfl
  case crcC | stc | crcFd => rw [show (roleRow _).mask = 0xFA00 from rfl]; rfl
  all_goals rfl

theorem takesAnyIndex_dstuff : TakesAnyIndex .dstuff := fun n => ⟨within_all n, rfl⟩

theorem takesAnyIndex_fsb : TakesAnyIndex .fsb := fun n => ⟨within_all n, rfl⟩

/-- A role other than DSTUFF and FSB has one index. -/
theorem takesOneIndex {i : Instr} (hdstuff : i ≠ .dstuff) (hfsb : i ≠ .fsb) : TakesOneIndex i := by
  intro m hwithin hrole
  cases i
  case dstuff | fsb => contradiction
  case id | dlcC11 | dlcF11 | idx | dlcC29 | dlcF29 | data | crcC | stc | crcFd | eof =>
    cases hrole
    exact (index_keyOf m rfl).symm
  all_goals exact eq_of_within_one hwithin

/-- Two keys agree in a mask and the index bits exactly when they agree in the mask and have one index. -/
theorem and_or_index_eq_iff {k e mask : Key} :
    k &&& (mask ||| 0x3F) = e &&& (mask ||| 0x3F) ↔ k &&& mask = e &&& mask ∧ Key.index k = Key.index e := by
  have hlow : (0x3F : Key) = (BitVec.allOnes 6).setWidth 16 := rfl
  simp only [hlow, Key.index, BitVec.eq_of_getLsbD_eq_iff, BitVec.getLsbD_and, BitVec.getLsbD_or,
    BitVec.getLsbD_setWidth, BitVec.getLsbD_allOnes]
  constructor
  · intro h
    refine ⟨fun n hn => ?_, fun n hn => by simpa [hn, Nat.lt_trans hn] using h n (by omega)⟩
    cases hmask : mask.getLsbD n
    · simp
    · simpa [hmask] using h n hn
  · rintro ⟨hmask, hindex⟩ n hn
    by_cases hlt : n < 6
    · simpa [hlt, hn] using hindex n hlt
    · simpa [hlt] using hmask n hn

/-- A row that takes any index: its mask selects the role. -/
theorem decode_eq_ok_iff_of_takesAnyIndex {k : Key} {i : Instr} (hany : TakesAnyIndex i) :
    decode k = .ok i ↔ i.wf = true ∧ k &&& (roleRow i).mask = encode i &&& (roleRow i).mask := by
  rw [decode_eq_ok_iff_roleRow, accepts_iff, wf_eq_within, encode_and_mask]
  simp only [(hany _).1, (hany _).2, and_true, true_and]

/-- A role of one index: its row's mask and the index bits select it. -/
theorem decode_eq_ok_iff_of_takesOneIndex {k : Key} {i : Instr} (hone : TakesOneIndex i) :
    decode k = .ok i ↔
      i.wf = true ∧ k &&& ((roleRow i).mask ||| 0x3F) = encode i &&& ((roleRow i).mask ||| 0x3F) := by
  rw [decode_eq_ok_iff_roleRow, accepts_iff, wf_eq_within, and_or_index_eq_iff, encode_and_mask]
  constructor
  · rintro ⟨⟨hmask, hwithin⟩, hrole⟩
    have hindex := hone _ hwithin hrole
    exact ⟨hindex ▸ hwithin, hmask, hindex⟩
  · rintro ⟨hwithin, hmask, hindex⟩
    rw [hindex]
    exact ⟨⟨hmask, hwithin⟩, roleRow_role i⟩

/-- Settles O3: the row of the role is the only one that gives it, and the key's index is that of the role's own key
unless the row takes any index. -/
theorem decodeExactlyOnTheRowOfARole : Obligations.DecodeExactlyOnTheRowOfARole := by
  intro k i
  by_cases hdstuff : i = .dstuff
  · subst hdstuff
    exact decode_eq_ok_iff_of_takesAnyIndex takesAnyIndex_dstuff
  · by_cases hfsb : i = .fsb
    · subst hfsb
      exact decode_eq_ok_iff_of_takesAnyIndex takesAnyIndex_fsb
    · rw [roleKeyMask_eq_or hdstuff hfsb]
      exact decode_eq_ok_iff_of_takesOneIndex (takesOneIndex hdstuff hfsb)

/-- Settles O54: the key has a role, and the role of a key is well formed. -/
theorem everyFormedKeyHasARole : Obligations.EveryFormedKeyHasARole := by
  intro s f hs hctx
  obtain ⟨i, hdec⟩ := dispatchKey_hasRole (layoutOk_begin (hs.layout f hctx) s.params)
  exact ⟨i, ((decodeExactlyOnTheRowOfARole _ i).mp hdec).1, hdec⟩

/-! ### The fields of the key -/

/-- The fields of a key as a number (30_encoding.md R57). -/
theorem packKey_toNat (phase : BitVec 3) (stuffBit fixedBit ide fdf : Bool) (index : KeyIndex) :
    (packKey phase stuffBit fixedBit ide fdf index).toNat =
      phase.toNat * 2 ^ 13 + stuffBit.toNat * 2 ^ 12 + fixedBit.toNat * 2 ^ 11 + ide.toNat * 2 ^ 10 +
        fdf.toNat * 2 ^ 9 + index.toNat := by
  have happend {n m : Nat} (x : BitVec n) (y : BitVec m) : (x ++ y).toNat = x.toNat * 2 ^ m + y.toNat := by
    rw [BitVec.toNat_append, ← Nat.shiftLeft_add_eq_or_of_lt y.isLt, Nat.shiftLeft_eq]
  simp only [packKey, happend, BitVec.toNat_ofBool, BitVec.toNat_zero]
  ring

theorem isDynamicStuff_iff {f : Frame} : isDynamicStuff f = true ↔ f.stuff.dynEn = true ∧ f.stuff.runLen = 5 := by
  rw [isDynamicStuff, Bool.and_eq_true, beq_iff_eq]

theorem isFixedStuff_iff {f : Frame} :
    isFixedStuff f = true ↔ f.phase = .crc ∧ f.flags.fdf = true ∧ f.pos.k % 5 = 0 := by
  simp only [isFixedStuff, Bool.and_eq_true, beq_iff_eq, and_assoc]

theorem toNat_mul_eq_ite {b : Bool} {p : Prop} [Decidable p] (h : b = true ↔ p) (n : Nat) :
    b.toNat * n = if p then n else 0 := by
  cases b <;> simp_all

theorem classify_eq_dstuff_iff {f : Frame} : (classify f == .dstuff) = true ↔ isDynamicStuff f = true := by
  unfold classify
  cases isDynamicStuff f <;> cases isFixedStuff f <;> decide

/-- A fixed stuff bit is no dynamic one (44_stuffing.md R112). -/
theorem classify_eq_fsb_iff {f : Frame} :
    (classify f == .fsb) = true ↔ ¬ isDynamicStuff f = true ∧ isFixedStuff f = true := by
  unfold classify
  cases isDynamicStuff f <;> cases isFixedStuff f <;> decide

/-- Settles O4: the key's fields are those of R57, and the phase and its counter are the case's. -/
theorem dispatchKeyHoldsTheRegisters : Obligations.DispatchKeyHoldsTheRegisters := by
  intro f code counter hphase hlt
  have hcode : f.phase.code.toNat = code ∧ positionCounter f = counter := by
    rcases hphase with ⟨h, rfl, rfl⟩ | ⟨h, rfl, rfl⟩ | ⟨h, rfl, rfl⟩ | ⟨h, rfl, rfl⟩ <;>
      exact ⟨by rw [h]; rfl, by rw [positionCounter, h]⟩
  rw [dispatchKey, packKey_toNat, hcode.1, hcode.2, BitVec.toNat_ofNat, Nat.mod_eq_of_lt hlt,
    toNat_mul_eq_ite (classify_eq_dstuff_iff.trans isDynamicStuff_iff),
    toNat_mul_eq_ite (classify_eq_fsb_iff.trans (and_congr isDynamicStuff_iff.not isFixedStuff_iff))]

end Sys2Proof.Machine

/-! PROOFS. The wire level and its edges (30_encoding.md R45, 40_bit_timing.md R66). -/

namespace Sys2Proof.Machine

theorem level_eq_true_iff {s : State} {i : Nat} :
    level s i = true ↔ Memory.read s.raw i = if s.params.idleLevel then 1 else 0 := by
  rw [level, beq_iff_eq, rawOf]

theorem edge_eq_true_iff {s : State} {i : Nat} :
    edge s i = true ↔ 1 ≤ i ∧ i < s.params.sampleCount ∧ level s i ≠ level s (i - 1) := by
  simp only [edge, Bool.and_eq_true, decide_eq_true_eq, bne_iff_ne, and_assoc]

theorem domEdge_eq_true_iff {s : State} {i : Nat} :
    domEdge s i = true ↔ 1 ≤ i ∧ i < s.params.sampleCount ∧ level s (i - 1) = true ∧ level s i = false := by
  simp only [domEdge, Bool.and_eq_true, decide_eq_true_eq, Bool.not_eq_true', and_assoc]

/-- Settles O14: the definitions of R45 and R66, read as propositions. -/
theorem edgesAreChangesOfTheLevel : Obligations.EdgesAreChangesOfTheLevel :=
  fun _ _ => ⟨level_eq_true_iff, edge_eq_true_iff, domEdge_eq_true_iff⟩

end Sys2Proof.Machine

/-! PROOFS. The DLC table and the Gray code of the stuff count (30_encoding.md R54, R55). -/

namespace Sys2Proof.Machine

theorem byteCount_of_le {d : BitVec 4} (fdf : Bool) (h : d.toNat ≤ 8) : byteCount fdf d = d.toNat := if_pos h

theorem byteCount_classic_of_gt {d : BitVec 4} (h : 8 < d.toNat) : byteCount false d = 8 := by
  rw [byteCount, if_neg (by omega)]; rfl

/-- Settles O48: codes to 8 are counts; above 8 a Classic code is 8 and an FD code is looked up in the table. -/
theorem byteCountTable : Obligations.ByteCountTable :=
  ⟨fun fdf _ h => byteCount_of_le fdf h, fun _ h => byteCount_classic_of_gt h, rfl⟩

theorem grayEncode_mod (n : Nat) : grayEncode (n % 8) = grayEncode n := by
  rw [grayEncode, grayEncode, Nat.mod_mod]

theorem grayDecode_grayEncode (n : Nat) : grayDecode (grayEncode n) = n % 8 := by
  have hsmall : ∀ m < 8, grayDecode (grayEncode m) = m := by decide
  rw [← grayEncode_mod]
  exact hsmall _ (Nat.mod_lt n (by decide))

theorem grayParity_grayEncode (n : Nat) : grayParity (grayEncode n) = decide (n % 2 = 1) := by
  have hsmall : ∀ m < 8, grayParity (grayEncode m) = decide (m % 2 = 1) := by decide
  rw [← grayEncode_mod, hsmall _ (Nat.mod_lt n (by decide)), Nat.mod_mod_of_dvd n (by decide)]

/-- Settles O49: counts are read modulo 8, and on the eight counts and codes the table is evaluated. -/
theorem grayCodeOfTheStuffCount : Obligations.GrayCodeOfTheStuffCount :=
  ⟨rfl, fun n => (grayEncode_mod n).symm, grayDecode_grayEncode, grayParity_grayEncode, fun _ => rfl, fun _ => rfl⟩

end Sys2Proof.Machine

/-! PROOFS. The timing registers that `begin` and `switchRate` write (40_bit_timing.md R67, R71). -/

namespace Sys2Proof.Machine

/-- The model's fractions 1/5 and 4/5 (40_bit_timing.md R67, R72). -/
theorem fifth_eq : mkRat 1 5 = (1 / 5 : Rat) := by norm_num [Rat.mkRat_eq_div]

theorem fourFifths_eq : mkRat 4 5 = (4 / 5 : Rat) := by norm_num [Rat.mkRat_eq_div]

theorem spb_eq_ite (p : Params) (r : Rate) : p.spb r = if r = .std then p.spbStd else p.spbFd := by
  cases r <;> rfl

theorem spf_eq_ite (p : Params) (r : Rate) : p.spf r = if r = .std then p.spfStd else p.spfFd := by
  cases r <;> rfl

/-- The timing registers after `begin`, in exact rational arithmetic. -/
theorem beginTiming_eq (p : Params) (start : Rat) (t : Timing) :
    beginTiming p start t =
      ⟨t.rate, start + p.spb t.rate * (if t.ackExt then p.pAckSteady else 1 / 5),
        start + p.spb t.rate * p.spf t.rate, start + p.spb t.rate * (4 / 5), start + p.spb t.rate, false⟩ := by
  simp only [beginTiming, addQ_eq, mulQ_eq, fifth_eq, fourFifths_eq]

/-- `switchRate` in exact rational arithmetic. -/
theorem switchRate_eq (p : Params) (toHigh : Bool) (f : Frame) :
    switchRate p toHigh f =
      { f with
        timing :=
          ⟨rateOf toHigh, f.timing.steadyStart, f.timing.samplePoint, f.timing.samplePoint,
            f.timing.samplePoint + p.spb (rateOf toHigh) * (1 - p.spf (rateOf toHigh)),
            if toHigh then f.timing.ackExt else true⟩ } := by
  simp only [switchRate, addQ_eq, mulQ_eq, subQ_eq]

/-- Settles O15: `begin` leaves the registers of `beginTiming`, at the samples-per-bit and the sample-point fraction
of the active rate. -/
theorem beginComputesTheBitTimes : Obligations.BeginComputesTheBitTimes := by
  intro p f
  simp only [beginBit, beginTiming_eq, spb_eq_ite, spf_eq_ite]

/-- Settles O16: `switchRate_eq` for the switch to FD and for the switch back. -/
theorem switchRateSplitsTheBit : Obligations.SwitchRateSplitsTheBit :=
  fun p f => ⟨switchRate_eq p true f, switchRate_eq p false f⟩

end Sys2Proof.Machine

/-! PROOFS. Resynchronisation and the lengths of bits without it (40_bit_timing.md R72, R76). -/

namespace Sys2Proof.Machine

/-- The index from which no resynchronising edge is taken, `lim` of R72. -/
theorem resyncLimit_eq (p : Params) (f : Frame) :
    rnd (addQ f.timing.bitEnd (mulQ (p.spb f.timing.rate) (mkRat 1 5))) =
      rnd (f.timing.bitEnd + p.spb f.timing.rate / 5) := by
  rw [addQ_eq, mulQ_eq, fifth_eq, mul_one_div]

/-- The resynchronising edge is the first dominant edge between the sample point and the limit. That the search stops
at the end of the capture changes nothing, for no edge lies beyond it. -/
theorem resyncEdge_eq_some_iff {s : State} {f : Frame} {e : Nat} :
    resyncEdge s f = some e ↔
      rnd f.timing.samplePoint < e ∧ e < rnd (f.timing.bitEnd + s.params.spb f.timing.rate / 5) ∧
        domEdge s e = true ∧ ∀ i, rnd f.timing.samplePoint < i → i < e → domEdge s i = false := by
  rw [resyncEdge, find_indices_eq_some, resyncLimit_eq, lt_min_iff]
  constructor
  · rintro ⟨hafter, ⟨hlim, -⟩, hedge, hfirst⟩
    exact ⟨hafter, hlim, hedge, hfirst⟩
  · rintro ⟨hafter, hlim, hedge, hfirst⟩
    exact ⟨hafter, ⟨hlim, (domEdge_lt hedge).2⟩, hedge, hfirst⟩

theorem resyncEdge_eq_none_of {s : State} {f : Frame}
    (h : ∀ e, rnd f.timing.samplePoint < e → e < rnd (f.timing.bitEnd + s.params.spb f.timing.rate / 5) →
      domEdge s e = false) : resyncEdge s f = none := by
  rw [resyncEdge, find_indices_eq_none, resyncLimit_eq]
  exact fun e hafter hlim => h e hafter (lt_min_iff.mp hlim).1

theorem resync_of_edge {s : State} {f : Frame} {e : Nat} (h : resyncEdge s f = some e) :
    resync s f = { f with timing := { f.timing with bitEnd := (e : Rat) } } := by
  rw [resync, h, ← position_eq]

theorem resync_of_noEdge {s : State} {f : Frame} (h : resyncEdge s f = none) : resync s f = f := by
  rw [resync, h]

/-- Settles O18: the edge of R72 is the one `resyncEdge` finds. -/
theorem resyncMovesBitEndToTheFirstDominantEdge : Obligations.ResyncMovesBitEndToTheFirstDominantEdge :=
  fun _ _ =>
    ⟨fun _ hafter hlim hedge hfirst => resync_of_edge (resyncEdge_eq_some_iff.mpr ⟨hafter, hlim, hedge, hfirst⟩),
      fun hnone => resync_of_noEdge (resyncEdge_eq_none_of hnone)⟩

/-- A bit with a rate switch lasts the old rate's share up to the sample point and the new rate's share after it. -/
theorem switchRate_beginBit_length (p : Params) (toHigh : Bool) (f : Frame) :
    (switchRate p toHigh (beginBit p f)).timing.bitEnd - f.bitStart =
      p.spb f.timing.rate * p.spf f.timing.rate + p.spb (rateOf toHigh) * (1 - p.spf (rateOf toHigh)) := by
  rw [switchRate_bitEnd, beginBit_samplePoint]; ring

/-- Settles O21: without an edge the bit ends where `switchRate` or `begin` put its end. -/
theorem twoRateSplitOfBrsAndDl1 : Obligations.TwoRateSplitOfBrsAndDl1 := by
  refine fun s f => ⟨fun hrate hnone => ?brs, fun hrate hnone => ?dl1, fun hnone => ?single⟩
  case brs => rw [resync_of_noEdge hnone, switchRate_beginBit_length, hrate]; rfl
  case dl1 => rw [resync_of_noEdge hnone, switchRate_beginBit_length, hrate]; rfl
  case single => rw [resync_of_noEdge hnone, beginBit_bitEnd, add_sub_cancel_left, spb_eq_ite]

end Sys2Proof.Machine

/-! PROOFS. The steady-window check (40_bit_timing.md R73). -/

namespace Sys2Proof.Machine

/-- The signal changes at a sample of the steady window, clipped to the bit's end. That the scan stops at the end of
the capture changes nothing, for no edge lies beyond it. -/
theorem steadyViolated_iff {s : State} {f : Frame} :
    steadyViolated s f = true ↔
      ∃ i, rnd f.timing.steadyStart < i ∧ i ≤ min (rnd f.timing.steadyEnd) (rnd f.timing.bitEnd) ∧
        edge s i = true := by
  simp only [steadyViolated, List.any_eq_true, mem_indices, Nat.lt_min, Nat.lt_succ_iff]
  constructor
  · rintro ⟨i, ⟨hstart, hend, -⟩, hedge⟩
    exact ⟨i, hstart, hend, hedge⟩
  · rintro ⟨i, hstart, hend, hedge⟩
    exact ⟨i, ⟨hstart, hend, (edge_lt hedge).2⟩, hedge⟩

/-- A violated window sets flag bit 0 and marks the last record of row 1. -/
theorem steadyCheck_of_violated {s : State} {f : Frame} {row : List BitRecord} {a : BitRecord}
    (hrow : f.notes.row1 = row ++ [a]) (h : steadyViolated s f = true) :
    steadyCheck s f =
      { f with err := f.err ||| 0x01, notes := { f.notes with row1 := row ++ [{ a with error := true }] } } := by
  rw [steadyCheck, h, setErrorIf, if_pos rfl, setError, markCurrent_of_last hrow]; rfl

theorem steadyCheck_of_steady {s : State} {f : Frame} (h : steadyViolated s f ≠ true) : steadyCheck s f = f :=
  if_neg h

/-- Settles O19: the check is made on `steadyViolated`, which is the existence of an edge in the window. -/
theorem steadyWindowCheckFindsAnEdge : Obligations.SteadyWindowCheckFindsAnEdge :=
  fun _ _ _ _ hrow =>
    ⟨steadyViolated_iff, fun hviolated => steadyCheck_of_violated hrow (steadyViolated_iff.mpr hviolated),
      fun hsteady => steadyCheck_of_steady fun h => hsteady (steadyViolated_iff.mp h)⟩

end Sys2Proof.Machine

/-! PROOFS. The advance of the bit cursor over a step (40_bit_timing.md R75). -/

namespace Sys2Proof.Machine

open Sys2Proof.Safety

/-- Settles O20: of the outcomes of a step in a frame only the next bit leaves a frame, and its bit starts where the
bit of the step ended. -/
theorem everyBitAdvancesByAtLeastDelta : Obligations.EveryBitAdvancesByAtLeastDelta := by
  intro s t f g hrun hmode hctx hstep hg
  refine ⟨?_, leastAdvance_pos hrun⟩
  rcases step_frameOutcome hmode hctx hstep with rfl | ⟨i, r, b, -, hr, houtcome⟩
  · cases hg
  · cases houtcome with
    | ended _ _ hnone => rw [hnone] at hg; cases hg
    | emitted _ _ _ _ _ _ hnone => rw [hnone] at hg; cases hg
    | nextBit g' _ _ hg' _ hcursor =>
      obtain rfl : g' = g := Option.some.inj (hg'.symm.trans hg)
      rw [hcursor]
      exact leastAdvance_le_bitEnd hrun f hr

end Sys2Proof.Machine

/-! PROOFS. The end of a bit step (41_frame_fsm.md R81, 46_errors_emitter.md R128, R129). -/

namespace Sys2Proof.Machine

theorem frameEnds_iff {f : Frame} : frameEnds f = true ↔ f.phase = .finished ∨ (7 ≤ f.recRun ∧ f.err ≠ 0) := by
  simp only [frameEnds, Bool.or_eq_true, Bool.and_eq_true, beq_iff_eq, decide_eq_true_eq, bne_iff_ne]

theorem closeBit_of_frameEnds {s : State} {f : Frame} {fieldDone : Bool} (h : frameEnds f = true) :
    closeBit s f fieldDone = emit s f := if_pos h

theorem closeBit_of_continues {s : State} {f : Frame} {fieldDone : Bool} (h : frameEnds f ≠ true) :
    closeBit s f fieldDone = pollAfterField fieldDone { s with ctx := some (advance f) } := if_neg h

/-- Settles O40: the bit's end emits the packet of `packetOf` when the frame ends, and polls and advances otherwise. -/
theorem frameEndEmitsThePacket : Obligations.FrameEndEmitsThePacket :=
  fun _ _ _ =>
    ⟨fun hends => closeBit_of_frameEnds (frameEnds_iff.mpr hends),
      fun hgoesOn => closeBit_of_continues fun h => hgoesOn (frameEnds_iff.mp h)⟩

end Sys2Proof.Machine

/-! PROOFS. The start-of-frame search (41_frame_fsm.md R78). -/

namespace Sys2Proof.Machine

/-- The search finds the first dominant edge from `max(1, searchFrom)` on. That it stops at the end of the capture
changes nothing, for no edge lies beyond it. -/
theorem sofEdge_eq_some_iff {s : State} {e : Nat} :
    sofEdge s = some e ↔
      max 1 s.run.searchFrom ≤ e ∧ domEdge s e = true ∧
        ∀ i, max 1 s.run.searchFrom ≤ i → i < e → domEdge s i = false := by
  rw [sofEdge, find_indices_eq_some]
  constructor
  · rintro ⟨hfrom, -, hedge, hfirst⟩
    exact ⟨hfrom, hedge, hfirst⟩
  · rintro ⟨hfrom, hedge, hfirst⟩
    exact ⟨hfrom, (domEdge_lt hedge).2, hedge, hfirst⟩

theorem sofEdge_eq_none_of {s : State} (h : ∀ i, max 1 s.run.searchFrom ≤ i → domEdge s i = false) :
    sofEdge s = none :=
  find_indices_eq_none.mpr fun i hfrom _ => h i hfrom

section

variable {s : State}

theorem searchStep_of_abort (habort : s.params.abort s.run.pollCount = true) :
    searchStep s =
      { s with
        run := { s.run with pollCount := s.run.pollCount + 1, mode := .done, status := .aborted }, ctx := none } := by
  rcases searchStep_cases s with ⟨-, h⟩ | ⟨hgoesOn, -, -⟩ | ⟨-, hgoesOn, -, -⟩
  · exact h
  · cases habort.symm.trans hgoesOn
  · cases habort.symm.trans hgoesOn

variable (hgoesOn : s.params.abort s.run.pollCount = false)

include hgoesOn

theorem searchStep_of_noEdge (hnone : sofEdge s = none) :
    searchStep s =
      { s with
        run := { s.run with pollCount := s.run.pollCount + 1, mode := .done, status := .completed }, ctx := none } := by
  rcases searchStep_cases s with ⟨habort, -⟩ | ⟨-, -, h⟩ | ⟨sof, -, hsome, -⟩
  · cases habort.symm.trans hgoesOn
  · exact h
  · cases hnone.symm.trans hsome

theorem searchStep_of_edge {e : Nat} (hedge : sofEdge s = some e) :
    searchStep s =
      { s with
        run := { s.run with pollCount := s.run.pollCount + 1, mode := .frame }, ctx := some (frameReset e) } := by
  rcases searchStep_cases s with ⟨habort, -⟩ | ⟨-, hnone, -⟩ | ⟨sof, -, hsome, h⟩
  · cases habort.symm.trans hgoesOn
  · cases hnone.symm.trans hedge
  · obtain rfl : sof = e := Option.some.inj (hsome.symm.trans hedge)
    exact h

end

/-- Settles O7: a step in mode SEARCH is `searchStep`, and the edge of R78 is the one `sofEdge` finds. -/
theorem searchFindsTheFirstDominantEdge : Obligations.SearchFindsTheFirstDominantEdge := by
  intro s hrun hmode
  rw [step_of_search hrun hmode]
  refine ⟨fun habort => ?aborts, fun hgoesOn hnone => ?completes, fun e hgoesOn hfrom hedge hfirst => ?starts⟩
  case aborts => rw [searchStep_of_abort habort]
  case completes => rw [searchStep_of_noEdge hgoesOn (sofEdge_eq_none_of hnone)]
  case starts => rw [searchStep_of_edge hgoesOn (sofEdge_eq_some_iff.mpr ⟨hfrom, hedge, hfirst⟩)]

end Sys2Proof.Machine

/-! PROOFS. What a field bit before the CRC phase leaves, from the field action of its role (41_frame_fsm.md R81). -/

namespace Sys2Proof.Machine

open Sys2Proof.Safety

/-! ### The frame a field action runs on, and what the bit leaves -/

/-- The frame on which a field action runs; `f` is the frame after the sample-point action. -/
def annotatedBit (s : State) (f : Frame) (name : BitName) (b : Bool) : Frame :=
  { f with
    timing := (resync s f).timing
    notes := { f.notes with row1 := f.notes.row1 ++ [bitRecord s f name b] }
    err := f.err ||| timingFlag s f }

theorem beforeField_eq_annotatedBit {r : RoleRule} {s : State} {f f0 : Frame} {b : Bool}
    (hsample : r.samplePointAction s.params b f = f0) :
    beforeField r s b f = annotatedBit s f0 (r.name f b) b := by
  rw [beforeField_eq, hsample]; rfl

/-- The frame at the frame-end test after a field bit whose field action leaves `g`: what the action may write is as
in `g`, and the rest is as in `plainFieldBit`. -/
def fieldBitLeaves (s : State) (f : Frame) (name : BitName) (b : Bool) (g : Frame) : Frame :=
  { plainFieldBit s f name b with
    phase := g.phase
    pos := g.pos
    flags := g.flags
    prov := g.prov
    acc := g.acc
    stuff := { (plainFieldBit s f name b).stuff with dynEn := g.stuff.dynEn, dynCount := g.stuff.dynCount }
    err := g.err
    notes := g.notes }

/-- Before the CRC phase a wire bit moves no counter by itself. -/
theorem plainFieldBit_pos {s : State} {f : Frame} {name : BitName} {b : Bool}
    (hphase : f.phase = .header ∨ f.phase = .data) : (plainFieldBit s f name b).pos = f.pos := by
  rcases hphase with h | h <;> simp [plainFieldBit, plainBit, h]

/-- The bookkeeping after a field action that leaves the CRC history alone. -/
theorem account_annotatedBit {s : State} {f g : Frame} {name : BitName} {b : Bool}
    (hphase : f.phase = .header ∨ f.phase = .data) (hframe : FieldFrame (annotatedBit s f name b) g)
    (hhist : g.hist = f.hist) :
    account (annotatedBit s f name b) .field b g = fieldBitLeaves s f name b g := by
  rw [account, stuffAfterBit_eq _ _ _ _ hframe.runVal hframe.runLen, hhist, hframe.recRun]
  rcases hphase with h | h <;>
    simp [fieldBitLeaves, plainFieldBit, plainBit, histAfterBit, BitClass.hist, annotatedBit, h, hframe.bitStart,
      hframe.timing]

/-- The bit step of a role that takes field bits. What it leaves is named `e`, so that a caller may write that frame
out in the terms of `plainFieldBit`. -/
theorem exec_fieldBit {i : Instr} {r : RoleRule} {s : State} {f f0 g e : Frame} {b fieldDone : Bool}
    (hr : roleRule i f = some r) (hcls : r.cls = .field) (hready : Ready s f b)
    (hphase : f0.phase = .header ∨ f0.phase = .data) (hsample : r.samplePointAction s.params b f = f0)
    (hact : r.fieldAction b (annotatedBit s f0 (r.name f b) b) = .ok (g, fieldDone)) (hhist : g.hist = f0.hist)
    (hleaves : fieldBitLeaves s f0 (r.name f b) b g = e) : exec i s = .next (closeBit s e fieldDone) := by
  rw [exec_eq_bitStep (frame?_of_mode hready.mode hready.ctx) hr, bitStep_ready r hready, runField,
    beforeField_eq_annotatedBit hsample, hact, hcls]
  dsimp only
  rw [account_annotatedBit hphase (fieldAction_frame hr hact) hhist, hleaves]

/-! ### Rows 1 and 2 after a bit -/

/-- A field opened with the bit's record or extended by it, on a frame with the notes of the bit. -/
theorem openOrExtend_eq (s : State) (f : Frame) (name : BitName) (b : Bool) {g : Frame}
    (hnotes : g.notes = (annotatedBit s f name b).notes) (first : Bool) (kind : FieldKind) (index : Option Nat)
    (value : Nat) :
    (if first then openField kind index value g else extendField value g) =
      { g with notes := notesWithField s f name b first kind index value } := by
  have hrow : g.notes.row1 = f.notes.row1 ++ [bitRecord s f name b] := by rw [hnotes]; rfl
  cases first with
  | true =>
    rw [if_pos rfl, openField_of_last hrow, hnotes]
    simp only [annotatedBit, notesWithField, openedField, bitRecord, if_true]
  | false =>
    rw [if_neg Bool.false_ne_true, extendField_of_last hrow, hnotes]
    simp only [annotatedBit, notesWithField, extendedRow2, Notes.changeField, bitRecord, Bool.false_eq_true, if_false]
    cases f.notes.curField <;> rfl

/-- The bit's record is the last of row 1. -/
theorem currentBit_annotatedBit (s : State) (f : Frame) (name : BitName) (b : Bool) :
    (annotatedBit s f name b).notes.currentBit = some f.notes.row1.length :=
  currentBit_of_last rfl

theorem changeBit_eq_changeAt (ref : Option Nat) (change : BitRecord → BitRecord) (n : Notes) :
    n.changeBit ref change = { n with row1 := changeAt ref change n.row1 } := by
  cases ref <;> rfl

theorem changeAt_changeAt {α : Type} (ref : Option Nat) (first second : α → α) (l : List α) :
    changeAt ref second (changeAt ref first l) = changeAt ref (second ∘ first) l := by
  cases ref with
  | none => rfl
  | some i => exact List.modify_modify_eq first second i l

/-! ### The row of a role -/

/-- The keys of a role's row, at whatever index the role is written with. -/
theorem onRow_roleRow (i : Instr) :
    OnRow (roleRow i).role (roleRow i).pattern (roleRow i).mask (roleRow i).lo (roleRow i).hi :=
  onRow (roleRow_mem i)

end Sys2Proof.Machine

/-! PROOFS. The header bits: SOF, the reserved bits, the identifier, the provisional bits, IDE, FDF, BRS and ESI
(42_header.md R86 to R96). -/

namespace Sys2Proof.Machine

open Sys2Proof.Safety

theorem nextHeaderBit_of_header {f : Frame} (h : f.phase = .header) :
    nextHeaderBit f = { f with pos := { f.pos with h := f.pos.h + 1 } } := by
  rw [nextHeaderBit, if_pos (beq_iff_eq.mpr h)]

/-- The bit step of a role with a header rule; `g` is the frame that the role's action leaves. -/
theorem exec_headerRule {i : Instr} {name : Frame → Bool → BitName} {action : Bool → Frame → Frame} {s : State}
    {f g e : Frame} {b : Bool} (hr : roleRule i f = some (headerRule name action)) (hready : Ready s f b)
    (hphase : f.phase = .header) (hact : action b (annotatedBit s f (name f b) b) = g)
    (hkeeps : g.phase = f.phase ∧ g.hist = f.hist)
    (hleaves : fieldBitLeaves s f (name f b) b { g with pos := { g.pos with h := g.pos.h + 1 } } = e) :
    exec i s = .next (closeBit s e false) := by
  obtain ⟨hgphase, hhist⟩ := hkeeps
  have hfield : (headerRule name action).fieldAction b (annotatedBit s f (name f b) b) =
      fieldOngoing { g with pos := { g.pos with h := g.pos.h + 1 } } := by
    rw [← nextHeaderBit_of_header (hgphase.trans hphase), ← hact]; rfl
  exact exec_fieldBit hr rfl hready (.inl hphase) rfl hfield hhist hleaves

/-- Settles O22: the action of SOF and of the reserved bits is empty. -/
theorem sofAndReservedBitsAreOnlyNamed : Obligations.SofAndReservedBitsAreOnlyNamed :=
  ⟨onRow_roleRow .sof, onRow_roleRow .resF11, onRow_roleRow .resE, fun _ _ _ hready hphase =>
    ⟨exec_headerRule rfl hready hphase rfl ⟨rfl, rfl⟩ rfl, exec_headerRule rfl hready hphase rfl ⟨rfl, rfl⟩ rfl,
      exec_headerRule rfl hready hphase rfl ⟨rfl, rfl⟩ rfl⟩⟩

/-- An identifier bit in the terms of the statement (42_header.md R88, R95). -/
theorem idBit_annotatedBit (s : State) (f : Frame) (name : BitName) (first b : Bool) :
    idBit first b (annotatedBit s f name b) =
      { annotatedBit s f name b with
        acc := { f.acc with idAcc := pushBit f.acc.idAcc b }
        notes := notesWithField s f name b first .id none (pushBit f.acc.idAcc b).toNat } := by
  unfold idBit
  dsimp only
  rw [shiftIn_eq_pushBit]
  exact openOrExtend_eq s f name b
    (g := { annotatedBit s f name b with acc := { f.acc with idAcc := pushBit f.acc.idAcc b } }) rfl ..

/-- Settles O23: both roles shift the bit in by `idBit`, and only position 1 opens the field. -/
theorem identifierBitsShiftIn : Obligations.IdentifierBitsShiftIn :=
  ⟨onRow_roleRow (.id 0), onRow_roleRow (.idx 0), fun s f b _ hready hphase =>
    ⟨exec_headerRule rfl hready hphase (idBit_annotatedBit s f _ (f.pos.h == 1) b) ⟨rfl, rfl⟩ rfl,
      exec_headerRule rfl hready hphase (idBit_annotatedBit s f _ false b) ⟨rfl, rfl⟩ rfl⟩⟩

/-- Settles O24: the action keeps the bit and the place of the current record, which is the last of row 1. -/
theorem provisionalBitsAreKept : Obligations.ProvisionalBitsAreKept := by
  refine ⟨onRow_roleRow .b12, onRow_roleRow .b32, fun s f b hready hphase => ?_⟩
  rw [← currentBit_annotatedBit s f .rtr b]
  exact ⟨exec_headerRule rfl hready hphase rfl ⟨rfl, rfl⟩ rfl, exec_headerRule rfl hready hphase rfl ⟨rfl, rfl⟩ rfl⟩

/-- What IDE = 1 does, in the terms of the statement (42_header.md R90). -/
theorem ideExtended_eq (f : Frame) :
    ideExtended f =
      { f with
        flags := { f.flags with rtr := false }
        err := f.err ||| (if f.prov.b12 then 0 else 0x04)
        notes := { f.notes with row1 := row1AfterIde f.prov.a12 f.prov.b12 f.notes.row1 } } := by
  rw [row1AfterIde_eq]
  cases hb12 : f.prov.b12 with
  | true => simp [ideExtended, hb12, setErrorIf, Notes.renameBit, changeBit_eq_changeAt, Notes.renameIds]
  | false =>
    simp [ideExtended, hb12, setErrorIf, setError, Notes.renameBit, Notes.markBit, changeBit_eq_changeAt,
      changeAt_changeAt, Notes.renameIds]
    exact ⟨rfl, rfl⟩

/-- Settles O25: IDE = 0 writes its registers, and IDE = 1 is `ideExtended` as well. -/
theorem ideBitSelectsTheIdentifierLength : Obligations.IdeBitSelectsTheIdentifierLength := by
  refine ⟨onRow_roleRow .ide, fun s f hphase => ⟨fun hready => ?dominant, fun hready => ?recessive⟩⟩
  case dominant => exact exec_headerRule rfl hready hphase rfl ⟨rfl, rfl⟩ rfl
  case recessive => exact exec_headerRule rfl hready hphase (ideExtended_eq _) ⟨rfl, rfl⟩ rfl

/-- What FDF = 1 does, in the terms of the statement (42_header.md R91). -/
theorem fdfAction_true (f : Frame) :
    fdfAction true f =
      { f with
        flags := { f.flags with fdf := true, fdfKnown := true, rtr := false }
        notes :=
          { f.notes with
            row1 := changeAt (if f.flags.ide then f.prov.a32 else f.prov.a12) (fun a => { a with name := .rrs })
              f.notes.row1 } } := by
  simp only [fdfAction, Notes.renameBit, changeBit_eq_changeAt, if_true]

/-- Settles O26: both rows have the action `fdfAction`. -/
theorem fdfBitSelectsTheFrameFormat : Obligations.FdfBitSelectsTheFrameFormat := by
  refine ⟨onRow_roleRow .fdfB, onRow_roleRow .fdfE, fun s f i hi hphase => ?_⟩
  have hr : roleRule i f = some fdfBRule := by rcases hi with rfl | rfl <;> rfl
  refine ⟨fun hready => ?dominant, fun hready => ?recessive⟩
  case dominant => exact exec_headerRule hr hready hphase rfl ⟨rfl, rfl⟩ rfl
  case recessive => exact exec_headerRule hr hready hphase (fdfAction_true _) ⟨rfl, rfl⟩ rfl

/-- Settles O27: both rows have the rule of BRS, whose sample-point action switches the rate when the bit is
recessive. -/
theorem brsBitSwitchesTheRate : Obligations.BrsBitSwitchesTheRate := by
  refine ⟨onRow_roleRow .brsF11, onRow_roleRow .brsF29, fun s f i hi hphase => ?_⟩
  have hr : roleRule i f = some brsRule := by rcases hi with rfl | rfl <;> rfl
  refine ⟨fun hready => ?dominant, fun hready => ?recessive⟩
  case dominant =>
    exact exec_fieldBit hr rfl hready (.inl hphase) rfl (congrArg fieldOngoing (nextHeaderBit_of_header hphase)) rfl rfl
  case recessive =>
    exact exec_fieldBit (f0 := switchRate s.params true f) hr rfl hready (.inl hphase) rfl
      (congrArg fieldOngoing (nextHeaderBit_of_header hphase)) rfl rfl

/-- Settles O28: both rows have the rule of ESI. -/
theorem esiBitIsKept : Obligations.EsiBitIsKept := by
  refine ⟨onRow_roleRow .esiF11, onRow_roleRow .esiF29, fun s f b i hi hready hphase => ?_⟩
  have hr : roleRule i f = some esiRule := by rcases hi with rfl | rfl <;> rfl
  exact exec_headerRule hr hready hphase rfl ⟨rfl, rfl⟩ rfl

end Sys2Proof.Machine

/-! PROOFS. The DLC bits and the end of the header (42_header.md R97, 43_data_crc_trailer.md R99). -/

namespace Sys2Proof.Machine

open Sys2Proof.Safety

/-- A DLC bit's number, counted from the first DLC position of the frame's format. -/
theorem dlcNumber_eq (f : Frame) :
    dlcNumber f =
      f.pos.h - if f.flags.ide then (if f.flags.fdf then 37 else 35) else (if f.flags.fdf then 18 else 15) := by
  unfold dlcNumber
  cases f.flags.ide <;> cases f.flags.fdf <;> rfl

/-- The frame after a DLC bit is shifted in. -/
def dlcShifted (s : State) (f : Frame) (b : Bool) : Frame :=
  { annotatedBit s f (.dlc (3 - dlcNumber f)) b with
    acc := { f.acc with dlcAcc := pushBit f.acc.dlcAcc b }
    notes := notesWithField s f (.dlc (3 - dlcNumber f)) b (dlcNumber f == 0) .dlc none
      (pushBit f.acc.dlcAcc b).toNat }

theorem dlcBit_annotatedBit (s : State) (f : Frame) (b : Bool) :
    dlcBit b (annotatedBit s f (.dlc (3 - dlcNumber f)) b) = dlcShifted s f b := by
  unfold dlcBit
  dsimp only
  rw [shiftIn_eq_pushBit]
  exact openOrExtend_eq s f (.dlc (3 - dlcNumber f)) b
    (g := { annotatedBit s f (.dlc (3 - dlcNumber f)) b with
      acc := { f.acc with dlcAcc := pushBit f.acc.dlcAcc b } }) rfl ..

section

variable {s : State} {f e : Frame} {i : Instr} {b : Bool} (hr : roleRule i f = some dlcRule) (hready : Ready s f b)
  (hphase : f.phase = .header)

include hr hready hphase

/-- A DLC bit that is not the last. -/
theorem exec_dlc_of_not_last (hn : dlcNumber f ≠ 3)
    (hleaves : fieldBitLeaves s f (.dlc (3 - dlcNumber f)) b
      { dlcShifted s f b with pos := { f.pos with h := f.pos.h + 1 } } = e) :
    exec i s = .next (closeBit s e false) := by
  have hact : dlcRule.fieldAction b (annotatedBit s f (.dlc (3 - dlcNumber f)) b) =
      fieldOngoing { dlcShifted s f b with pos := { f.pos with h := f.pos.h + 1 } } := by
    rw [dlcRule_fieldAction, dlcBit_annotatedBit, nextHeaderBit_of_header (f := dlcShifted s f b) hphase]
    exact if_neg fun h => hn (beq_iff_eq.mp h)
  exact exec_fieldBit hr rfl hready (.inl hphase) rfl hact rfl hleaves

/-- The last DLC bit completes the header, and leaves the header position as it is. -/
theorem exec_dlc_of_last {g : Frame} (hn : dlcNumber f = 3) (hg : headerComplete (dlcShifted s f b) = g)
    (hhist : g.hist = f.hist) (hleaves : fieldBitLeaves s f (.dlc (3 - dlcNumber f)) b g = e) :
    exec i s = .next (closeBit s e true) := by
  have hact : dlcRule.fieldAction b (annotatedBit s f (.dlc (3 - dlcNumber f)) b) = .ok (g, true) := by
    rw [dlcRule_fieldAction, dlcBit_annotatedBit, nextHeaderBit_headerComplete, hg]
    exact if_pos (beq_iff_eq.mpr hn)
  exact exec_fieldBit hr rfl hready (.inl hphase) rfl hact hhist hleaves

end

/-- CRC-phase entry in the terms of the statement (43_data_crc_trailer.md R99). -/
theorem crcEntry_eq (f : Frame) :
    crcEntry f =
      { f with
        phase := .crc
        acc := { f.acc with crcW := some (crcSelect f.flags.fdf f.acc.nbytes) }
        stuff := { f.stuff with dynEn := f.stuff.dynEn && !f.flags.fdf }
        pos := { f.pos with j := 0, k := 0 } } := by
  rw [crcEntry]
  cases f.flags.fdf <;> simp

/-- Settles O29: the four rows have the rule of DLC, and the last bit is `headerComplete` with or without data. -/
theorem dlcBitsShiftInAndTheLastEndsTheHeader : Obligations.DlcBitsShiftInAndTheLastEndsTheHeader := by
  refine ⟨onRow_roleRow (.dlcC11 0), onRow_roleRow (.dlcF11 0), onRow_roleRow (.dlcC29 0), onRow_roleRow (.dlcF29 0),
    fun s f b index i hi hready hphase => ?_⟩
  have hr : roleRule i f = some dlcRule := by rcases hi with rfl | rfl | rfl | rfl <;> rfl
  dsimp only
  rw [← dlcNumber_eq f]
  refine ⟨fun hn => ?notLast, fun hn ⟨hbytes, hrtr⟩ => ?data, fun hn hcrc => ?crc⟩
  case notLast => exact exec_dlc_of_not_last hr hready hphase hn rfl
  case data =>
    rw [plainFieldBit_pos (.inl hphase)]
    exact exec_dlc_of_last hr hready hphase hn (headerComplete_data hbytes hrtr) rfl rfl
  case crc => exact exec_dlc_of_last hr hready hphase hn ((headerComplete_crc hcrc).trans (crcEntry_eq _)) rfl rfl

end Sys2Proof.Machine

/-! PROOFS. The data bits (43_data_crc_trailer.md R98, R99). -/

namespace Sys2Proof.Machine

open Sys2Proof.Safety

/-- The frame after a data bit is shifted in. -/
def dataShifted (s : State) (f : Frame) (b : Bool) : Frame :=
  { annotatedBit s f (.d (7 - f.pos.dbit % 8)) b with
    pos := { f.pos with dbit := f.pos.dbit + 1 }
    acc := { f.acc with byteAcc := pushBit f.acc.byteAcc b }
    notes := notesWithField s f (.d (7 - f.pos.dbit % 8)) b (f.pos.dbit % 8 == 0) .data (some (f.pos.dbit / 8))
      (pushBit f.acc.byteAcc b).toNat }

theorem dataBit_annotatedBit (s : State) (f : Frame) (b : Bool) :
    dataBit b (annotatedBit s f (.d (7 - f.pos.dbit % 8)) b) = dataShifted s f b := by
  unfold dataBit
  dsimp only
  rw [shiftIn_eq_pushBit]
  exact congrArg (fun g : Frame => { g with pos := { g.pos with dbit := g.pos.dbit + 1 } })
    (openOrExtend_eq s f (.d (7 - f.pos.dbit % 8)) b
      (g := { annotatedBit s f (.d (7 - f.pos.dbit % 8)) b with
        acc := { f.acc with byteAcc := pushBit f.acc.byteAcc b } }) rfl ..)

/-- A complete byte that more bytes follow. -/
theorem byteComplete_of_ne {f : Frame} (h : f.acc.data.length + 1 ≠ f.acc.nbytes) :
    byteComplete f = { f with acc := { f.acc with data := f.acc.data ++ [f.acc.byteAcc], byteAcc := 0 } } := by
  simp [byteComplete, h]

/-- The last byte enters the CRC phase. -/
theorem byteComplete_of_eq {f : Frame} (h : f.acc.data.length + 1 = f.acc.nbytes) :
    byteComplete f =
      crcEntry { f with acc := { f.acc with data := f.acc.data ++ [f.acc.byteAcc], byteAcc := 0 } } := by
  simp [byteComplete, h]

section

variable {s : State} {f e : Frame} {b : Bool} {index : KeyIndex} (hready : Ready s f b) (hphase : f.phase = .data)

include hready hphase

/-- A data bit that is not the last of its byte. -/
theorem exec_data_of_ne (hm : f.pos.dbit % 8 ≠ 7)
    (hleaves : fieldBitLeaves s f (.d (7 - f.pos.dbit % 8)) b (dataShifted s f b) = e) :
    exec (.data index) s = .next (closeBit s e false) := by
  have hact : dataRule.fieldAction b (annotatedBit s f (.d (7 - f.pos.dbit % 8)) b) =
      fieldOngoing (dataShifted s f b) := by
    rw [dataRule_fieldAction, dataBit_annotatedBit]
    exact if_neg fun h => hm (beq_iff_eq.mp h)
  exact exec_fieldBit rfl rfl hready (.inr hphase) rfl hact rfl hleaves

/-- The eighth data bit completes its byte. -/
theorem exec_data_of_eq {g : Frame} (hm : f.pos.dbit % 8 = 7) (hg : byteComplete (dataShifted s f b) = g)
    (hhist : g.hist = f.hist) (hleaves : fieldBitLeaves s f (.d (7 - f.pos.dbit % 8)) b g = e) :
    exec (.data index) s = .next (closeBit s e true) := by
  have hact : dataRule.fieldAction b (annotatedBit s f (.d (7 - f.pos.dbit % 8)) b) = .ok (g, true) := by
    rw [dataRule_fieldAction, dataBit_annotatedBit, hg]
    exact if_pos (beq_iff_eq.mpr hm)
  exact exec_fieldBit rfl rfl hready (.inr hphase) rfl hact hhist hleaves

end

/-- Settles O30: a bit within a byte is shifted in, and the eighth is `byteComplete` with or without more bytes. -/
theorem dataBitsAssembleBytes : Obligations.DataBitsAssembleBytes := by
  refine ⟨onRow_roleRow (.data 0), fun s f b index hready hphase =>
    ⟨fun hm => ?within, fun hm hmore => ?byte, fun hm hlast => ?lastByte⟩⟩
  case within => exact exec_data_of_ne hready hphase hm rfl
  case byte => exact exec_data_of_eq hready hphase hm (byteComplete_of_ne (f := dataShifted s f b) hmore) rfl rfl
  case lastByte =>
    have hcrc := (byteComplete_of_eq (f := dataShifted s f b) hlast).trans (crcEntry_eq _)
    exact exec_data_of_eq hready hphase hm hcrc rfl rfl

end Sys2Proof.Machine

/-! PROOFS. What a field bit from the CRC phase on leaves, from the field action of its role (41_frame_fsm.md R81). -/

namespace Sys2Proof.Machine

open Sys2Proof.Safety

/-- The bookkeeping after a field action in any phase: `k` is counted as in `plainFieldBit`. -/
theorem account_annotatedBit_eq {s : State} {f g : Frame} {name : BitName} {b : Bool}
    (hframe : FieldFrame (annotatedBit s f name b) g) (hfdf : g.flags.fdf = f.flags.fdf) (hk : g.pos.k = f.pos.k) :
    account (annotatedBit s f name b) .field b g =
      { fieldBitLeaves s f name b g with
        hist := histAfterBit f.phase .field b g.hist
        pos := { g.pos with k := (plainFieldBit s f name b).pos.k } } := by
  rw [account, stuffAfterBit_eq _ _ _ _ hframe.runVal hframe.runLen, hframe.recRun]
  simp [fieldBitLeaves, plainFieldBit, plainBit, annotatedBit, hframe.bitStart, hframe.timing, hfdf, hk]

/-- A wire bit after the data phase enters no CRC history by itself. -/
theorem plainFieldBit_hist {s : State} {f : Frame} {name : BitName} {b : Bool}
    (hphase : f.phase = .crc ∨ f.phase = .trailer) : (plainFieldBit s f name b).hist = f.hist := by
  rcases hphase with h | h <;> simp [plainFieldBit, plainBit, h]

theorem histAfterBit_of_late {ph : Phase} (hphase : ph = .crc ∨ ph = .trailer) (c : BitClass) (b : Bool)
    (hist : List (Bool × HistClass)) : histAfterBit ph c b hist = hist := by
  rcases hphase with rfl | rfl <;> rfl

theorem plainFieldBit_k_of_fd {s : State} {f : Frame} {name : BitName} {b : Bool} (hphase : f.phase = .crc)
    (hfdf : f.flags.fdf = true) : (plainFieldBit s f name b).pos.k = f.pos.k + 1 := by
  simp [plainFieldBit, plainBit, hphase, hfdf]

theorem plainFieldBit_k_of_not_fdCrc {s : State} {f : Frame} {name : BitName} {b : Bool}
    (h : f.phase ≠ .crc ∨ f.flags.fdf = false) : (plainFieldBit s f name b).pos.k = f.pos.k := by
  rcases h with h | h <;> simp [plainFieldBit, plainBit, h]

section

variable {i : Instr} {r : RoleRule} {s : State} {f f0 g e : Frame} {b fieldDone : Bool} {k : Nat}
  (hr : roleRule i f = some r) (hcls : r.cls = .field) (hready : Ready s f b)
  (hsample : r.samplePointAction s.params b f = f0)
  (hact : r.fieldAction b (annotatedBit s f0 (r.name f b) b) = .ok (g, fieldDone))
  (hphase : f0.phase = .crc ∨ f0.phase = .trailer)
  (hkeeps : g.flags.fdf = f0.flags.fdf ∧ g.pos.k = f0.pos.k)
  (hk : (plainFieldBit s f0 (r.name f b) b).pos.k = k)

include hr hcls hready hsample hact hphase hkeeps hk

/-- The bit step of a role whose field action enters the bit in the CRC history itself. -/
theorem exec_payloadBit
    (hleaves : { fieldBitLeaves s f0 (r.name f b) b g with hist := g.hist, pos := { g.pos with k := k } } = e) :
    exec i s = .next (closeBit s e fieldDone) := by
  obtain ⟨hfdf, hgk⟩ := hkeeps
  rw [exec_eq_bitStep (frame?_of_mode hready.mode hready.ctx) hr, bitStep_ready r hready, runField,
    beforeField_eq_annotatedBit hsample, hact, hcls]
  dsimp only
  rw [account_annotatedBit_eq (fieldAction_frame hr hact) hfdf hgk, histAfterBit_of_late hphase, hk, hleaves]

/-- The bit step of a role that leaves the CRC history alone. -/
theorem exec_lateFieldBit (hhist : g.hist = f0.hist)
    (hleaves : { fieldBitLeaves s f0 (r.name f b) b g with pos := { g.pos with k := k } } = e) :
    exec i s = .next (closeBit s e fieldDone) := by
  refine exec_payloadBit hr hcls hready hsample hact hphase hkeeps hk ?_
  rw [hhist, ← plainFieldBit_hist (s := s) (name := r.name f b) (b := b) hphase]
  exact hleaves

end

/-! ### Flags and marks -/

/-- A conditional flag with the mark of the row-2 record that `ref` names. -/
theorem setErrorIf_markField {mark : Notes → Notes} {f : Frame} {ref : Option Nat}
    (hmark : mark f.notes = f.notes.changeField ref Annotation.marked) (wrong : Bool) (flag : ErrorFlag) :
    setErrorIf wrong flag mark f =
      { f with
        err := f.err ||| (if wrong then flag.mask else 0)
        notes := { f.notes with row2 := changeAt ref (markIf wrong) f.notes.row2 } } := by
  cases wrong with
  | false => cases ref <;> simp [setErrorIf, changeAt]
  | true => cases ref <;> simp [setErrorIf, setError, hmark, changeAt, Notes.changeField, markIf_true_eq]

/-- A conditional flag with the mark of the bit's own record. -/
theorem setErrorIf_markCurrent_annotatedBit (s : State) (f : Frame) (name : BitName) (b wrong : Bool)
    (flag : ErrorFlag) :
    setErrorIf wrong flag Notes.markCurrent (annotatedBit s f name b) =
      { annotatedBit s f name b with
        err := f.err ||| timingFlag s f ||| (if wrong then flag.mask else 0)
        notes := { f.notes with row1 := rowWithMark s f name b wrong } } := by
  cases wrong with
  | false => simp [setErrorIf, annotatedBit, rowWithMark, bitRecord]
  | true =>
    rw [setErrorIf, if_pos rfl, setError, markCurrent_of_last (n := (annotatedBit s f name b).notes) rfl]
    simp [annotatedBit, rowWithMark, bitRecord, Annotation.marked]

end Sys2Proof.Machine

/-! PROOFS. The bits of the CRC phase: the received CRC, the stuff count and its parity (43_data_crc_trailer.md R100 to
R104). -/

namespace Sys2Proof.Machine

open Sys2Proof.Safety

/-- The frame after a CRC bit is shifted in and counted. -/
def crcShifted (s : State) (f : Frame) (name : BitName) (first b : Bool) : Frame :=
  { annotatedBit s f name b with
    pos := { f.pos with j := f.pos.j + 1 }
    acc := { f.acc with crcRecv := pushBit f.acc.crcRecv b }
    notes := notesWithField s f name b first .crc none (pushBit f.acc.crcRecv b).toNat }

theorem nextPayloadBit_crcBit (s : State) (f : Frame) (name : BitName) (first b : Bool) :
    nextPayloadBit (crcBit first b (annotatedBit s f name b)) = crcShifted s f name first b := by
  unfold crcBit
  dsimp only
  rw [shiftIn_eq_pushBit]
  exact congrArg nextPayloadBit (openOrExtend_eq s f name b
    (g := { annotatedBit s f name b with acc := { f.acc with crcRecv := pushBit f.acc.crcRecv b } }) rfl ..)

theorem finishCrcBit_of_last {f : Frame} {w : CrcWidth} (hw : f.acc.crcW = some w) :
    finishCrcBit true f = .ok (crcComplete w f, true) := by
  simp [finishCrcBit, hw]

/-- The stuff-count check in the terms of the statement (43_data_crc_trailer.md R104). -/
theorem stuffCountWrong_eq (f : Frame) :
    stuffCountWrong f =
      (decide (grayDecode f.acc.stc ≠ f.stuff.dynCount % 8) || decide (f.acc.par ≠ grayParity f.acc.stc)) := by
  simp [stuffCountWrong, bne, beq_eq_decide]

/-- CRC completion in the terms of the statement (43_data_crc_trailer.md R104). -/
theorem crcComplete_eq (w : CrcWidth) (f : Frame) {computed : BitVec 21} {crcWrong countWrong : Bool}
    (hcomputed : crcOver w (crcInput f.flags.fdf f.hist) = computed)
    (hcrc : decide (computed ≠ f.acc.crcRecv) = crcWrong)
    (hcount : (f.flags.fdf &&
      (decide (grayDecode f.acc.stc ≠ f.stuff.dynCount % 8) || decide (f.acc.par ≠ grayParity f.acc.stc))) =
        countWrong) :
    crcComplete w f =
      { f with
        phase := .trailer
        acc := { f.acc with crcRecvOut := some f.acc.crcRecv.toNat, crcCalcOut := some computed.toNat }
        err := f.err ||| (if crcWrong then 0x02 else 0) ||| (if countWrong then 0x20 else 0)
        stuff := { f.stuff with dynEn := false }
        notes :=
          { f.notes with
            row2 := changeAt f.notes.stcField (markIf countWrong)
              (changeAt f.notes.curField (markIf crcWrong) f.notes.row2) } } := by
  have hbne : (computed != f.acc.crcRecv) = crcWrong := by rw [← hcrc]; simp [bne, beq_eq_decide]
  rw [← stuffCountWrong_eq] at hcount
  rw [crcComplete, hcomputed, crcCheck, hbne, setErrorIf_markField (mark := Notes.markCurField) rfl, stuffCountCheck,
    setErrorIf_markField (mark := Notes.markStcField) rfl]
  subst hcount
  rfl

/-! ### The received CRC -/

section

variable {i : Instr} {r : RoleRule} {s : State} {f e : Frame} {b first last : Bool} {name : BitName} {k : Nat}
  (hr : roleRule i f = some r) (hcls : r.cls = .field) (hready : Ready s f b) (hphase : f.phase = .crc)
  (hsample : r.samplePointAction s.params b f = f) (hname : r.name f b = name)
  (hact : r.fieldAction b (annotatedBit s f name b) =
    finishCrcBit last (nextPayloadBit (crcBit first b (annotatedBit s f name b))))
  (hk : (plainFieldBit s f name b).pos.k = k)

include hr hcls hready hphase hsample hname hact hk

/-- A CRC bit that is not the last. -/
theorem exec_crcBit_of_not_last (hlast : last = false)
    (hleaves : { fieldBitLeaves s f name b (crcShifted s f name first b) with
      pos := { f.pos with j := f.pos.j + 1, k := k } } = e) :
    exec i s = .next (closeBit s e false) := by
  subst hname
  rw [nextPayloadBit_crcBit, hlast] at hact
  exact exec_lateFieldBit hr hcls hready hsample hact (.inl hphase) ⟨rfl, rfl⟩ hk rfl hleaves

/-- The last CRC bit, which opens no field, completes the CRC. -/
theorem exec_crcBit_of_last {w : CrcWidth} {g : Frame} (hw : f.acc.crcW = some w) (hlast : last = true)
    (hfirst : first = false) (hg : crcComplete w (crcShifted s f name false b) = g)
    (hkeeps : g.flags.fdf = f.flags.fdf ∧ g.pos.k = f.pos.k ∧ g.hist = f.hist)
    (hleaves : { fieldBitLeaves s f name b g with pos := { g.pos with k := k } } = e) :
    exec i s = .next (closeBit s e true) := by
  subst hname
  obtain ⟨hfdf, hgk, hhist⟩ := hkeeps
  rw [nextPayloadBit_crcBit, hlast, hfirst, finishCrcBit_of_last (f := crcShifted ..) hw, hg] at hact
  exact exec_lateFieldBit hr hcls hready hsample hact (.inl hphase) ⟨hfdf, hgk⟩ hk hhist hleaves

end

/-- Settles O31: both rows shift the bit in by `crcBit`, and the last one is `crcComplete`. -/
theorem crcBitsShiftInAndTheLastChecksTheFrame : Obligations.CrcBitsShiftInAndTheLastChecksTheFrame := by
  refine ⟨onRow_roleRow (.crcC 0), onRow_roleRow (.crcFd 0), fun s f b index w hready hphase => ?_⟩
  have hr (hw : f.acc.crcW = some w) : roleRule (.crcFd index) f = some (crcFdRule w) :=
    congrArg (Option.map crcFdRule) hw
  have hcomplete := crcComplete_eq w (crcShifted s f (.crc 0) false b) rfl rfl rfl
  refine ⟨fun hfdf hj => ?classic, fun hfdf hw hn => ?fd, fun _ hw hj => ?classicLast, fun _ hw hn => ?fdLast⟩
  case classic =>
    have hlast : (f.pos.j + 1 == 15) = false := by simpa using hj
    exact exec_crcBit_of_not_last (i := .crcC index) rfl rfl hready hphase rfl rfl rfl
      (plainFieldBit_k_of_not_fdCrc (.inr hfdf)) hlast rfl
  case fd =>
    exact exec_crcBit_of_not_last (hr hw) rfl hready hphase rfl rfl rfl (plainFieldBit_k_of_fd hphase hfdf)
      (beq_eq_false_iff_ne.mpr hn) rfl
  case classicLast =>
    have hname : crcCRule.name f b = .crc 0 := congrArg (fun j => BitName.crc (14 - j)) hj
    have hlast : (f.pos.j + 1 == 15) = true := by simp [hj]
    have hfirst : (f.pos.j == 0) = false := by simp [hj]
    exact exec_crcBit_of_last (i := .crcC index) rfl rfl hready hphase rfl hname rfl rfl hw hlast hfirst hcomplete
      ⟨rfl, rfl, rfl⟩ rfl
  case fdLast =>
    have hname : (crcFdRule w).name f b = .crc 0 := congrArg BitName.crc (by rw [crcFdNumber]; omega)
    have hfirst : crcFdNumber f ≠ 0 := by
      have := crcWidth_bits_ge w
      rw [crcFdNumber]; omega
    exact exec_crcBit_of_last (hr hw) rfl hready hphase rfl hname rfl rfl hw
      (beq_iff_eq.mpr hn) (beq_eq_false_iff_ne.mpr hfirst) hcomplete ⟨rfl, rfl, rfl⟩ rfl

/-! ### The stuff count and its parity -/

/-- A stuff-count bit in the terms of the statement (43_data_crc_trailer.md R101). -/
theorem stcBit_eq (s : State) (f : Frame) (name : BitName) (b : Bool) :
    stcBit b (recordPayload b (annotatedBit s f name b)) =
      { annotatedBit s f name b with
        acc := { f.acc with stc := pushBit f.acc.stc b }
        hist := f.hist ++ [(b, .payload)]
        notes :=
          { notesWithField s f name b (f.pos.j == 0) .stc none (pushBit f.acc.stc b).toNat with
            stcField := if f.pos.j = 0 then some f.notes.row2.length else f.notes.stcField } } := by
  have hfield (first : Bool) := openOrExtend_eq s f name b
    (g := { annotatedBit s f name b with
      acc := { f.acc with stc := pushBit f.acc.stc b }, hist := f.hist ++ [(b, .payload)] })
    rfl first .stc none (pushBit f.acc.stc b).toNat
  unfold stcBit
  dsimp only
  rw [shiftIn_eq_pushBit]
  have hpos : (recordPayload b (annotatedBit s f name b)).pos.j = f.pos.j := rfl
  rw [hpos]
  by_cases hj : f.pos.j = 0
  · rw [hj]
    exact congrArg (fun g : Frame => { g with notes := { g.notes with stcField := g.notes.curField } }) (hfield true)
  · rw [if_neg hj, beq_eq_false_iff_ne.mpr hj]
    exact hfield false

/-- Settles O32: the action is `stcBit` after the bit's entry in the history. -/
theorem stuffCountBitsShiftIn : Obligations.StuffCountBitsShiftIn := by
  refine ⟨onRow_roleRow (.stc 0), fun s f b index hready hphase hfdf => ?_⟩
  have hact := congrArg (fieldOngoing ∘ nextPayloadBit) (stcBit_eq s f (.sc (2 - f.pos.j)) b)
  exact exec_payloadBit (i := .stc index) (r := stcRule) rfl rfl hready rfl hact (.inl hphase) ⟨rfl, rfl⟩
    (plainFieldBit_k_of_fd hphase hfdf) rfl

/-- Settles O33: the action keeps the bit and extends the field that shows the count. -/
theorem parityBitIsKept : Obligations.ParityBitIsKept := by
  refine ⟨onRow_roleRow .par, fun s f b hready hphase hfdf => ?_⟩
  have hextended := openOrExtend_eq s f .par b
    (g := { recordPayload b (annotatedBit s f .par b) with acc := { f.acc with par := b } })
    rfl false .stc none (grayDecode f.acc.stc)
  have hact := congrArg (fun g => (.ok (nextPayloadBit g, true) : FieldResult)) hextended
  exact exec_payloadBit (i := .par) (r := parRule) rfl rfl hready rfl hact (.inl hphase) ⟨rfl, rfl⟩
    (plainFieldBit_k_of_fd hphase hfdf) rfl

end Sys2Proof.Machine

/-! PROOFS. The trailer bits DL1, ACK, DL2 and EOF (43_data_crc_trailer.md R105 to R108). -/

namespace Sys2Proof.Machine

open Sys2Proof.Safety

/-- The bit step of a trailer role; `f0` is the frame after its sample-point action and `g` what its action leaves. -/
theorem exec_trailerBit {i : Instr} {r : RoleRule} {s : State} {f f0 g e : Frame} {b : Bool}
    (hr : roleRule i f = some r) (hcls : r.cls = .field) (hready : Ready s f b)
    (hsample : r.samplePointAction s.params b f = f0) (hphase : f0.phase = .trailer)
    (hact : r.fieldAction b (annotatedBit s f0 (r.name f b) b) = fieldOngoing g)
    (hkeeps : g.flags.fdf = f0.flags.fdf ∧ g.pos.k = f0.pos.k ∧ g.hist = f0.hist)
    (hleaves : fieldBitLeaves s f0 (r.name f b) b g = e) : exec i s = .next (closeBit s e false) := by
  obtain ⟨hfdf, hgk, hhist⟩ := hkeeps
  have hk := plainFieldBit_k_of_not_fdCrc (s := s) (name := r.name f b) (b := b) (.inl (hphase.trans_ne (by decide)))
  exact exec_lateFieldBit hr hcls hready hsample hact (.inr hphase) ⟨hfdf, hgk⟩ (hk.trans hgk.symm) hhist hleaves

/-- The frame after the bit of a trailer role that expects a recessive bit. -/
def recessiveChecked (s : State) (f : Frame) (name : BitName) (b : Bool) : Frame :=
  { annotatedBit s f name b with
    pos := { f.pos with t := f.pos.t + 1 }
    err := f.err ||| timingFlag s f ||| (if b then 0 else 0x04)
    notes := { f.notes with row1 := rowWithMark s f name b (!b) } }

theorem nextTrailerBit_expectRecessive (s : State) (f : Frame) (name : BitName) (b : Bool) :
    nextTrailerBit (expectRecessive b (annotatedBit s f name b)) = recessiveChecked s f name b := by
  rw [expectRecessive, setErrorIf_markCurrent_annotatedBit]
  cases b <;> rfl

/-- Settles O34: the rate is switched before the bit is checked. -/
theorem dl1SwitchesBackAndMustBeRecessive : Obligations.Dl1SwitchesBackAndMustBeRecessive := by
  refine ⟨onRow_roleRow .dl1, fun s f b hready hphase => ?_⟩
  have hact (f0 : Frame) := congrArg fieldOngoing (nextTrailerBit_expectRecessive s f0 .dl1 b)
  cases hbrs : f.flags.brs with
  | false =>
    have hsample : dl1SamplePointAction s.params b f = f := by simp [dl1SamplePointAction, hbrs]
    exact exec_trailerBit (i := .dl1) (r := dl1Rule) rfl rfl hready hsample hphase (hact f) ⟨rfl, rfl, rfl⟩ rfl
  | true =>
    have hsample : dl1SamplePointAction s.params b f = switchRate s.params false f := by
      simp [dl1SamplePointAction, hbrs]
    exact exec_trailerBit (i := .dl1) (r := dl1Rule) rfl rfl hready hsample hphase (hact _) ⟨rfl, rfl, rfl⟩ rfl

/-- ACK as a conditional flag and the register `ack` (43_data_crc_trailer.md R106). -/
theorem ackBit_eq (b : Bool) (f : Frame) :
    ackBit b f =
      { setErrorIf b .bitStatus Notes.markCurrent f with flags := { f.flags with ack := f.flags.ack || !b } } := by
  cases b <;> simp [ackBit, setErrorIf, setError]

/-- Settles O35: the action sets the flag when recessive, and `ack` when dominant. -/
theorem ackBitSetsAckOrBitStatus : Obligations.AckBitSetsAckOrBitStatus := by
  refine ⟨onRow_roleRow .ack, fun s f b hready hphase => ?_⟩
  have hact := congrArg (fieldOngoing ∘ nextTrailerBit) (ackBit_eq b (annotatedBit s f .ack b))
  rw [setErrorIf_markCurrent_annotatedBit] at hact
  exact exec_trailerBit (i := .ack) (r := ackRule) rfl rfl hready rfl hphase hact ⟨rfl, rfl, rfl⟩ rfl

/-- The end of the trailer as a value of the phase (43_data_crc_trailer.md R108). -/
theorem finishTrailer_eq (f : Frame) :
    finishTrailer f = { f with phase := if f.pos.t = 10 then .finished else f.phase } := by
  by_cases h : f.pos.t = 10 <;> simp [finishTrailer, h]

/-- Settles O36: both roles expect a recessive bit, and EOF ends the trailer at its tenth bit. -/
theorem dl2AndEofMustBeRecessive : Obligations.Dl2AndEofMustBeRecessive := by
  refine ⟨onRow_roleRow .dl2, onRow_roleRow (.eof 0), fun s f b index hready hphase => ⟨?dl2, ?eof⟩⟩
  case dl2 =>
    have hact := congrArg fieldOngoing (nextTrailerBit_expectRecessive s f .dl2 b)
    exact exec_trailerBit (i := .dl2) (r := dl2Rule) rfl rfl hready rfl hphase hact ⟨rfl, rfl, rfl⟩ rfl
  case eof =>
    have hact := congrArg (fieldOngoing ∘ finishTrailer) (nextTrailerBit_expectRecessive s f (.eof (f.pos.t - 2)) b)
    rw [Function.comp_apply, Function.comp_apply, finishTrailer_eq (recessiveChecked ..)] at hact
    rw [← hphase]
    exact exec_trailerBit (i := .eof index) (r := eofRule) rfl rfl hready rfl hphase hact ⟨rfl, rfl, rfl⟩ rfl

end Sys2Proof.Machine

/-! PROOFS. The stuff bits DSTUFF and FSB, and where each may stand (44_stuffing.md R109 to R114). -/

namespace Sys2Proof.Machine

open Sys2Proof.Safety

/-! ### What a stuff bit leaves -/

theorem stuffAfterBit_with_count (dynWas : Bool) (cls : BitClass) (b : Bool) (st : StuffState) (dynCount : Nat) :
    stuffAfterBit dynWas cls b { st with dynCount := dynCount } =
      { stuffAfterBit dynWas cls b st with dynCount := dynCount } := by
  cases dynWas with
  | false => rfl
  | true => by_cases h : (cls == .dstuff || b != st.runVal) = true <;> simp [stuffAfterBit, runUpdate, h]

/-- The bookkeeping of a bit reads neither the stuff count, nor the error flags, nor the annotation rows. -/
theorem account_with_count_and_mark (before f : Frame) (cls : BitClass) (b : Bool) (dynCount : Nat) (err : BitVec 6)
    (notes : Notes) :
    account before cls b { f with stuff := { f.stuff with dynCount := dynCount }, err := err, notes := notes } =
      { account before cls b f with
        stuff := { (account before cls b f).stuff with dynCount := dynCount }
        err := err
        notes := notes } := by
  rw [account, stuffAfterBit_with_count]
  rfl

theorem setErrorIf_with_stuff (wrong : Bool) (flag : ErrorFlag) (mark : Notes → Notes) (f : Frame) (st : StuffState) :
    setErrorIf wrong flag mark { f with stuff := st } = { setErrorIf wrong flag mark f with stuff := st } := by
  cases wrong <;> rfl

/-- The bit step of a role that writes the stuff count, checks the bit and does nothing else. `plain` is what it would
leave with an empty field action. -/
theorem exec_stuffBit {i : Instr} {r : RoleRule} {s : State} {f plain : Frame} {b : Bool} (wrong : Bool)
    (flag : ErrorFlag) (dynCount : Nat) (hr : roleRule i f = some r) (hready : Ready s f b)
    (hsample : r.samplePointAction s.params b f = f)
    (hact : r.fieldAction b (annotatedBit s f (r.name f b) b) =
      fieldOngoing (setErrorIf wrong flag Notes.markCurrent
        { annotatedBit s f (r.name f b) b with stuff := { f.stuff with dynCount := dynCount } }))
    (hplain : account (beforeField r s b f) r.cls b (beforeField r s b f) = plain) :
    exec i s = .next (closeBit s
      { plain with
        stuff := { plain.stuff with dynCount := dynCount }
        err := f.err ||| timingFlag s f ||| (if wrong then flag.mask else 0)
        notes := { f.notes with row1 := rowWithMark s f (r.name f b) b wrong } } false) := by
  rw [beforeField_eq_annotatedBit hsample] at hplain
  rw [setErrorIf_with_stuff, setErrorIf_markCurrent_annotatedBit] at hact
  rw [exec_eq_bitStep (frame?_of_mode hready.mode hready.ctx) hr, bitStep_ready r hready, runField,
    beforeField_eq_annotatedBit hsample, hact, ← hplain]
  exact congrArg (fun g => Host.Outcome.next (closeBit s g false))
    (account_with_count_and_mark _ (annotatedBit s f (r.name f b) b) r.cls b dynCount _ _)

/-- Settles O37: the action counts the bit and compares it with the run. -/
theorem dynamicStuffBitIsCountedAndChecked : Obligations.DynamicStuffBitIsCountedAndChecked :=
  ⟨onRow_roleRow .dstuff, fun _ f b hready =>
    exec_stuffBit (i := .dstuff) (r := dstuffRule) (b == f.stuff.runVal) .dynamicStuffing (f.stuff.dynCount + 1) rfl
      hready rfl rfl (account_beforeField_eq_plainBit dstuffRule _ _ _)⟩

/-- Settles O38: the action leaves the stuff count and compares the bit with the one before it. -/
theorem fixedStuffBitIsChecked : Obligations.FixedStuffBitIsChecked :=
  ⟨onRow_roleRow .fsb, fun _ f b hready =>
    exec_stuffBit (i := .fsb) (r := fsbRule) (b == f.stuff.prevBit) .fixedStuffing f.stuff.dynCount rfl hready rfl
      rfl (account_beforeField_eq_plainBit fsbRule _ _ _)⟩

/-! ### Where stuff bits stand -/

theorem isFixedStuff_of_not_fdCrc {f : Frame} (h : ¬ (f.phase = .crc ∧ f.flags.fdf = true)) :
    isFixedStuff f = false :=
  Bool.eq_false_iff.mpr fun hfix => by
    obtain ⟨hphase, hfdf, -⟩ := isFixedStuff_iff.mp hfix
    exact h ⟨hphase, hfdf⟩

theorem classify_of_not_fdCrc {f : Frame} (h : ¬ (f.phase = .crc ∧ f.flags.fdf = true)) :
    classify f = if isDynamicStuff f then .dstuff else .field := by
  rw [classify, isFixedStuff_of_not_fdCrc h, if_neg Bool.false_ne_true]

/-- Settles O58: dynamic stuffing is off in the CRC phase of an FD frame and in the trailer. -/
theorem stuffingSchemesNeverMeet : Obligations.StuffingSchemesNeverMeet := by
  intro s f hinv hctx
  have hdyn := (hinv.layout f hctx).dynamicStuffing
  refine ⟨fun hfix => ?fixed, fun h => (isDynamicStuff_iff.mp h).1, fun hphase => ?trailer⟩
  case fixed =>
    obtain ⟨hphase, hfdf, -⟩ := isFixedStuff_iff.mp hfix
    have hoff : f.stuff.dynEn = false := by simpa [hphase, hfdf] using hdyn
    exact ⟨hphase, hfdf, hoff⟩
  case trailer =>
    have hoff : f.stuff.dynEn = false := by simpa [hphase] using hdyn
    rw [classify_of_not_fdCrc (by simp [hphase]), isDynamicStuff, hoff]
    rfl

end Sys2Proof.Machine

/-! PROOFS. Stuffing undone (44_stuffing.md R115): the decoder takes out exactly the bits a transmitter inserts. -/

namespace Sys2Proof.Machine

open Sys2Proof.Safety

/-! ### The wire bits of a transmitter -/

/-- The length of the run of wire bits after a field bit. -/
def runLenAfter (runVal : Bool) (runLen : Nat) (b : Bool) : Nat := if b = runVal then runLen + 1 else 1

theorem stuffBits_nil {n : Nat} (v : Bool) (hn : n ≠ 5) : stuffBits v n [] = [] := if_neg hn

theorem stuffBits_cons {n : Nat} (v b : Bool) (bits : List Bool) (hn : n ≠ 5) :
    stuffBits v n (b :: bits) = (b, .field) :: stuffBits b (runLenAfter v n b) bits := by
  rw [stuffBits, if_neg hn, runLenAfter]
  by_cases hb : b = v
  · rw [if_pos hb, if_pos hb, hb]
  · rw [if_neg hb, if_neg hb]

/-- After five identical bits the stuff bit comes first, and it starts the new run. -/
theorem stuffBits_five (v : Bool) (bits : List Bool) :
    stuffBits v 5 bits = (!v, .dstuff) :: stuffBits (!v) 1 bits := by
  cases bits with
  | nil => rfl
  | cons b bits =>
    have hone : 1 ≠ 5 := by decide
    rw [stuffBits_cons _ _ _ hone, runLenAfter]
    by_cases hb : b = !v
    · rw [stuffBits, if_pos rfl, if_pos hb, if_pos hb, hb]
    · rw [stuffBits, if_pos rfl, if_neg hb, if_neg hb]

/-- Induction over the wire bits of a transmitter: their end, a stuff bit and a field bit. -/
theorem stuffBits_induction {P : Bool → Nat → List Bool → Prop} (nil : ∀ v n, n ≠ 5 → P v n [])
    (stuff : ∀ v bits, P (!v) 1 bits → P v 5 bits)
    (field : ∀ v n b bits, n ≠ 5 → P b (runLenAfter v n b) bits → P v n (b :: bits)) (v : Bool) (n : Nat)
    (bits : List Bool) : P v n bits := by
  have afterStuffBit (bits : List Bool) (notFive : ∀ v n, n ≠ 5 → P v n bits) (v : Bool) (n : Nat) : P v n bits := by
    by_cases hn : n = 5
    · rw [hn]; exact stuff v bits (notFive (!v) 1 (by decide))
    · exact notFive v n hn
  induction bits generalizing v n with
  | nil => exact afterStuffBit [] nil v n
  | cons b bits ih => exact afterStuffBit (b :: bits) (fun v n hn => field v n b bits hn (ih b _)) v n

/-! ### The decoder on these bits -/

/-- The decoder is in a region of dynamic stuffing, with this run of wire bits behind it. -/
structure InStuffedRegion (f : Frame) (runVal : Bool) (runLen : Nat) : Prop where
  dynEn : f.stuff.dynEn = true
  runVal : f.stuff.runVal = runVal
  runLen : f.stuff.runLen = runLen
  notFdCrc : ¬ (f.phase = .crc ∧ f.flags.fdf = true)

section

variable {f : Frame} {v : Bool} {n : Nat} (hf : InStuffedRegion f v n)

include hf

theorem InStuffedRegion.isDynamicStuff_eq : isDynamicStuff f = decide (n = 5) := by
  rw [isDynamicStuff, hf.dynEn, hf.runLen, Bool.true_and, beq_eq_decide]

theorem InStuffedRegion.classify_eq : classify f = if n = 5 then .dstuff else .field := by
  rw [classify_of_not_fdCrc hf.notFdCrc, hf.isDynamicStuff_eq]
  simp only [decide_eq_true_eq]

/-- A stuff bit starts the new run, and any other bit continues the run or breaks it (44_stuffing.md R111). -/
theorem InStuffedRegion.runAfter_eq (cls : BitClass) (b : Bool) :
    runAfter f.stuff (cls == .dstuff) b = (b, if cls = .dstuff then 1 else runLenAfter v n b) := by
  rw [runAfter, if_pos hf.dynEn, hf.runVal, hf.runLen]
  cases cls with
  | dstuff => rfl
  | field | fsb => by_cases hb : b = v <;> simp [runLenAfter, hb]

theorem InStuffedRegion.account (cls : BitClass) (b : Bool) :
    InStuffedRegion (account f cls b f) b (if cls = .dstuff then 1 else runLenAfter v n b) := by
  have hstuff : (Machine.account f cls b f).stuff = _ := stuffAfterBit_eq f.stuff f.stuff cls b rfl rfl
  rw [hf.runAfter_eq] at hstuff
  exact ⟨hstuff ▸ hf.dynEn, hstuff ▸ rfl, hstuff ▸ rfl, hf.notFdCrc⟩

end

/-- Each wire bit is given its own class, and no stuff bit is found wrong. -/
theorem validate_stuffBits (v : Bool) (n : Nat) (bits : List Bool) {f : Frame} (hf : InStuffedRegion f v n) :
    validate f ((stuffBits v n bits).map Prod.fst) = (stuffBits v n bits).map (fun e => (e.1, e.2, false)) := by
  induction v, n, bits using stuffBits_induction generalizing f with
  | nil v n hn => rw [stuffBits_nil v hn]; rfl
  | stuff v bits ih =>
    have hclass : classify f = .dstuff := hf.classify_eq
    have hright : dynamicStuffWrong f (!v) = false := by simp [dynamicStuffWrong, hf.runVal]
    rw [stuffBits_five, List.map_cons, List.map_cons, validate, hclass, hright, Bool.and_false,
      ih (hf.account .dstuff (!v))]
  | field v n b bits hn ih =>
    have hclass : classify f = .field := hf.classify_eq.trans (if_neg hn)
    have hdyn : isDynamicStuff f = false := hf.isDynamicStuff_eq.trans (decide_eq_false hn)
    rw [stuffBits_cons _ _ _ hn, List.map_cons, List.map_cons, validate, hclass, hdyn, Bool.false_and,
      ih (hf.account .field b)]

/-- The field bits among the wire bits are those the transmitter was given. -/
theorem fieldBits_stuffBits (v : Bool) (n : Nat) (bits : List Bool) :
    fieldBits ((stuffBits v n bits).map (fun e => (e.1, e.2, false))) = bits := by
  induction v, n, bits using stuffBits_induction with
  | nil v n hn => rw [stuffBits_nil v hn]; rfl
  | stuff v bits ih => rw [stuffBits_five]; exact ih
  | field v n b bits hn ih => rw [stuffBits_cons _ _ _ hn]; exact congrArg (b :: ·) ih

/-- Settles O39: what the decoder makes of the wire bits is the wire bits with no error. -/
theorem destuffingUndoesStuffing : Obligations.DestuffingUndoesStuffing := by
  intro bits f hdyn hval hlen hphase
  dsimp only
  rw [validate_stuffBits true 0 bits ⟨hdyn, hval, hlen, hphase⟩]
  refine ⟨?classes, ?noneWrong, fieldBits_stuffBits true 0 bits⟩
  case classes => rw [List.map_map]; exact List.map_id _
  case noneWrong =>
    intro e he
    obtain ⟨w, -, rfl⟩ := List.mem_map.mp he
    rfl

end Sys2Proof.Machine

/-! PROOFS. The CRC engine (45_crc.md): its shift register in numbers (R116 to R118), the change of the CRC by every
single bit flip (R122), and the bits it runs over (R119, R120). -/

namespace Sys2Proof.Machine

/-! ### The variants -/

theorem CrcWidth.two_pow_bits (w : CrcWidth) : 2 ^ w.bits = 2 * 2 ^ (w.bits - 1) := by cases w <;> rfl

theorem CrcWidth.hiMask_toNat (w : CrcWidth) : w.hiMask.toNat = 2 ^ (w.bits - 1) := by cases w <;> rfl

theorem CrcWidth.wMask_toNat (w : CrcWidth) : w.wMask.toNat = 2 ^ w.bits - 1 := by cases w <;> rfl

theorem CrcWidth.init_lt (w : CrcWidth) : w.init.toNat < 2 ^ w.bits := by cases w <;> decide

theorem CrcWidth.poly_lt (w : CrcWidth) : w.poly.toNat < 2 ^ w.bits := by cases w <;> decide

/-- Every polynomial has the constant term 1 (45_crc.md R122). -/
theorem CrcWidth.poly_odd (w : CrcWidth) : w.poly.toNat % 2 = 1 := by cases w <;> decide

theorem CrcWidth.two_pow_bits_dvd (w : CrcWidth) : 2 ^ w.bits ∣ 2 ^ 21 :=
  pow_dvd_pow 2 (by cases w <;> decide)

/-! ### One step of the register in numbers -/

/-- The register doubled is the register without its high bit, moved up by one place. -/
theorem CrcWidth.doubled_mod (w : CrcWidth) (n : Nat) : 2 * n % 2 ^ w.bits = 2 * (n % 2 ^ (w.bits - 1)) := by
  rw [w.two_pow_bits, Nat.mul_mod_mul_left]

/-- `highest` of R117 as a number: the register reaches `2^(w-1)`. -/
def CrcWidth.highBit (w : CrcWidth) (reg : BitVec 21) : Bool := decide (2 ^ (w.bits - 1) ≤ reg.toNat)

theorem and_hiMask_ne_zero {w : CrcWidth} {reg : BitVec 21} (h : reg.toNat < 2 ^ w.bits) :
    (reg &&& w.hiMask != 0) = w.highBit reg := by
  have hmask : (reg &&& w.hiMask).toNat = (reg.toNat.testBit (w.bits - 1)).toNat * 2 ^ (w.bits - 1) := by
    rw [BitVec.toNat_and, w.hiMask_toNat, Nat.and_two_pow]
  rw [CrcWidth.highBit, Bool.eq_iff_iff, bne_iff_ne, decide_eq_true_iff, ne_eq, ← BitVec.toNat_inj, hmask]
  rcases Nat.lt_or_ge reg.toNat (2 ^ (w.bits - 1)) with hlow | hhigh
  · simp [Nat.testBit_lt_two_pow hlow, hlow]
  · have hbit := Nat.testBit_of_two_pow_le_and_two_pow_add_one_gt hhigh (by rwa [pow_succ', ← w.two_pow_bits])
    simp [hbit, hhigh]

/-- A register in width is its high bit and the bits below. -/
theorem toNat_eq_highBit_add_mod {w : CrcWidth} {reg : BitVec 21} (h : reg.toNat < 2 ^ w.bits) :
    reg.toNat = (w.highBit reg).toNat * 2 ^ (w.bits - 1) + reg.toNat % 2 ^ (w.bits - 1) := by
  rw [w.two_pow_bits] at h
  rcases Nat.lt_or_ge reg.toNat (2 ^ (w.bits - 1)) with hlow | hhigh
  · simp [CrcWidth.highBit, hlow, Nat.mod_eq_of_lt]
  · rw [Nat.mod_eq_sub_mod hhigh, Nat.mod_eq_of_lt (by omega), CrcWidth.highBit, decide_eq_true hhigh]
    simp [hhigh]

theorem shifted_toNat (w : CrcWidth) (reg : BitVec 21) :
    ((reg <<< 1) &&& w.wMask).toNat = 2 * reg.toNat % 2 ^ w.bits := by
  rw [BitVec.toNat_and, w.wMask_toNat, Nat.and_two_pow_sub_one_eq_mod, BitVec.toNat_shiftLeft,
    Nat.mod_mod_of_dvd _ w.two_pow_bits_dvd, Nat.shiftLeft_eq, pow_one, Nat.mul_comm]

theorem crcStep_toNat {w : CrcWidth} {reg : BitVec 21} (h : reg.toNat < 2 ^ w.bits) (b : Bool) :
    (crcStep w reg b).toNat =
      if w.highBit reg ^^ b then 2 * reg.toNat % 2 ^ w.bits ^^^ w.poly.toNat
      else 2 * reg.toNat % 2 ^ w.bits := by
  rw [crcStep, and_hiMask_ne_zero h, apply_ite BitVec.toNat, BitVec.toNat_xor, shifted_toNat]

/-- A step stays in width, whatever the register. -/
theorem crcStep_lt (w : CrcWidth) (reg : BitVec 21) (b : Bool) : (crcStep w reg b).toNat < 2 ^ w.bits := by
  have hshifted : ((reg <<< 1) &&& w.wMask).toNat < 2 ^ w.bits :=
    shifted_toNat w reg ▸ Nat.mod_lt _ (Nat.two_pow_pos _)
  dsimp only [crcStep]
  split
  · rw [BitVec.toNat_xor]
    exact Nat.xor_lt_two_pow hshifted w.poly_lt
  · exact hshifted

/-! ### The CRC of a list -/

theorem crcOver_append (w : CrcWidth) (before after : List Bool) :
    crcOver w (before ++ after) = after.foldl (crcStep w) (crcOver w before) := List.foldl_append

theorem crcOver_lt (w : CrcWidth) (bits : List Bool) : (crcOver w bits).toNat < 2 ^ w.bits := by
  cases bits using List.reverseRecOn with
  | nil => exact w.init_lt
  | append_singleton bits b => rw [crcOver_append]; exact crcStep_lt w _ b

/-- Settles O45: the masks and the shift of R117 read as numbers, and the fold of R118. -/
theorem crcEngineIsTheShiftRegister : Obligations.CrcEngineIsTheShiftRegister :=
  ⟨⟨rfl, rfl, rfl⟩, ⟨rfl, rfl, rfl⟩, ⟨rfl, rfl, rfl⟩, fun w => ⟨w.hiMask_toNat, w.wMask_toNat⟩,
    fun w reg b h => ⟨crcStep_toNat h b, crcStep_lt w reg b⟩, fun w bits b => crcOver_append w bits [b]⟩

/-! ### A difference, once made, stays -/

/-- The lowest bit after a step is the bit fed back: the polynomial is odd, and the doubled register is even. -/
theorem crcStep_getLsbD_zero {w : CrcWidth} {reg : BitVec 21} (h : reg.toNat < 2 ^ w.bits) (b : Bool) :
    (crcStep w reg b).getLsbD 0 = (w.highBit reg ^^ b) := by
  rw [← BitVec.testBit_toNat, Nat.testBit_zero, crcStep_toNat h, w.doubled_mod]
  cases w.highBit reg ^^ b with
  | false => simp
  | true => simp [w.poly_odd]

theorem crcStep_ne_of_flipped_bit {w : CrcWidth} {reg : BitVec 21} (h : reg.toNat < 2 ^ w.bits) (b : Bool) :
    crcStep w reg b ≠ crcStep w reg (!b) := by
  intro heq
  have hfeedback : (w.highBit reg ^^ b) = (w.highBit reg ^^ !b) := by
    rw [← crcStep_getLsbD_zero h, heq, crcStep_getLsbD_zero h]
  simp at hfeedback

/-- A step on a given input bit is injective: the lowest bit after it gives back the high bit before it, and the rest
gives back the bits below. -/
theorem crcStep_injective {w : CrcWidth} {r r' : BitVec 21} (h : r.toNat < 2 ^ w.bits) (h' : r'.toNat < 2 ^ w.bits)
    {b : Bool} (heq : crcStep w r b = crcStep w r' b) : r = r' := by
  have hhigh : w.highBit r = w.highBit r' := by
    rw [← Bool.xor_left_inj (z := b), ← crcStep_getLsbD_zero h, heq, crcStep_getLsbD_zero h']
  have hlow : r.toNat % 2 ^ (w.bits - 1) = r'.toNat % 2 ^ (w.bits - 1) := by
    have hstep := congrArg BitVec.toNat heq
    rw [crcStep_toNat h, crcStep_toNat h', hhigh, w.doubled_mod, w.doubled_mod] at hstep
    split at hstep
    · exact Nat.eq_of_mul_eq_mul_left two_pos (Nat.xor_left_inj.mp hstep)
    · exact Nat.eq_of_mul_eq_mul_left two_pos hstep
  apply BitVec.eq_of_toNat_eq
  rw [toNat_eq_highBit_add_mod h, hhigh, hlow, ← toNat_eq_highBit_add_mod h']

theorem foldl_crcStep_ne {w : CrcWidth} (bits : List Bool) {r r' : BitVec 21} (h : r.toNat < 2 ^ w.bits)
    (h' : r'.toNat < 2 ^ w.bits) (hne : r ≠ r') : bits.foldl (crcStep w) r ≠ bits.foldl (crcStep w) r' := by
  induction bits generalizing r r' with
  | nil => exact hne
  | cons b bits ih => exact ih (crcStep_lt w r b) (crcStep_lt w r' b) (mt (crcStep_injective h h') hne)

/-- Settles O46: the flipped bit makes the registers differ, and the later steps, being injective, keep the
difference. -/
theorem crcSeesEverySingleBitFlip : Obligations.CrcSeesEverySingleBitFlip := by
  intro w before after b
  rw [crcOver_append, crcOver_append, List.foldl_cons, List.foldl_cons]
  exact foldl_crcStep_ne after (crcStep_lt w _ b) (crcStep_lt w _ (!b))
    (crcStep_ne_of_flipped_bit (crcOver_lt w before) b)

/-! ### The input and the width -/

theorem HistClass.inCrc_fd (c : HistClass) : c.inCrc true = true := by cases c <;> rfl

theorem HistClass.inCrc_classic (c : HistClass) : c.inCrc false = decide (c = .field) := by cases c <;> rfl

/-- Settles O47: the class filter of R120 in each format, and the branches of R119. -/
theorem crcInputAndWidthFollowTheFormat : Obligations.CrcInputAndWidthFollowTheFormat := by
  refine ⟨fun hist => ?fdInput, fun hist => ?classicInput, fun n => rfl, fun n hn => if_pos hn,
    fun n hn => if_neg (Nat.not_le.mpr hn)⟩
  case fdInput => simp only [crcInput, HistClass.inCrc_fd, List.filter_true]
  case classicInput => simp only [crcInput, HistClass.inCrc_classic]

end Sys2Proof.Machine

/-! PROOFS. The ends of a run inside a frame: the abort poll (46_errors_emitter.md R131, 60_exceptions.md R136) and the
exhaustion of the capture (46_errors_emitter.md R130). -/

namespace Sys2Proof.Machine

theorem abort_eq_true_iff {p : Params} {n : Nat} : p.abort n = true ↔ n ∈ p.abortPolls := List.contains_iff_mem

theorem abortPoll_of_abort {s : State} (h : s.params.abort s.run.pollCount = true) :
    abortPoll s = abortTake { s with run := { s.run with pollCount := s.run.pollCount + 1 } } := if_pos h

theorem abortPoll_of_goesOn {s : State} (h : ¬ s.params.abort s.run.pollCount = true) :
    abortPoll s = { s with run := { s.run with pollCount := s.run.pollCount + 1 } } := if_neg h

/-- Settles O8: the poll answers 1 exactly when its number is listed, and then `abortTake` acts on the counted poll. -/
theorem abortPollCountsAndTakesTheAbort : Obligations.AbortPollCountsAndTakesTheAbort := fun _ =>
  ⟨fun hlisted => abortPoll_of_abort (abort_eq_true_iff.mpr hlisted),
    fun hunlisted => abortPoll_of_goesOn fun h => hunlisted (abort_eq_true_iff.mp h)⟩

/-- A bit is exhausted when the sample point `begin` computes lies beyond the capture. -/
theorem exhausted_beginBit_iff {p : Params} {f : Frame} :
    exhausted p (beginBit p f) = true ↔
      p.sampleCount ≤ rnd (f.bitStart + p.spb f.timing.rate * p.spf f.timing.rate) := by
  rw [exhausted, beginBit_samplePoint, decide_eq_true_eq]

/-- Settles O9: the step tests exhaustion before the bit is sampled, and `exhaust` is all it does then. -/
theorem exhaustionDropsTheFrame : Obligations.ExhaustionDropsTheFrame :=
  fun _ _ hrun hmode hctx hbeyond => step_of_exhausted hrun hmode hctx (exhausted_beginBit_iff.mpr hbeyond)

end Sys2Proof.Machine

/-! PROOFS. Row 1 has no gap (46_errors_emitter.md R127): a bit appends a record from the rounded bit start to the
rounded bit end, and changes no span of the records before it. -/

namespace Sys2Proof.Machine

open Sys2Proof.Safety

/-- A row with the spans of a contiguous row and one span more, which begins where that row ends, is contiguous. -/
theorem contiguous_of_spans_append {row row' : List BitRecord} {start mid stop : Nat}
    (hrow : contiguous start row mid) (hspans : rowSpans row' = rowSpans row ++ [(mid, stop)]) :
    contiguous start row' stop := by
  induction row generalizing start row' with
  | nil =>
    obtain ⟨a, rfl, ha⟩ := List.map_eq_singleton_iff.mp hspans
    obtain ⟨hstart, hstop⟩ := Prod.mk.inj ha
    exact ⟨hstart.trans hrow.symm, hstop⟩
  | cons a row ih =>
    obtain ⟨a', rest, rfl, ha, hrest⟩ := List.map_eq_cons_iff.mp hspans
    obtain ⟨hstart, hstop⟩ := Prod.mk.inj ha
    obtain ⟨hfirst, hrow⟩ := hrow
    exact ⟨hstart.trans hfirst, ih (hstop ▸ hrow) hrest⟩

/-- A frame with no gap up to its bit start has none up to its bit end once the bit is processed. -/
theorem BitFrame.contiguous {s : State} {f f0 g : Frame} {b : Bool} (hbit : BitFrame s f f0 g b)
    (hf : contiguous f.notes.startSample f.notes.row1 (rnd f.bitStart)) :
    contiguous g.notes.startSample g.notes.row1 (rnd g.timing.bitEnd) := by
  rw [hbit.startSample]
  exact contiguous_of_spans_append hf hbit.spans

theorem rowsContiguous_of_noFrame {s t : State} (hs : RowsContiguous s) (hctx : t.ctx = none) (hout : t.out = s.out) :
    RowsContiguous t where
  frame f hf := by rw [hctx] at hf; cases hf
  packets := by rw [hout]; exact hs.packets

/-- The end of a bit passes the row of its frame on, to the frame at the next bit start or to the packet. -/
theorem closeBit_rowsContiguous {s : State} {f : Frame} (fieldDone : Bool)
    (hpackets : ∀ p ∈ s.out, contiguous p.startSample p.row1 p.endSample)
    (hf : contiguous f.notes.startSample f.notes.row1 (rnd f.timing.bitEnd)) :
    RowsContiguous (closeBit s f fieldDone) where
  frame g hg := by
    obtain ⟨-, rfl⟩ := closeBit_ctx hg
    exact hf
  packets := by
    obtain ⟨-, -, hout | ⟨hout, -, -⟩⟩ := closeBit_frame s f fieldDone <;> rw [hout]
    · exact hpackets
    · exact List.forall_mem_append.mpr ⟨hpackets, List.forall_mem_singleton.mpr hf⟩

/-- A search leaves the packets alone and starts a frame, if any, with an empty row at its own edge. -/
theorem searchStep_rowsContiguous {s : State} (hs : RowsContiguous s) : RowsContiguous (searchStep s) := by
  rcases searchStep_cases s with ⟨-, h⟩ | ⟨-, -, h⟩ | ⟨sof, -, -, h⟩
  · exact rowsContiguous_of_noFrame hs (by rw [h]) (by rw [h])
  · exact rowsContiguous_of_noFrame hs (by rw [h]) (by rw [h])
  · have hstart : sof = rnd (position sof) := by rw [position_eq, rnd_natCast]
    rw [h]
    exact ⟨fun f hf => Option.some.inj hf ▸ hstart, hs.packets⟩

theorem step_rowsContiguous {s t : State} (hs : RowsContiguous s) (h : step s = .next t) : RowsContiguous t := by
  obtain ⟨-, ⟨-, rfl⟩ | ⟨f, hmode, hctx, -⟩⟩ := step_next h
  · exact searchStep_rowsContiguous hs
  · rcases step_next_frame hmode hctx h with rfl | ⟨i, r, b, g, fieldDone, -, -, hr, hact, rfl⟩
    · exact rowsContiguous_of_noFrame hs rfl rfl
    · exact closeBit_rowsContiguous fieldDone hs.packets ((bit_frame hr hact).contiguous (hs.frame f hctx))

/-- At reset there is neither a frame nor a packet. -/
theorem rowsContiguous_reset : RowsContiguous State.reset where
  frame _ hf := by cases hf
  packets _ hp := by cases hp

/-- Settles O57: the base case `rowsContiguous_reset` and the step lemma `step_rowsContiguous`. -/
theorem stepsKeepRowsContiguous : Obligations.StepsKeepRowsContiguous :=
  ⟨rowsContiguous_reset, fun _ _ => step_rowsContiguous⟩

end Sys2Proof.Machine

/-! PROOFS. The two reset events: run reset (70_reset_and_hazards.md R144) and frame reset (R145). -/

namespace Sys2Proof.Machine

@[simp] theorem frameReset_bitStart (sof : Nat) : (frameReset sof).bitStart = sof := position_eq sof

/-- A step in mode SEARCH whose poll goes on starts a frame at the edge the search finds. -/
theorem step_of_sofEdge {s : State} {e : Nat} (hrun : s.runnable = true) (hmode : s.run.mode = .search)
    (hgoesOn : s.params.abort s.run.pollCount = false) (hedge : sofEdge s = some e) :
    step s = .next
      { s with
        run := { s.run with mode := .frame, pollCount := s.run.pollCount + 1 }, ctx := some (frameReset e) } := by
  rw [step_of_search hrun hmode, searchStep_of_edge hgoesOn hedge]

/-- Settles O6: the frame is the one frame reset builds at the edge `sofEdge` finds. Its registers have their reset
values by definition, except the bit start, which is the edge's index as a sample position. -/
theorem searchStartsAFreshFrame : Obligations.SearchStartsAFreshFrame := by
  intro s e hrun hmode hgoesOn hfrom hedge hfirst
  have hsof : sofEdge s = some e := sofEdge_eq_some_iff.mpr ⟨hfrom, hedge, hfirst⟩
  exact ⟨frameReset e, step_of_sofEdge hrun hmode hgoesOn hsof, frameReset_bitStart e,
    rfl, rfl, rfl, rfl, rfl, rfl, rfl, rfl, rfl, rfl, rfl, rfl⟩

/-- Settles O5: the registers of R144 have these values in `State.reset` by definition. -/
theorem resetIsRunReset : Obligations.ResetIsRunReset := ⟨rfl, rfl, rfl, rfl, rfl, rfl⟩

end Sys2Proof.Machine

/-! PROOFS. The encoder and the decoder of keys (30_encoding.md R58). -/

namespace Sys2Proof.Machine

/-- Settles O2: a role's own key agrees with itself in the key bits that select the role, so by
`decodeExactlyOnTheRowOfARole` it decodes to the role as soon as the role is well formed. -/
theorem decodeOfEncodedRole : Obligations.DecodeOfEncodedRole := fun i hwf =>
  (decodeExactlyOnTheRowOfARole (encode i) i).mpr ⟨hwf, rfl⟩

/-- Settles O1: fourteen lookups of given keys in the role table. -/
theorem specKeysDecodeToTheirRoles : Obligations.SpecKeysDecodeToTheirRoles := by
  unfold Obligations.SpecKeysDecodeToTheirRoles
  decide

end Sys2Proof.Machine

/-! PROOFS. The control invariant: it holds at reset, every step keeps it, and under it the machine goes on to mode
`DONE` (10_state.md R14 to R26, 41_frame_fsm.md R83, 30_encoding.md R58). -/

namespace Sys2Proof.Machine

/-- Settles O52: the parts of the invariant are kept by `step_coherent` (run state), `step_inputs` (sample memory) and
`step_frame_ok` (layout, rate, frame end), which `step_inv` puts together. -/
theorem stepsKeepTheControlInvariant : Obligations.StepsKeepTheControlInvariant := fun _ _ => step_inv

/-- Settles O51: the reset state is the start of a run on an empty capture, which is canonical. -/
theorem controlInvariantAtReset : Obligations.ControlInvariantAtReset := inv_start .initial Memory.reset_wf

/-- Settles O55: under the invariant the key of a bit has a role, and the role finds its CRC width (`step_goes_on`). -/
theorem noStopBeforeTheEnd : Obligations.NoStopBeforeTheEnd := fun _ => step_goes_on

end Sys2Proof.Machine

/-! PROOFS. Which step answers what: the role of the key, the refusal and the end of the run (00_scope.md R7,
41_frame_fsm.md R77, R81). -/

namespace Sys2Proof.Machine

theorem exhausted_eq_false_iff {p : Params} {f : Frame} :
    exhausted p f = false ↔ rnd f.timing.samplePoint < p.sampleCount := by
  rw [exhausted, decide_eq_false_iff_not, Nat.not_le]

theorem beginState_of_ctx {s : State} {f : Frame} (hctx : s.ctx = some f) :
    beginState s = { s with ctx := some (beginBit s.params f) } := by
  rw [beginState, hctx, Option.map_some]

/-- Settles O13: a bit inside the capture is not exhausted, so the step is the role on the state after `begin`. -/
theorem stepRunsTheRoleOfTheKey : Obligations.StepRunsTheRoleOfTheKey := by
  intro s f i hrun hmode hctx hinside hdec
  rw [step_of_role hrun hmode hctx (exhausted_eq_false_iff.mpr hinside) hdec, beginState_of_ctx hctx]

theorem nineTenths_eq : mkRat 9 10 = (9 / 10 : Rat) := by norm_num [Rat.mkRat_eq_div]

theorem between_eq_true_iff {x a b : Rat} : between x a b = true ↔ a ≤ x ∧ x ≤ b := by
  rw [between, Bool.and_eq_true, decide_eq_true_eq, decide_eq_true_eq]

theorem captureInRange_eq_true_iff {count : Nat} {m : Memory} :
    captureInRange count m = true ↔ ∀ c ∈ m, c.1 < count ∧ (c.2 = 0 ∨ c.2 = 1) := by
  simp only [captureInRange, List.all_eq_true, Bool.and_eq_true, Bool.or_eq_true, decide_eq_true_eq]

/-- The ranges of R5 in the library's order. -/
theorem runnable_iff {s : State} :
    s.runnable = true ↔
      0 < s.params.spbStd ∧ 0 < s.params.spbFd ∧
      (1 / 2 ≤ s.params.spfStd ∧ s.params.spfStd ≤ 9 / 10) ∧ (1 / 2 ≤ s.params.spfFd ∧ s.params.spfFd ≤ 9 / 10) ∧
      0 < s.params.psPerSample ∧ (1 / 5 ≤ s.params.pAckSteady ∧ s.params.pAckSteady ≤ 4 / 5) ∧
      (∀ c ∈ s.raw, c.1 < s.params.sampleCount ∧ (c.2 = 0 ∨ c.2 = 1)) := by
  simp only [State.runnable, Params.inRange, Bool.and_eq_true, decide_eq_true_eq, between_eq_true_iff,
    captureInRange_eq_true_iff, half_eq, nineTenths_eq, fifth_eq, fourFifths_eq, and_assoc]

/-- A bit step is never refused. -/
theorem bitStep_ne_refused (r : RoleRule) (s : State) (reason : Refusal) : bitStep r s ≠ .refused reason := by
  unfold bitStep
  split
  · exact nofun
  · split
    · exact nofun
    · split <;> exact nofun

/-- No role is refused: each has a meaning. -/
theorem exec_ne_refused (i : Instr) (s : State) (reason : Refusal) : exec i s ≠ .refused reason := by
  rcases exec_forms i with ⟨r, hr⟩ | ⟨index, rfl⟩
  · rw [hr]; exact bitStep_ne_refused r s reason
  · show execCrcFd s ≠ _
    unfold execCrcFd
    split
    · exact nofun
    · split
      · exact nofun
      · exact bitStep_ne_refused _ s reason

/-- A frame in progress is not refused. -/
theorem frameStep_ne_refused (s : State) (f : Frame) (reason : Refusal) : frameStep s f ≠ .refused reason := by
  unfold frameStep
  split
  · exact nofun
  · split
    · exact nofun
    · exact exec_ne_refused _ _ reason

theorem step_of_not_runnable {s : State} (h : ¬ s.runnable = true) : step s = .refused .parametersOutOfRange := if_neg h

/-- A step refuses exactly the inputs out of range. -/
theorem step_eq_refused_iff {s : State} : step s = .refused .parametersOutOfRange ↔ ¬ s.runnable = true := by
  refine ⟨fun h hrun => ?_, step_of_not_runnable⟩
  rw [step, if_pos hrun] at h
  split at h
  · cases h
  · cases h
  · split at h
    · cases h
    · exact frameStep_ne_refused _ _ _ h

theorem step_of_done {s : State} (hrun : s.runnable = true) (hmode : s.run.mode = .done) :
    step s = .fault .runEnded := by
  rw [step, if_pos hrun, hmode]

/-- Settles O11: `runnable` is the conjunction of the ranges, and no step but the refusal of `runnable` refuses. -/
theorem noStepOutOfRangeOrAfterTheEnd : Obligations.NoStepOutOfRangeOrAfterTheEnd :=
  ⟨fun _ => step_eq_refused_iff.trans (not_congr runnable_iff), fun _ => step_of_done⟩

/-- Settles O10: each disjunct contradicts one of the ranges of `runnable_iff`. -/
theorem outOfRangeInputsAreRefused : Obligations.OutOfRangeInputsAreRefused := by
  intro s hbroken
  refine step_of_not_runnable fun hrun => ?_
  obtain ⟨hstd, hfd, ⟨hspfStd, hspfStd'⟩, ⟨hspfFd, hspfFd'⟩, hps, ⟨hack, hack'⟩, hsamples⟩ := runnable_iff.mp hrun
  rcases hbroken with h | h | (h | h) | (h | h) | h | (h | h) | ⟨c, hc, hzero, hone⟩
  · exact hstd.not_ge h
  · exact hfd.not_ge h
  · exact hspfStd.not_gt h
  · exact hspfStd'.not_gt h
  · exact hspfFd.not_gt h
  · exact hspfFd'.not_gt h
  · exact hps.not_ge h
  · exact hack.not_gt h
  · exact hack'.not_gt h
  · exact (hsamples c hc).2.elim hzero hone

end Sys2Proof.Machine

/-! PROOFS. When a role completes, and under which name it stops otherwise (41_frame_fsm.md R81, assumption log 11). -/

namespace Sys2Proof.Machine

open Sys2Proof.Safety

theorem frame?_eq_none_iff {s : State} : s.frame? = none ↔ s.run.mode ≠ .frame ∨ s.ctx = none := by
  rw [State.frame?]
  cases s.run.mode <;> simp

theorem sampleBit_of_beyond {s : State} {f : Frame} (h : s.params.sampleCount ≤ rnd f.timing.samplePoint) :
    sampleBit s f = none := by
  rw [sampleBit, exhausted, decide_eq_true h, if_pos rfl]

theorem exec_of_noFrame (i : Instr) {s : State} (h : s.frame? = none) : exec i s = .fault .noFrameContext := by
  rcases exec_forms i with ⟨r, hr⟩ | ⟨index, rfl⟩
  · rw [hr, bitStep, h]
  · simp only [exec, execCrcFd, h]

theorem exec_of_beyond {i : Instr} {s : State} {f : Frame} (hf : s.frame? = some f)
    (hbeyond : s.params.sampleCount ≤ rnd f.timing.samplePoint) (hwidth : ∀ index, i = .crcFd index → f.acc.crcW ≠ none) :
    exec i s = .fault .sampleBeyondCapture := by
  rcases roleRule_isSome i f with ⟨r, hr⟩ | ⟨⟨index, hi⟩, hnone⟩
  · simp only [exec_eq_bitStep hf hr, bitStep, hf, sampleBit_of_beyond hbeyond]
  · exact absurd hnone (hwidth index hi)

/-- The last CRC bit stops without a selected width. -/
theorem finishCrcBit_of_noWidth {f : Frame} (hw : f.acc.crcW = none) :
    finishCrcBit true f = .error .crcWidthUnselected := by
  simp only [finishCrcBit, if_true, hw]

/-- Taking in a CRC bit leaves the selected width alone. -/
theorem crcBit_crcW (first b : Bool) (f : Frame) : (nextPayloadBit (crcBit first b f)).acc.crcW = f.acc.crcW :=
  (KeepsLayout.crcBit first b f).crcW

theorem exec_of_noWidth {i : Instr} {s : State} {f : Frame} {b : Bool} (hready : Ready s f b)
    (hneeds : needsCrcWidth i f) (hnone : f.acc.crcW = none) : exec i s = .fault .crcWidthUnselected := by
  have hf := frame?_of_mode hready.mode hready.ctx
  rcases hneeds with ⟨index, rfl⟩ | ⟨⟨index, rfl⟩, hj⟩
  · simp only [exec, execCrcFd, hf, hnone]
  · have hr : roleRule (.crcC index) f = some crcCRule := rfl
    obtain ⟨timing, notes, err, hbefore⟩ := beforeField_shape hr s b
    have hact : crcCRule.fieldAction b (beforeField crcCRule s b f) = .error .crcWidthUnselected := by
      rw [hbefore, crcCRule_fieldAction, hj]
      exact finishCrcBit_of_noWidth ((crcBit_crcW ..).trans hnone)
    rw [exec_eq_bitStep hf hr, bitStep_ready _ hready, runField, hact]

/-- A field action goes on when the width it computes with is selected. -/
theorem fieldAction_goes_on_of_width {i : Instr} {f0 f : Frame} {r : RoleRule} (b : Bool)
    (hr : roleRule i f0 = some r) (hwidth : needsCrcWidth i f → f.acc.crcW ≠ none) :
    ∃ result, r.fieldAction b f = .ok result := by
  cases i
  case dlcC11 | dlcF11 | dlcC29 | dlcF29 =>
    cases hr; rw [dlcRule_fieldAction]; split <;> exact ⟨_, rfl⟩
  case data => cases hr; rw [dataRule_fieldAction]; split <;> exact ⟨_, rfl⟩
  case crcC index =>
    cases hr
    rw [crcCRule_fieldAction]
    cases hlast : f.pos.j + 1 == 15 with
    | false => exact ⟨_, rfl⟩
    | true =>
      have hj : f.pos.j = 14 := by simpa using hlast
      exact finishCrcBit_goes_on _ (by rw [crcBit_crcW]; exact hwidth (.inr ⟨⟨index, rfl⟩, hj⟩))
  case crcFd index =>
    obtain ⟨w, -, rfl⟩ := Option.map_eq_some_iff.mp hr
    rw [crcFdRule_fieldAction]
    exact finishCrcBit_goes_on _ (by rw [crcBit_crcW]; exact hwidth (.inl ⟨index, rfl⟩))
  all_goals cases hr; exact ⟨_, rfl⟩

theorem exec_goes_on_of_width {i : Instr} {s : State} {f : Frame} {b : Bool} (hready : Ready s f b)
    (hwidth : needsCrcWidth i f → f.acc.crcW ≠ none) : ∃ t, exec i s = .next t := by
  rcases roleRule_isSome i f with ⟨r, hr⟩ | ⟨hcrcFd, hnone⟩
  · obtain ⟨timing, notes, err, hbefore⟩ := beforeField_shape hr s b
    obtain ⟨⟨g, fieldDone⟩, hact⟩ := fieldAction_goes_on_of_width b hr
      (f := { f with timing := timing, notes := notes, err := err }) hwidth
    rw [exec_eq_bitStep (frame?_of_mode hready.mode hready.ctx) hr, bitStep_ready r hready, runField, hbefore, hact]
    exact ⟨_, rfl⟩
  · exact absurd hnone (hwidth (.inl hcrcFd))

/-- A role that goes on had a bit that can be processed, and the width it computes with. -/
theorem ready_of_exec_next {i : Instr} {s t : State} (h : exec i s = .next t) :
    ∃ f b, Ready s f b ∧ (needsCrcWidth i f → f.acc.crcW ≠ none) := by
  obtain ⟨f, b, -, -, -, hready, -⟩ := exec_next h
  refine ⟨f, b, hready, fun hneeds hnone => ?_⟩
  rw [exec_of_noWidth hready hneeds hnone] at h
  cases h

/-- Settles O12: a role goes on exactly under the conditions of `exec_goes_on_of_width`, and each condition that is
missing is the first thing the role finds. -/
theorem rolesCompleteExactlyOnReadyBits : Obligations.RolesCompleteExactlyOnReadyBits :=
  ⟨fun _ _ => ⟨fun ⟨_, h⟩ => ready_of_exec_next h, fun ⟨_, _, hready, hwidth⟩ => exec_goes_on_of_width hready hwidth⟩,
    fun i _ h => exec_of_noFrame i (frame?_eq_none_iff.mpr h),
    fun _ _ _ hmode hctx hbeyond hwidth => exec_of_beyond (frame?_of_mode hmode hctx) hbeyond hwidth,
    fun _ _ _ _ => exec_of_noWidth⟩

end Sys2Proof.Machine

/-! PROOFS. What a step leaves of the inputs, the output and the error flags (20_memory.md R32 to R34, 10_state.md R17,
R27, 46_errors_emitter.md R123, R129). -/

namespace Sys2Proof.Machine

/-- No role writes the inputs. -/
theorem exec_inputs {i : Instr} {s t : State} (h : exec i s = .next t) : t.params = s.params ∧ t.raw = s.raw := by
  obtain ⟨f, b, r, g, fieldDone, -, -, -, rfl⟩ := exec_next h
  obtain ⟨hparams, hraw, -⟩ := closeBit_frame s (account (beforeField r s b f) r.cls b g) fieldDone
  exact ⟨hparams, hraw⟩

/-- Settles O41: by `step_inputs` and `exec_inputs` the sample memory is the same, so it reads the same. -/
theorem nothingWritesTheInputs : Obligations.NothingWritesTheInputs := by
  have hreads {s t : State} (h : t.params = s.params ∧ t.raw = s.raw) :
      t.params = s.params ∧ t.raw = s.raw ∧ ∀ a, Memory.read t.raw a = Memory.read s.raw a :=
    ⟨h.1, h.2, fun a => by rw [h.2]⟩
  exact ⟨fun _ _ h => hreads (step_inputs h), fun _ _ _ h => hreads (exec_inputs h)⟩

theorem searchStep_out (s : State) : (searchStep s).out = s.out := by
  rcases searchStep_cases s with ⟨-, h⟩ | ⟨-, -, h⟩ | ⟨sof, -, -, h⟩ <;> rw [h]

/-- Settles O42: of the outcomes of a step, only the emission of a frame writes the output. -/
theorem outputOnlyGrows : Obligations.OutputOnlyGrows := by
  intro s t h
  obtain ⟨-, ⟨-, rfl⟩ | ⟨f, hmode, hctx, -⟩⟩ := step_next h
  · exact .inl (searchStep_out s)
  · rcases step_frameOutcome hmode hctx h with rfl | ⟨i, r, b, -, -, houtcome⟩
    · exact .inl (exhaust_out s)
    · cases houtcome with
      | ended _ hout => exact .inl hout
      | emitted p hsearch hout hstart _ hresumes => exact .inr ⟨f, p, hctx, hsearch, hout, hresumes, hstart⟩
      | nextBit _ _ hout => exact .inl hout

/-- The flags of a frame stay in the frame and in the packet that the end of a bit leaves. -/
theorem closeBit_flags (s : State) (f : Frame) (fieldDone : Bool) :
    (∀ g, (closeBit s f fieldDone).ctx = some g → g.err = f.err) ∧
      ∀ p, (closeBit s f fieldDone).out = s.out ++ [p] → p.err = f.err := by
  obtain ⟨-, -, hout⟩ := closeBit_frame s f fieldDone
  refine ⟨fun g hg => by rw [(closeBit_ctx hg).2, advance_err], fun p hp => ?_⟩
  rcases hout with hsame | ⟨hemitted, -, -⟩
  · simp [hsame] at hp
  · obtain rfl : packetOf f = p := by simpa [hemitted] using hp
    exact packetOf_err f

/-- Settles O44: by `bit_frame` a bit keeps the flags of its frame, and by `closeBit_flags` they go on from there. -/
theorem errorFlagsNeverClear : Obligations.ErrorFlagsNeverClear := by
  intro s t f hmode hctx h
  rcases step_next_frame hmode hctx h with rfl | ⟨i, r, b, g, fieldDone, -, -, hr, hact, rfl⟩
  · exact ⟨fun g hg => (by cases hg), fun p hp => by simp at hp⟩
  · have hkept := (bit_frame hr hact).err
    obtain ⟨hframe, hpacket⟩ := closeBit_flags (beginState s)
      (account (beforeField r (beginState s) b (beginBit s.params f)) r.cls b g) fieldDone
    exact ⟨fun g' hg' => by rw [hframe g' hg']; exact hkept, fun p hp => by rw [hpacket p hp]; exact hkept⟩

end Sys2Proof.Machine

/-! PROOFS. A step does not read the packets emitted so far (20_memory.md R34, 10_state.md R17). -/

namespace Sys2Proof.Machine

/-- The state with packets put in front of its output. -/
def State.withEarlier (earlier : List Packet) (s : State) : State := { s with out := earlier ++ s.out }

/-- An outcome with packets put in front of the output of its next state. -/
def outcomeWithEarlier (earlier : List Packet) :
    Host.Outcome State Fault Refusal → Host.Outcome State Fault Refusal
  | .next t => .next (t.withEarlier earlier)
  | .fault e => .fault e
  | .refused r => .refused r

section

variable (earlier : List Packet) (s : State)

@[simp] theorem withEarlier_params : (s.withEarlier earlier).params = s.params := rfl
@[simp] theorem withEarlier_run : (s.withEarlier earlier).run = s.run := rfl
@[simp] theorem withEarlier_ctx : (s.withEarlier earlier).ctx = s.ctx := rfl

/-! The operations that compute no state from the state do not read the output. -/

@[simp] theorem runnable_withEarlier : (s.withEarlier earlier).runnable = s.runnable := rfl
@[simp] theorem frame?_withEarlier : (s.withEarlier earlier).frame? = s.frame? := rfl
@[simp] theorem sofEdge_withEarlier : sofEdge (s.withEarlier earlier) = sofEdge s := rfl
@[simp] theorem sampleBit_withEarlier (f : Frame) : sampleBit (s.withEarlier earlier) f = sampleBit s f := rfl
@[simp] theorem beforeField_withEarlier (r : RoleRule) (b : Bool) (f : Frame) :
    beforeField r (s.withEarlier earlier) b f = beforeField r s b f := rfl

/-! The operations on the state pass the packets on. -/

@[simp] theorem beginState_withEarlier :
    beginState (s.withEarlier earlier) = (beginState s).withEarlier earlier := rfl

@[simp] theorem emit_withEarlier (f : Frame) : emit (s.withEarlier earlier) f = (emit s f).withEarlier earlier := by
  simp only [emit, State.withEarlier, List.append_assoc]

@[simp] theorem abortPoll_withEarlier : abortPoll (s.withEarlier earlier) = (abortPoll s).withEarlier earlier := by
  by_cases habort : s.params.abort s.run.pollCount = true
  · rw [abortPoll_of_abort habort, abortPoll_of_abort (s := s.withEarlier earlier) habort]; rfl
  · rw [abortPoll_of_goesOn habort, abortPoll_of_goesOn (s := s.withEarlier earlier) habort]; rfl

@[simp] theorem closeBit_withEarlier (f : Frame) (fieldDone : Bool) :
    closeBit (s.withEarlier earlier) f fieldDone = (closeBit s f fieldDone).withEarlier earlier := by
  unfold closeBit
  split
  · exact emit_withEarlier earlier s f
  · cases fieldDone with
    | false => rfl
    | true => exact abortPoll_withEarlier earlier { s with ctx := some (advance f) }

@[simp] theorem bitStep_withEarlier (r : RoleRule) :
    bitStep r (s.withEarlier earlier) = outcomeWithEarlier earlier (bitStep r s) := by
  simp only [bitStep, frame?_withEarlier, sampleBit_withEarlier, beforeField_withEarlier, closeBit_withEarlier]
  cases s.frame? with
  | none => rfl
  | some f =>
    dsimp only
    cases sampleBit s f with
    | none => rfl
    | some b =>
      dsimp only
      cases runField r b (beforeField r s b f) <;> rfl

@[simp] theorem exec_withEarlier (i : Instr) :
    exec i (s.withEarlier earlier) = outcomeWithEarlier earlier (exec i s) := by
  rcases exec_forms i with ⟨r, hr⟩ | ⟨index, rfl⟩
  · rw [hr, hr, bitStep_withEarlier]
  · simp only [exec, execCrcFd, frame?_withEarlier, bitStep_withEarlier]
    cases s.frame? with
    | none => rfl
    | some f => dsimp only; cases f.acc.crcW <;> rfl

@[simp] theorem frameStep_withEarlier (f : Frame) :
    frameStep (s.withEarlier earlier) f = outcomeWithEarlier earlier (frameStep s f) := by
  simp only [frameStep, withEarlier_params, beginState_withEarlier, exec_withEarlier]
  split
  · rfl
  · cases roleOfBit (beginBit s.params f) <;> rfl

@[simp] theorem searchStep_withEarlier :
    searchStep (s.withEarlier earlier) = (searchStep s).withEarlier earlier := by
  simp only [searchStep, findFrame, withEarlier_params, withEarlier_run, abortPoll_withEarlier, sofEdge_withEarlier]
  split
  · rfl
  · cases sofEdge (abortPoll s) <;> rfl

theorem step_withEarlier : step (s.withEarlier earlier) = outcomeWithEarlier earlier (step s) := by
  simp only [step, runnable_withEarlier, withEarlier_run, withEarlier_ctx, searchStep_withEarlier,
    frameStep_withEarlier]
  split
  · cases s.run.mode with
    | search => rfl
    | done => rfl
    | frame => cases s.ctx <;> rfl
  · rfl

end

/-- Settles O43: `step_withEarlier` with the outcome written out. -/
theorem emittedPacketsAreNeverReadBack : Obligations.EmittedPacketsAreNeverReadBack := by
  intro s earlier
  rw [show ({ s with out := earlier ++ s.out } : State) = s.withEarlier earlier from rfl, step_withEarlier]
  cases step s <;> rfl

end Sys2Proof.Machine

/-! PROOFS. The sample memory under the host's writes (70_reset_and_hazards.md R146, assumption log 2): canonical memories
that read alike are equal, so each law follows from the reads on its two sides. -/

namespace Sys2Proof.Machine.Memory

section

variable {m : Memory} (hm : wf m = true) (i : Nat)

include hm

theorem read_write_same (v : Byte) : read (write m i v) i = v := by rw [read_write m i i v hm, if_pos rfl]

theorem read_write_of_ne {k : Nat} (hk : k ≠ i) (v : Byte) : read (write m i v) k = read m k := by
  rw [read_write m i k v hm, if_neg hk]

theorem write_read_same : write m i (read m i) = m := by
  refine eq_of_read_eq _ _ (write_wf m i _ hm) hm fun k => ?_
  rw [read_write m i k _ hm]
  split
  · next hk => rw [hk]
  · rfl

theorem write_write_same (v w : Byte) : write (write m i v) i w = write m i w := by
  have hv := write_wf m i v hm
  refine eq_of_read_eq _ _ (write_wf _ i w hv) (write_wf m i w hm) fun k => ?_
  rw [read_write _ i k w hv, read_write m i k w hm, read_write m i k v hm]
  split <;> rfl

theorem write_write_comm {k : Nat} (hk : k ≠ i) (v w : Byte) : write (write m i v) k w = write (write m k w) i v := by
  have hv := write_wf m i v hm
  have hw := write_wf m k w hm
  refine eq_of_read_eq _ _ (write_wf _ k w hv) (write_wf _ i v hw) fun n => ?_
  rw [read_write _ k n w hv, read_write m i n v hm, read_write _ i n v hw, read_write m k n w hm]
  by_cases hn : n = k
  · rw [if_pos hn, if_pos hn, if_neg (hn ▸ hk)]
  · rw [if_neg hn, if_neg hn]

end

end Sys2Proof.Machine.Memory

namespace Sys2Proof.Machine

/-- Settles O50: the five laws of a write, one lemma each. -/
theorem sampleWritesReadBackAndCompose : Obligations.SampleWritesReadBackAndCompose := fun _ i _ v w hm =>
  ⟨Memory.read_write_same hm i v, fun hk => Memory.read_write_of_ne hm i hk v, Memory.write_read_same hm i,
    Memory.write_write_same hm i v w, fun hk => Memory.write_write_comm hm i hk v w⟩

end Sys2Proof.Machine
